-- ==== Sys2Proof/Word.lean ====
section
/-! DEFINITION. The word types of the machine. -/

namespace Sys2Proof

/-- One byte of physical memory. -/
abbrev Byte := BitVec 8

/-- A 32-bit word: a register of R25, a page-table entry of R86, an instruction of R162. -/
abbrev Word := BitVec 32

/-- An effective address or a general register. An implementation with EA_BITS = 32 uses the low
32 bits (R5, R80). -/
abbrev Ea := BitVec 64

/-- The bits of an effective address that take part in a translation: EA[31:0] zero-extended, or
EA[45:0] of a 64-bit EA (R83). -/
abbrev PageEa := BitVec 46

/-- A physical address, at most 35 bits (R3, R80). -/
abbrev Pa := BitVec 35

end Sys2Proof
end

