-- ==== Sys2Proof/Config.lean ====
section
/-! DEFINITION. What an implementation fixes (the parameters of R5, one structure of plain data), the layout of the
register fields, and the opaque constants behind every value the spec leaves open. -/

namespace Sys2Proof

/-- EA_BITS (R5). -/
inductive EaWidth where
  | ea32
  | ea64
  deriving DecidableEq, Repr

/-- ENDIAN (R5, R93, R143). -/
inductive Endian where
  | big
  | little
  deriving DecidableEq, Repr

/-- The data half and the instruction half of the MMU: the `x` of the spec's names (R1, R9). -/
inductive Side where
  | d
  | i
  deriving DecidableEq, Repr

/-- TLB_INDEX_x (R5, R116): the spec's default, or any function of the address, uninterpreted. -/
inductive TlbIndexFn where
  /-- the low bits of the level 2 page number (R116) -/
  | pageLow
  /-- `Config.tlbIndexOther k` -/
  | other (k : Nat)
  deriving DecidableEq, Repr

/-- ATB_VPN for EA_BITS = 32 (R5, R120). -/
inductive AtbVpnFn where
  /-- the level 1 page number above fourteen zeros (R120) -/
  | level1Top
  /-- `Config.atbVpnOther k` -/
  | other (k : Nat)
  deriving DecidableEq, Repr

/-- PTBASE (R5, R109). -/
inductive PtBaseFn where
  /-- PTBP * 2^10, the context ignored (R109) -/
  | kilobytes
  /-- PTBP * 2^13, the other candidate of 92_eei_decisions.md D10 -/
  | frames
  /-- `Config.ptBaseOther k` -/
  | other (k : Nat)
  deriving DecidableEq, Repr

/-- USER_SPR_ACCESS (R5, R183): what a user-mode access to an MMU register does. DESIGN CHOICE: the exception may
have any vector offset (notes/assumptions/10.md) but those of the four MMU exceptions, of which a register access raises
none (R221; `UserSprAccess.wf`). -/
inductive UserSprAccess where
  /-- the model refuses, the spec's default -/
  | refuse
  /-- the core raises the exception at this vector offset -/
  | raise (vector : BitVec 12)
  deriving DecidableEq, Repr

/-- The parameters that each half of the MMU has for itself (R5). -/
structure MmuConfig where
  /-- xTLB_WAYS, 0 to 4 -/
  ways : Nat
  /-- xTLB_SETS, 1 to 128 -/
  sets : Nat
  /-- xATB_ENTRIES, 0 to 4 -/
  atbEntries : Nat
  /-- x_HW_RELOAD -/
  hwReload : Bool
  /-- xMMUCR_IMPL -/
  crImpl : Bool
  /-- whether the field xMMUCR.PTBP exists in an implemented xMMUCR (R30, R191) -/
  ptbpImpl : Bool
  /-- xTF_IMPL -/
  tfImpl : Bool
  /-- xMMUPR_IMPL -/
  prImpl : Bool
  /-- xTLBEIR_IMPL -/
  eirImpl : Bool
  /-- TLB_INDEX_x -/
  tlbIndex : TlbIndexFn
  deriving DecidableEq, Repr

/-- Bit positions of the protection bits of one group on the data side (R31, R42, R45). -/
structure DProtPos where
  sre : Nat
  swe : Nat
  ure : Nat
  uwe : Nat
  deriving DecidableEq, Repr

/-- Bit positions of the protection bits of one group on the instruction side (R34, R43, R46). -/
structure IProtPos where
  sxe : Nat
  uxe : Nat
  deriving DecidableEq, Repr

/-- Bit positions of xMMUCR (R28, R32). -/
structure CrPos where
  tf : Nat
  ptbp : Nat
  deriving DecidableEq, Repr

/-- Bit positions of a TLB match register (R36). DESIGN CHOICE: VPN has 19 bits in every
layout and for both widths of the EA (notes/assumptions/42.md). -/
structure MrPos where
  v : Nat
  pl1 : Nat
  cid : Nat
  lru : Nat
  vpn : Nat
  deriving DecidableEq, Repr

/-- Bit positions of an ATB match register (R44). DESIGN CHOICE: VPN has 22 bits in every
layout and for both widths of the EA (notes/assumptions/42.md). -/
structure AmrPos where
  v : Nat
  cid : Nat
  ps : Nat
  vpn : Nat
  deriving DecidableEq, Repr

/-- Bit positions of a translate register less its protection bits, and the width of its PPN field
(R42, R43, R45, R46). -/
structure TrPos where
  cc : Nat
  ci : Nat
  wbc : Nat
  wom : Nat
  a : Nat
  d : Nat
  ppn : Nat
  ppnWidth : Nat
  deriving DecidableEq, Repr

/-- Bit positions of a page-table entry (R86). -/
structure PtePos where
  cc : Nat
  ci : Nat
  wbc : Nat
  wom : Nat
  a : Nat
  d : Nat
  ppi : Nat
  l : Nat
  ppn : Nat
  deriving DecidableEq, Repr

/-- LAYOUT (R5, R27): where each named field lies in its 32-bit word. The match registers have one
format for both halves (R36, R44). -/
structure Layout where
  dcr : CrPos
  icr : CrPos
  /-- groups 1 to 7 in order -/
  dpr : Vector DProtPos 7
  /-- groups 1 to 7 in order -/
  ipr : Vector IProtPos 7
  mr : MrPos
  dtr : TrPos
  dtrProt : DProtPos
  itr : TrPos
  itrProt : IProtPos
  amr : AmrPos
  datr : TrPos
  datrProt : DProtPos
  iatr : TrPos
  iatrProt : IProtPos
  pte : PtePos
  deriving DecidableEq, Repr

/-- The parameters of R5. -/
structure Config where
  /-- EA_BITS -/
  eaBits : EaWidth
  /-- PA_BITS, 1 to 35 -/
  paBits : Nat
  /-- the data half -/
  d : MmuConfig
  /-- the instruction half -/
  i : MmuConfig
  /-- CID_IMPL -/
  cidImpl : Bool
  /-- CFGR_IMPL -/
  cfgrImpl : Bool
  /-- ENDIAN -/
  endian : Endian
  /-- LAYOUT -/
  layout : Layout
  /-- ATB_VPN -/
  atbVpn : AtbVpnFn
  /-- PTBASE -/
  ptBase : PtBaseFn
  /-- VECTOR_BASE without its twelve zero low bits (R226) -/
  vectorBase : BitVec 52
  /-- USER_SPR_ACCESS -/
  userSprAccess : UserSprAccess
  /-- MATCH64: which of the opaque 64-bit match functions the implementation has (R5, D29) -/
  match64 : Nat
  deriving DecidableEq, Repr

/-- The parameters of one half. -/
def Config.mmu (c : Config) : Side → MmuConfig
  | .d => c.d
  | .i => c.i

/-! ### The values the spec leaves open. No constant of this part has a body: nothing can be proved of its value. -/

/-- The spec's `draw` (R8): the n-th value the hardware chooses and no rule constrains. -/
opaque Config.freeBits : Nat → BitVec 64

/-- What the special-purpose register at an address (R161) holds after power-on (R55). -/
opaque Config.powerOnSpr : BitVec 16 → Word

/-- SR[CID] after power-on (R55). -/
opaque Config.powerOnCid : BitVec 4

/-- An index function other than the default of R116. -/
opaque Config.tlbIndexOther : Nat → PageEa → Nat

/-- A tag function of the ATB other than the default of R120, for EA_BITS = 32. -/
opaque Config.atbVpnOther : Nat → PageEa → BitVec 22

/-- A page-table base function other than those of R109 and D10: a function of PTBP and the context,
in words of four bytes (R108: a PTE address is a multiple of 4). -/
opaque Config.ptBaseOther : Nat → BitVec 22 → BitVec 4 → Nat

/-- MATCH64 (D29): the VPN that a hardware reload installs in a TLB match register; the `Bool` is PL1. DESIGN CHOICE: it
has 19 bits (notes/assumptions/42.md). -/
opaque Config.tlbTag64 : Nat → Bool → PageEa → BitVec 19

/-- MATCH64 (D29): whatever else a TLB entry's VPN, of 19 bits (notes/assumptions/42.md), matches beside the tag a reload
installs. -/
opaque Config.tlbMatch64 : Nat → Bool → BitVec 19 → PageEa → Bool

/-- MATCH64 (D29): the VPN that a hardware reload installs in an ATB match register; the `Bool` is PS. DESIGN CHOICE: it
has 22 bits (notes/assumptions/42.md). -/
opaque Config.atbTag64 : Nat → Bool → PageEa → BitVec 22

/-- MATCH64 (D29): whatever else an ATB entry's VPN, of 22 bits (notes/assumptions/42.md), matches beside the tag a reload
installs. -/
opaque Config.atbMatch64 : Nat → Bool → BitVec 22 → PageEa → Bool

/-! ### The default layout and the configuration after reset -/

/-- The positions in the tables of R28 to R46 and R86, which the spec marks as general knowledge (D1). -/
def Layout.default : Layout where
  dcr := { tf := 0, ptbp := 10 }
  icr := { tf := 0, ptbp := 10 }
  dpr := #v[⟨0, 1, 2, 3⟩, ⟨4, 5, 6, 7⟩, ⟨8, 9, 10, 11⟩, ⟨12, 13, 14, 15⟩, ⟨16, 17, 18, 19⟩, ⟨20, 21, 22, 23⟩, ⟨24, 25, 26, 27⟩]
  ipr := #v[⟨0, 1⟩, ⟨2, 3⟩, ⟨4, 5⟩, ⟨6, 7⟩, ⟨8, 9⟩, ⟨10, 11⟩, ⟨12, 13⟩]
  mr := { v := 0, pl1 := 1, cid := 2, lru := 6, vpn := 13 }
  dtr := { cc := 0, ci := 1, wbc := 2, wom := 3, a := 4, d := 5, ppn := 13, ppnWidth := 19 }
  dtrProt := { ure := 6, uwe := 7, sre := 8, swe := 9 }
  itr := { cc := 0, ci := 1, wbc := 2, wom := 3, a := 4, d := 5, ppn := 13, ppnWidth := 19 }
  itrProt := { sxe := 6, uxe := 7 }
  amr := { v := 0, cid := 1, ps := 5, vpn := 10 }
  datr := { cc := 0, ci := 1, wbc := 2, wom := 3, a := 4, d := 5, ppn := 10, ppnWidth := 22 }
  datrProt := { sre := 6, swe := 7, ure := 8, uwe := 9 }
  iatr := { cc := 0, ci := 1, wbc := 2, wom := 3, a := 4, d := 5, ppn := 10, ppnWidth := 22 }
  iatrProt := { sxe := 6, uxe := 7 }
  pte := { cc := 0, ci := 1, wbc := 2, wom := 3, a := 4, d := 5, ppi := 6, l := 9, ppn := 10 }

/-- One half of the MMU with every register of R21 or R22 present and software reload (DESIGN CHOICE,
notes/assumptions/1.md). -/
def MmuConfig.default : MmuConfig where
  ways := 4
  sets := 128
  atbEntries := 4
  hwReload := false
  crImpl := true
  ptbpImpl := true
  tfImpl := true
  prImpl := true
  eirImpl := true
  tlbIndex := .pageLow

/-- The configuration of `State.reset`: the default configuration of 95_test_vectors.md with every
register of R21 and R22 present (DESIGN CHOICE, notes/assumptions/1.md). -/
def Config.default : Config where
  eaBits := .ea32
  paBits := 35
  d := MmuConfig.default
  i := MmuConfig.default
  cidImpl := true
  cfgrImpl := true
  endian := .big
  layout := Layout.default
  atbVpn := .level1Top
  ptBase := .kilobytes
  vectorBase := 0
  userSprAccess := .refuse
  match64 := 0

end Sys2Proof
end

