-- ==== Sys2Proof/Syntax.lean ====
section
/-! DEFINITION. The instructions of spec/opcode_table.json: the two register-access instructions. -/

namespace Sys2Proof

/-- One constructor for each row of the opcode table (R166). The widths of the operand types are the
ranges of R169: registers 0 to 31, K 0 to 65535. -/
inductive Instr where
  /-- `l.mfspr rD,rA,K` (R163, R181) -/
  | mfspr (d a : BitVec 5) (k : BitVec 16)
  /-- `l.mtspr rA,rB,K` (R164, R182) -/
  | mtspr (a b : BitVec 5) (k : BitVec 16)
  deriving DecidableEq, Repr

end Sys2Proof
end

