-- ==== Sys2Proof/Decode.lean ====
section
/-! DEFINITION. The decoder, total on any bytes, and the encoder, both from the formats of R163 and R164. -/

namespace Sys2Proof

/-- The instruction a 32-bit word encodes; `none` for every major opcode but the two of R166. -/
def decodeWord (w : Word) : Option Instr :=
  if w.extractLsb' 26 6 = 0x2D#6 then
    some (.mfspr (w.extractLsb' 21 5) (w.extractLsb' 16 5) (w.extractLsb' 0 16))
  else if w.extractLsb' 26 6 = 0x30#6 then
    some (.mtspr (w.extractLsb' 16 5) (w.extractLsb' 11 5) (w.extractLsb' 21 5 ++ w.extractLsb' 0 11))
  else none

/-- The 32-bit word of four bytes, the first at the lowest address (R93, R143). -/
def wordOfBytes (e : Endian) (b0 b1 b2 b3 : Byte) : Word :=
  match e with
  | .big => b0 ++ b1 ++ b2 ++ b3
  | .little => b3 ++ b2 ++ b1 ++ b0

/-- The four bytes of a word, the first for the lowest address (R93, R143). -/
def bytesOfWord (e : Endian) (w : Word) : List Byte :=
  match e with
  | .big => [w.extractLsb' 24 8, w.extractLsb' 16 8, w.extractLsb' 8 8, w.extractLsb' 0 8]
  | .little => [w.extractLsb' 0 8, w.extractLsb' 8 8, w.extractLsb' 16 8, w.extractLsb' 24 8]

/-- Decode the instruction at the head of a byte sequence: its four bytes (R162), and the rest. -/
def decode (e : Endian) : List Byte → Option (Instr × List Byte)
  | b0 :: b1 :: b2 :: b3 :: rest =>
    match decodeWord (wordOfBytes e b0 b1 b2 b3) with
    | some i => some (i, rest)
    | none => none
  | _ => none

/-- The word of an instruction (R163, R164): `l.mtspr` splits K as R165 says. -/
def encodeWord : Instr → Word
  | .mfspr d a k => 0x2D#6 ++ d ++ a ++ k
  | .mtspr a b k => 0x30#6 ++ k.extractLsb' 11 5 ++ a ++ b ++ k.extractLsb' 0 11

/-- The bytes of an instruction as memory holds them. -/
def encode (e : Endian) (i : Instr) : List Byte := bytesOfWord e (encodeWord i)

/-- The instruction the decoder reads from the opcode table's word w of nbits bits, stored as a
big-endian implementation stores it. -/
def decodeTableWord (nbits w : Nat) : Option Instr :=
  match decode .big (bytesOfWord .big (BitVec.ofNat 32 (w % 2 ^ nbits))) with
  | some (i, _) => some i
  | none => none

end Sys2Proof
end

