-- ==== Sys2Proof/Machine/Regs.lean ====
section
/-! DEFINITION. The registers as data: the named fields of every register of R21 and R22, the core's
registers that the MMU reads or an MMU exception writes, and register files indexed by bit vectors. -/

namespace Sys2Proof.Machine

/-- The two modes (R240). -/
inductive Mode where
  | supervisor
  | user
  deriving DecidableEq, Repr

/-- What this spec gives of the supervision register SR: the context (R48), the mode (R49), the two
enables (R50), the interrupt enable that exception entry clears (R227) and DSX (R223). -/
structure Sr where
  mode : Mode
  dme : Bool
  ime : Bool
  cid : BitVec 4
  ie : Bool
  dsx : Bool
  deriving DecidableEq, Repr

/-- The instruction at the program counter stands in the delay slot of the jump at `jump`, which goes to
`target` (R223, R275). -/
structure DelaySlot where
  jump : Ea
  target : Ea
  deriving DecidableEq, Repr

/-- The protection bits of one group on the data side (R31). -/
structure DProt where
  sre : Bool
  swe : Bool
  ure : Bool
  uwe : Bool
  deriving DecidableEq, Repr

/-- The protection bits of one group on the instruction side (R34). -/
structure IProt where
  sxe : Bool
  uxe : Bool
  deriving DecidableEq, Repr

/-- A TLB match register xTLBWyMRs (R36). DESIGN CHOICE: VPN has 19 bits for both widths of the EA
(notes/assumptions/42.md). -/
structure TlbMatch where
  v : Bool
  pl1 : Bool
  cid : BitVec 4
  lru : BitVec 2
  vpn : BitVec 19
  deriving DecidableEq, Repr

/-- An ATB match register xATBMRi (R44). DESIGN CHOICE: VPN has 22 bits for both widths of the EA
(notes/assumptions/42.md). -/
structure AtbMatch where
  v : Bool
  cid : BitVec 4
  ps : Bool
  vpn : BitVec 22
  deriving DecidableEq, Repr

/-- The page attributes (R87, R133). -/
structure Attrs where
  cc : Bool
  ci : Bool
  wbc : Bool
  wom : Bool
  deriving DecidableEq, Repr

/-- A translate register (R42, R43, R45, R46). `P` is the protection bits of the side. -/
structure TransReg (P : Type) where
  attrs : Attrs
  a : Bool
  d : Bool
  prot : P
  ppn : BitVec 22
  deriving DecidableEq, Repr

/-- A page-table entry (R86). -/
structure Pte where
  attrs : Attrs
  a : Bool
  d : Bool
  ppi : BitVec 3
  l : Bool
  ppn : BitVec 22
  deriving DecidableEq, Repr

/-- A TLB entry: the match and the translate register, and where a hardware reload found its PTE
(R131; notes/assumptions/17.md). -/
structure TlbEntry (P : Type) where
  mr : TlbMatch
  tr : TransReg P
  origin : Option Pa
  deriving DecidableEq, Repr

/-- An ATB entry, as `TlbEntry`. -/
structure AtbEntry (P : Type) where
  mr : AtbMatch
  tr : TransReg P
  origin : Option Pa
  deriving DecidableEq, Repr

/-- A history update that an access through a reloaded entry allows the hardware to make, at any time after it or never
(R131, U29): the PTE, and the bits that the access set and that no update has taken yet. -/
structure HistOwed where
  pa : Pa
  a : Bool
  d : Bool
  deriving DecidableEq, Repr

/-- A history update in progress: the PTE read, and the bits still to be set in it (R131). -/
structure HistLatch where
  pa : Pa
  word : Word
  a : Bool
  d : Bool
  deriving DecidableEq, Repr

/-- The registers of one half of the MMU (R20 to R22). The TLB is indexed by way and set together. -/
structure Mmu (P : Type) where
  tf : Bool
  ptbp : BitVec 22
  /-- protection groups 1 to 7 in order -/
  pr : Vector P 7
  tlb : Vector (TlbEntry P) (2 ^ 9)
  atb : Vector (AtbEntry P) (2 ^ 2)
  /-- the history updates that the hardware may still make in memory, the oldest first -/
  owed : List HistOwed
  /-- those of which it has read the PTE -/
  hist : List HistLatch
  deriving DecidableEq, Repr

/-- Which entry of one half: TLB entry (way, set) or ATB entry i. -/
inductive EntryRef where
  | tlb (y : BitVec 2) (s : BitVec 7)
  | atb (i : BitVec 2)
  deriving DecidableEq, Repr

/-- The three kinds of memory access (R80, R81). -/
inductive AccessKind where
  | fetch
  | load
  | store
  deriving DecidableEq, Repr

/-- An access as it reaches memory: the physical address and the attributes of R133, and its bytes. -/
structure BusAccess where
  kind : AccessKind
  ea : Ea
  pa : Pa
  attrs : Attrs
  data : List Byte
  deriving DecidableEq, Repr

/-- A part of a data access that one translation serves: its first address, where that is in memory with which
attributes (R133), and how many bytes follow there. -/
structure Part where
  ea : Ea
  pa : Pa
  attrs : Attrs
  size : Nat
  deriving DecidableEq, Repr

/-- The low EA_BITS bits of an address or a general register (R5, R80). -/
def truncEa (w : EaWidth) (v : Ea) : Ea :=
  match w with
  | .ea32 => (v.setWidth 32).setWidth 64
  | .ea64 => v

/-! ### Register files indexed by a bit vector -/

/-- Entry i of a file of 2^n entries. -/
def fileGet {α : Type} {n : Nat} (f : Vector α (2 ^ n)) (i : BitVec n) : α := f[i.toNat]'i.isLt

/-- The file with entry i replaced. -/
def fileSet {α : Type} {n : Nat} (f : Vector α (2 ^ n)) (i : BitVec n) (a : α) : Vector α (2 ^ n) :=
  f.set i.toNat a i.isLt

/-- The file whose entry i is f i. -/
def fileOf {α : Type} (n : Nat) (f : BitVec n → α) : Vector α (2 ^ n) :=
  ⟨⟨(List.range (2 ^ n)).map fun k => f (BitVec.ofNat n k)⟩, by simp⟩

/-- The seven protection groups from a function of the PPI value 1 to 7 (R31, R34). -/
def groupsOf {α : Type} (f : Nat → α) : Vector α 7 := #v[f 1, f 2, f 3, f 4, f 5, f 6, f 7]

/-- The protection group that a PPI value selects (R89); group 0 does not exist. -/
def groupGet {α : Type} (g : Vector α 7) (ppi : BitVec 3) : α :=
  g[ppi.toNat - 1]'(by have := ppi.isLt; omega)

/-- TLB entry (y, s): way y, set s. -/
def Mmu.entry {P : Type} (m : Mmu P) (y : BitVec 2) (s : BitVec 7) : TlbEntry P := fileGet m.tlb (y ++ s)

/-- The half with TLB entry (y, s) replaced. -/
def Mmu.setEntry {P : Type} (m : Mmu P) (y : BitVec 2) (s : BitVec 7) (e : TlbEntry P) : Mmu P :=
  { m with tlb := fileSet m.tlb (y ++ s) e }

/-- The half with ATB entry i replaced. -/
def Mmu.setAtb {P : Type} (m : Mmu P) (i : BitVec 2) (e : AtbEntry P) : Mmu P :=
  { m with atb := fileSet m.atb i e }

/-- The half with every TLB entry rewritten by a function of its way and set. -/
def Mmu.mapTlb {P : Type} (m : Mmu P) (f : BitVec 2 → BitVec 7 → TlbEntry P → TlbEntry P) : Mmu P :=
  { m with tlb := fileOf 9 fun ix => f (ix.extractLsb' 7 2) (ix.extractLsb' 0 7) (fileGet m.tlb ix) }

end Sys2Proof.Machine
end

