-- ==== Sys2Proof/Machine/Fields.lean ====
section
/-! DEFINITION. The packing of named fields into register words by the layout (R27), one pair of functions for each
register format. A mask, the word with every named field all ones, says which bits are named. -/

namespace Sys2Proof.Machine

/-- Bit i of a word (R7). -/
def getBit (w : Word) (i : Nat) : Bool := w.getLsbD i

/-- A word whose bit i is b and whose other bits are 0. -/
def putBit (i : Nat) (b : Bool) : Word := (BitVec.ofBool b).setWidth 32 <<< i

/-- The field of n bits whose lowest bit is lo. -/
def getField (n : Nat) (w : Word) (lo : Nat) : BitVec n := w.extractLsb' lo n

/-- A word that holds v at lo and 0 elsewhere. -/
def putField {n : Nat} (lo : Nat) (v : BitVec n) : Word := v.setWidth 32 <<< lo

/-- The low `width` bits of a physical page number (R125, D15). -/
def cutPpn (width : Nat) (p : BitVec 22) : BitVec 22 := p &&& BitVec.ofNat 22 (2 ^ width - 1)

/-! ### TLB and ATB match registers (R36, R44) -/

def unpackMr (p : MrPos) (w : Word) : TlbMatch where
  v := getBit w p.v
  pl1 := getBit w p.pl1
  cid := getField 4 w p.cid
  lru := getField 2 w p.lru
  vpn := getField 19 w p.vpn

def packMr (p : MrPos) (m : TlbMatch) : Word :=
  putBit p.v m.v ||| putBit p.pl1 m.pl1 ||| putField p.cid m.cid ||| putField p.lru m.lru ||| putField p.vpn m.vpn

/-- The named bits of a TLB match register. -/
def maskMr (p : MrPos) : Word :=
  packMr p { v := true, pl1 := true, cid := .allOnes 4, lru := .allOnes 2, vpn := .allOnes 19 }

def unpackAmr (p : AmrPos) (w : Word) : AtbMatch where
  v := getBit w p.v
  cid := getField 4 w p.cid
  ps := getBit w p.ps
  vpn := getField 22 w p.vpn

def packAmr (p : AmrPos) (m : AtbMatch) : Word :=
  putBit p.v m.v ||| putField p.cid m.cid ||| putBit p.ps m.ps ||| putField p.vpn m.vpn

/-- The named bits of an ATB match register. -/
def maskAmr (p : AmrPos) : Word :=
  packAmr p { v := true, cid := .allOnes 4, ps := true, vpn := .allOnes 22 }

/-! ### Protection bits (R31, R34, R42, R43, R45, R46) -/

def unpackDProt (p : DProtPos) (w : Word) : DProt where
  sre := getBit w p.sre
  swe := getBit w p.swe
  ure := getBit w p.ure
  uwe := getBit w p.uwe

def packDProt (p : DProtPos) (t : DProt) : Word :=
  putBit p.sre t.sre ||| putBit p.swe t.swe ||| putBit p.ure t.ure ||| putBit p.uwe t.uwe

def maskDProt (p : DProtPos) : Word := packDProt p ⟨true, true, true, true⟩

def unpackIProt (p : IProtPos) (w : Word) : IProt where
  sxe := getBit w p.sxe
  uxe := getBit w p.uxe

def packIProt (p : IProtPos) (t : IProt) : Word := putBit p.sxe t.sxe ||| putBit p.uxe t.uxe

def maskIProt (p : IProtPos) : Word := packIProt p ⟨true, true⟩

/-- DMMUPR (R31). -/
def unpackDpr (p : Vector DProtPos 7) (w : Word) : Vector DProt 7 :=
  groupsOf fun g => unpackDProt (groupGet p (BitVec.ofNat 3 g)) w

/-- DMMUPR (R31): the OR of the groups' bits. -/
def packDpr (p : Vector DProtPos 7) (g : Vector DProt 7) : Word :=
  ((p.toList.zip g.toList).map fun q => packDProt q.1 q.2).foldr (· ||| ·) 0

def maskDpr (p : Vector DProtPos 7) : Word := (p.toList.map maskDProt).foldr (· ||| ·) 0

/-- IMMUPR (R34). -/
def unpackIpr (p : Vector IProtPos 7) (w : Word) : Vector IProt 7 :=
  groupsOf fun g => unpackIProt (groupGet p (BitVec.ofNat 3 g)) w

/-- IMMUPR (R34): the OR of the groups' bits. -/
def packIpr (p : Vector IProtPos 7) (g : Vector IProt 7) : Word :=
  ((p.toList.zip g.toList).map fun q => packIProt q.1 q.2).foldr (· ||| ·) 0

def maskIpr (p : Vector IProtPos 7) : Word := (p.toList.map maskIProt).foldr (· ||| ·) 0

/-! ### Translate registers: everything but the protection bits, which differ by side -/

def unpackTr {P : Type} (p : TrPos) (prot : P) (w : Word) : TransReg P where
  attrs := { cc := getBit w p.cc, ci := getBit w p.ci, wbc := getBit w p.wbc, wom := getBit w p.wom }
  a := getBit w p.a
  d := getBit w p.d
  prot := prot
  ppn := cutPpn p.ppnWidth (getField 22 w p.ppn)

/-- The word of a translate register whose protection bits, already placed, are `prot`. -/
def packTr {P : Type} (p : TrPos) (prot : Word) (t : TransReg P) : Word :=
  putBit p.cc t.attrs.cc ||| putBit p.ci t.attrs.ci ||| putBit p.wbc t.attrs.wbc ||| putBit p.wom t.attrs.wom |||
  putBit p.a t.a ||| putBit p.d t.d ||| prot ||| putField p.ppn (cutPpn p.ppnWidth t.ppn)

/-- The named bits of a translate register whose protection bits have the mask `prot`. -/
def maskTr (p : TrPos) (prot : Word) : Word :=
  packTr p prot
    { attrs := ⟨true, true, true, true⟩, a := true, d := true, prot := (), ppn := .allOnes 22 : TransReg Unit }

/-! ### What a register takes from a word written to it -/

/-- A TLB match register written with w: every named field takes its bits, but CID stays 0 where it is
hardwired (R39, R195). -/
def mrOfWord (c : Config) (w : Word) : TlbMatch :=
  let m := unpackMr c.layout.mr w
  { m with cid := if c.cidImpl then m.cid else 0 }

/-- An ATB match register written with w (R39, R196). -/
def amrOfWord (c : Config) (w : Word) : AtbMatch :=
  let m := unpackAmr c.layout.amr w
  { m with cid := if c.cidImpl then m.cid else 0 }

/-- A DTLB translate register written with w (R42, R195). -/
def dtrOfWord (l : Layout) (w : Word) : TransReg DProt := unpackTr l.dtr (unpackDProt l.dtrProt w) w

/-- An ITLB translate register written with w (R43, R195). -/
def itrOfWord (l : Layout) (w : Word) : TransReg IProt := unpackTr l.itr (unpackIProt l.itrProt w) w

/-- A DATB translate register written with w (R45, R196). -/
def datrOfWord (l : Layout) (w : Word) : TransReg DProt := unpackTr l.datr (unpackDProt l.datrProt w) w

/-- An IATB translate register written with w (R46, R196). -/
def iatrOfWord (l : Layout) (w : Word) : TransReg IProt := unpackTr l.iatr (unpackIProt l.iatrProt w) w

/-! ### The control register and the page-table entry (R28, R32, R86) -/

def packCr (p : CrPos) (tf : Bool) (ptbp : BitVec 22) : Word := putBit p.tf tf ||| putField p.ptbp ptbp

def unpackPte (p : PtePos) (w : Word) : Pte where
  attrs := { cc := getBit w p.cc, ci := getBit w p.ci, wbc := getBit w p.wbc, wom := getBit w p.wom }
  a := getBit w p.a
  d := getBit w p.d
  ppi := getField 3 w p.ppi
  l := getBit w p.l
  ppn := getField 22 w p.ppn

def packPte (p : PtePos) (t : Pte) : Word :=
  putBit p.cc t.attrs.cc ||| putBit p.ci t.attrs.ci ||| putBit p.wbc t.attrs.wbc ||| putBit p.wom t.attrs.wom |||
  putBit p.a t.a ||| putBit p.d t.d ||| putField p.ppi t.ppi ||| putBit p.l t.l ||| putField p.ppn t.ppn

end Sys2Proof.Machine
end

