-- ==== Sys2Proof/Machine/State.lean ====
section
/-! DEFINITION. The machine's state as plain data, its reasons to stop, and the state after reset. -/

namespace Sys2Proof.Machine

/-- What the core does to the registers that the spec gives it, beside `l.mfspr` and `l.mtspr` (R48 to R50, R54). -/
inductive CoreAct where
  /-- nothing that the state holds -/
  | proceed
  /-- a general register is written (R54) -/
  | setGpr (r : BitVec 5) (v : Ea)
  /-- what the MMU reads of SR changes (R48 to R50) -/
  | setSr (sr : Sr)
  /-- the program counter moves (R54), perhaps into a delay slot (R275) -/
  | jump (pc : Ea) (slot : Option DelaySlot)
  /-- the core returns from an exception (R227), in either mode (notes/assumptions/9.md) -/
  | returnFromException
  deriving DecidableEq, Repr

/-- What an agent other than the instruction stream of `Instr` does next (R11, R12). -/
inductive Input where
  /-- agent (b): the instruction at the program counter is a load of n bytes at ea, which writes the value to
  the register `dest` names, if any (R222; notes/assumptions/12.md) -/
  | load (ea : Ea) (n : Nat) (dest : Option (BitVec 5 × Ea))
  /-- agent (b): the instruction at the program counter is a store of these bytes at ea -/
  | store (ea : Ea) (bytes : List Byte)
  /-- agent (d): the hardware page-table search runs for ea in the current context (R114) -/
  | reload (x : Side) (ea : Ea)
  /-- agent (e): the hardware reads the PTE of the k-th update it may still make, to set A, D or both (R131) -/
  | historyRead (x : Side) (k : Nat) (a d : Bool)
  /-- agent (e): the hardware writes the PTE of the k-th update in progress, with the history bits set (R131) -/
  | historyWrite (x : Side) (k : Nat)
  /-- agent (g): another processor writes these bytes to physical memory (R11, R248) -/
  | foreignWrite (a : Nat) (bytes : List Byte)
  /-- agent (a): the instruction at the program counter is one outside the opcode table that makes no data
  access; it is fetched (R81, R141) and does this -/
  | insn (act : CoreAct)
  /-- the core does this without an instruction: an input from the core of R12 -/
  | core (act : CoreAct)
  deriving DecidableEq, Repr

/-- The machine stops: none of these is an exception, which is a next state. -/
inductive Fault where
  /-- Raised by `foreignWrite` when another processor writes at an address at or above 2^PA_BITS, which
  R80 says does not exist. Safe: nothing goes on. -/
  | noSuchAddress
  deriving DecidableEq, Repr

/-- The machine has no meaning for what it met: the `refuse` of R8. -/
inductive Refusal where
  /-- Raised by `exec` for an instruction that has no meaning yet; no arm does. Safe. -/
  | notModelled (mnemonic : String)
  /-- Raised by a step whose word is in neither row of the opcode table (R166). Safe. -/
  | outsideOpcodeTable
  /-- Raised by a step at a program counter that is no multiple of 4 (R162). Safe. -/
  | misalignedFetch
  /-- Raised by `l.mfspr` and `l.mtspr` at a register address that is no MMU register: another group, or a
  number of U9; and by a write of a configuration register (R181, R182, R23). Safe. -/
  | sprOutsideSpec
  /-- Raised by a user-mode register access where USER_SPR_ACCESS is `refuse` (R183, D20). Safe. -/
  | userSprAccess
  /-- Raised by an access that two or more entries match (R119, D9). Safe. -/
  | multipleMatch
  /-- Raised by a search that finds L = 0 in the last table (R110, R111, U5). Safe. -/
  | malformedTable
  /-- Raised by a search whose table address exceeds PA_BITS (R110, U13). Safe. -/
  | tableAddress
  /-- Raised by a reload that found a page no structure of the implementation can hold (R113, D31). Safe. -/
  | noPlaceForPage
  deriving DecidableEq, Repr

/-- Physical memory: the bytes that differ from what an unlisted address reads as, addresses rising. -/
abbrev Memory := List Host.Cell

/-- The state of one processor, its memory, and what its surroundings do next. -/
structure State where
  /-- the implementation's parameters (R5): no step changes them -/
  cfg : Config
  /-- the general registers x[0..31] (R54) -/
  gpr : Vector Ea (2 ^ 5)
  /-- the address of the next instruction -/
  pc : Ea
  /-- the delay slot the program counter stands in, if any -/
  delaySlot : Option DelaySlot
  sr : Sr
  /-- the SR that an exception saved (R227) -/
  esr : Sr
  /-- the address of the failing instruction that an exception saved (R223) -/
  epcr : Ea
  /-- the effective address that an exception recorded (R222) -/
  eear : Ea
  /-- group 1 (R21) -/
  dmmu : Mmu DProt
  /-- group 2 (R22) -/
  immu : Mmu IProt
  /-- physical memory (R52) -/
  mem : Memory
  /-- the last access that reached memory (R133), one record for each part of it -/
  bus : List BusAccess
  /-- what the other agents do next, the first first -/
  inbox : List Input
  /-- how many free values have been taken -/
  draws : Nat
  deriving DecidableEq, Repr

/-- One half after power-on: each register holds what `Config.powerOnSpr` says its address (R161) holds,
`base` being the address of the half's register 0. -/
def Mmu.powerOn {P : Type} (c : Config) (base : Nat) (cr : CrPos) (pr : Word → Vector P 7)
    (tr atr : Word → TransReg P) : Mmu P where
  tf := getBit (Config.powerOnSpr (BitVec.ofNat 16 base)) cr.tf
  ptbp := getField 22 (Config.powerOnSpr (BitVec.ofNat 16 base)) cr.ptbp
  pr := pr (Config.powerOnSpr (BitVec.ofNat 16 (base + 1)))
  tlb := fileOf 9 fun ix =>
    let a := base + 0x200 + 0x100 * (ix.extractLsb' 7 2).toNat + (ix.extractLsb' 0 7).toNat
    { mr := mrOfWord c (Config.powerOnSpr (BitVec.ofNat 16 a))
      tr := tr (Config.powerOnSpr (BitVec.ofNat 16 (a + 0x80)))
      origin := none }
  atb := fileOf 2 fun i =>
    { mr := amrOfWord c (Config.powerOnSpr (BitVec.ofNat 16 (base + 4 + i.toNat)))
      tr := atr (Config.powerOnSpr (BitVec.ofNat 16 (base + 8 + i.toNat)))
      origin := none }
  owed := []
  hist := []

/-- The machine right after reset, for an implementation c: supervisor mode and both MMUs off, at vector
offset 0x100 (R55, R261); every MMU register and the context unspecified, so a free constant (R55, R260).
The other values are the model's (notes/assumptions/5.md). -/
def State.resetWith (c : Config) : State where
  cfg := c
  gpr := fileOf 5 fun _ => 0
  pc := truncEa c.eaBits (c.vectorBase ++ 0x100#12)
  delaySlot := none
  sr := { mode := .supervisor, dme := false, ime := false, cid := Config.powerOnCid, ie := false, dsx := false }
  esr := { mode := .supervisor, dme := false, ime := false, cid := 0, ie := false, dsx := false }
  epcr := 0
  eear := 0
  dmmu := Mmu.powerOn c 0x800 c.layout.dcr (unpackDpr c.layout.dpr) (dtrOfWord c.layout) (datrOfWord c.layout)
  immu := Mmu.powerOn c 0x1000 c.layout.icr (unpackIpr c.layout.ipr) (itrOfWord c.layout) (iatrOfWord c.layout)
  mem := []
  bus := []
  inbox := []
  draws := 0

/-- The machine right after reset, for the configuration of notes/assumptions/1.md. -/
def State.reset : State := State.resetWith Config.default

end Sys2Proof.Machine
end

