-- ==== Sys2Proof/Machine/Operands.lean ====
section
/-! DEFINITION. The operand forms: the parts of an effective and of a virtual address, the set and the tags an
address selects, the physical address of a page, and the special-purpose registers an address names. -/

namespace Sys2Proof.Machine

/-! ### Effective and virtual addresses -/

/-- The bits of an EA that are translated (R83): bits 63 to 46 of a 64-bit EA take no part (U12). -/
def pageEa (w : EaWidth) (ea : Ea) : PageEa :=
  match w with
  | .ea32 => (ea.setWidth 32).setWidth 46
  | .ea64 => ea.setWidth 46

/-- The context the MMU sees: 0 where CID_IMPL is false (R48). -/
def seenCid (c : Config) (cid : BitVec 4) : BitVec 4 := if c.cidImpl then cid else 0

/-- The 36-bit virtual address of a 32-bit EA (R83). -/
def virtualAddress32 (cid : BitVec 4) (ea : Ea) : BitVec 36 := cid ++ ea.extractLsb' 0 32

/-- The 50-bit virtual address of a 64-bit EA (R83). -/
def virtualAddress64 (cid : BitVec 4) (ea : Ea) : BitVec 50 := cid ++ ea.extractLsb' 0 46

/-- The page levels (R3, R94): 32 GByte, 16 MByte, 8 KByte. -/
inductive PageLevel where
  | l0
  | l1
  | l2
  deriving DecidableEq, Repr

/-- The L0 page index, EA[45:35], of a 64-bit EA (R85). -/
def l0Index (e : PageEa) : BitVec 11 := e.extractLsb' 35 11

/-- The L1 page index: EA[31:24] of a 32-bit EA (R84), EA[34:24] of a 64-bit EA (R85). -/
def l1Index (w : EaWidth) (e : PageEa) : BitVec 11 :=
  match w with
  | .ea32 => (e.extractLsb' 24 8).setWidth 11
  | .ea64 => e.extractLsb' 24 11

/-- The L2 page index, EA[23:13] (R84, R85). -/
def l2Index (e : PageEa) : BitVec 11 := e.extractLsb' 13 11

/-- The tables a search goes through, each with the index of its PTE: two levels for a 32-bit EA (R95,
R110), three for a 64-bit EA (R97, R111). -/
def searchPath (w : EaWidth) (e : PageEa) : List (PageLevel × Nat) :=
  match w with
  | .ea32 => [(.l1, (l1Index .ea32 e).toNat), (.l2, (l2Index e).toNat)]
  | .ea64 => [(.l0, (l0Index e).toNat), (.l1, (l1Index .ea64 e).toNat), (.l2, (l2Index e).toNat)]

/-! ### The set and the tags an address selects -/

/-- TLB_INDEX_x(EA) (R116): the default takes the low bits of EA[.. : 13], xTLB_SETS being a power of two. -/
def tlbIndex (mc : MmuConfig) (e : PageEa) : BitVec 7 :=
  match mc.tlbIndex with
  | .pageLow => BitVec.ofNat 7 ((e.toNat >>> 13) % mc.sets)
  | .other k => BitVec.ofNat 7 (Config.tlbIndexOther k e % mc.sets)

/-- The VPN that makes a TLB entry match the address (R113): `pl1` is PL1, `low` the bits of the field that
a level 1 match does not look at (R118). -/
def tlbTag (c : Config) (pl1 : Bool) (e : PageEa) (low : BitVec 11) : BitVec 19 :=
  match c.eaBits with
  | .ea32 => if pl1 then e.extractLsb' 24 8 ++ low else e.extractLsb' 13 19
  | .ea64 => Config.tlbTag64 c.match64 pl1 e

/-- The VPN clauses of the TLB match (R117, R118); for EA_BITS = 64 the parameter MATCH64 (D29). -/
def tlbTagMatches (c : Config) (pl1 : Bool) (vpn : BitVec 19) (e : PageEa) : Bool :=
  match c.eaBits with
  | .ea32 => if pl1 then vpn.extractLsb' 11 8 == e.extractLsb' 24 8 else vpn == e.extractLsb' 13 19
  | .ea64 => vpn == Config.tlbTag64 c.match64 pl1 e || Config.tlbMatch64 c.match64 pl1 vpn e

/-- ATB_VPN(EA, PS) (R120); for EA_BITS = 64 part of the parameter MATCH64 (D29). -/
def atbTag (c : Config) (ps : Bool) (e : PageEa) : BitVec 22 :=
  match c.eaBits with
  | .ea32 =>
    match c.atbVpn with
    | .level1Top => e.extractLsb' 24 8 ++ 0#14
    | .other k => Config.atbVpnOther k e
  | .ea64 => Config.atbTag64 c.match64 ps e

/-- The VPN clauses of the ATB match (R120): with EA_BITS = 32 an entry with PS = 1 never matches (D34). -/
def atbTagMatches (c : Config) (ps : Bool) (vpn : BitVec 22) (e : PageEa) : Bool :=
  match c.eaBits with
  | .ea32 => !ps && vpn == atbTag c false e
  | .ea64 => vpn == atbTag c ps e || Config.atbMatch64 c.match64 ps vpn e

/-! ### The physical address -/

/-- The low PA_BITS bits (R125). -/
def truncPa (c : Config) (pa : Pa) : Pa := pa &&& BitVec.ofNat 35 (2 ^ c.paBits - 1)

/-- The physical address of an EA in a page of a level, from the translate register's PPN (R123, R124): the
low bits of the PPN that the page offset covers are dropped. -/
def formPa (c : Config) (level : PageLevel) (ppn : BitVec 22) (e : PageEa) : Pa :=
  truncPa c <|
    match level with
    | .l2 => ppn ++ e.extractLsb' 0 13
    | .l1 => ppn.extractLsb' 11 11 ++ e.extractLsb' 0 24
    | .l0 => e.extractLsb' 0 35

/-- PTBASE(PTBP, CID), the physical address of the first table (R109). -/
def ptBase (c : Config) (ptbp : BitVec 22) (cid : BitVec 4) : Nat :=
  match c.ptBase with
  | .kilobytes => ptbp.toNat * 2 ^ 10
  | .frames => ptbp.toNat * 2 ^ 13
  | .other k => Config.ptBaseOther k ptbp cid * 4

/-! ### The special-purpose registers -/

/-- The registers of R21 and R22, and the two configuration registers of R47. -/
inductive Spr where
  /-- xMMUCR -/
  | mmucr (x : Side)
  /-- xMMUPR -/
  | mmupr (x : Side)
  /-- xTLBEIR -/
  | tlbeir (x : Side)
  /-- xATBMRi -/
  | atbmr (x : Side) (i : BitVec 2)
  /-- xATBTRi -/
  | atbtr (x : Side) (i : BitVec 2)
  /-- xTLBWyMRs -/
  | tlbmr (x : Side) (y : BitVec 2) (s : BitVec 7)
  /-- xTLBWyTRs -/
  | tlbtr (x : Side) (y : BitVec 2) (s : BitVec 7)
  /-- xMMUCFGR, read-only -/
  | mmucfgr (x : Side)
  deriving DecidableEq, Repr

/-- The register of number n in the group of a half (R21 to R23); `none` for the numbers of U9. -/
def sprOfNumber (x : Side) (n : BitVec 11) : Option Spr :=
  if n = 0 then some (.mmucr x)
  else if n = 1 then some (.mmupr x)
  else if n = 2 then some (.tlbeir x)
  else if 4 ≤ n.toNat ∧ n.toNat ≤ 7 then some (.atbmr x (n.extractLsb' 0 2))
  else if 8 ≤ n.toNat ∧ n.toNat ≤ 11 then some (.atbtr x (n.extractLsb' 0 2))
  else if 512 ≤ n.toNat ∧ n.toNat ≤ 1535 then
    if n.getLsbD 7 then some (.tlbtr x (BitVec.ofNat 2 ((n.toNat - 512) / 256)) (n.extractLsb' 0 7))
    else some (.tlbmr x (BitVec.ofNat 2 ((n.toNat - 512) / 256)) (n.extractLsb' 0 7))
  else none

/-- The register at an address: the group in bits 15:11, the number in bits 10:0 (R161). Group 0 numbers 3
and 4 are the configuration registers where CFGR_IMPL holds (R47, notes/assumptions/21.md). -/
def sprOf (c : Config) (addr : BitVec 16) : Option Spr :=
  let n := addr.extractLsb' 0 11
  if addr.extractLsb' 11 5 = 1 then sprOfNumber .d n
  else if addr.extractLsb' 11 5 = 2 then sprOfNumber .i n
  else if c.cfgrImpl ∧ addr = 3 then some (.mmucfgr .d)
  else if c.cfgrImpl ∧ addr = 4 then some (.mmucfgr .i)
  else none

/-- Whether the implementation has the register (R26). -/
def Spr.implemented (c : Config) : Spr → Bool
  | .mmucr x => (c.mmu x).crImpl
  | .mmupr x => (c.mmu x).prImpl
  | .tlbeir x => (c.mmu x).eirImpl
  | .atbmr x i => decide (i.toNat < (c.mmu x).atbEntries)
  | .atbtr x i => decide (i.toNat < (c.mmu x).atbEntries)
  | .tlbmr x y s => decide (y.toNat < (c.mmu x).ways) && decide (s.toNat < (c.mmu x).sets)
  | .tlbtr x y s => decide (y.toNat < (c.mmu x).ways) && decide (s.toNat < (c.mmu x).sets)
  | .mmucfgr _ => c.cfgrImpl

end Sys2Proof.Machine
end

