-- ==== Sys2Proof/Machine/Ops.lean ====
section
/-! DEFINITION. The operations that the meanings share: physical memory, general registers, the program counter,
free values, and taking and leaving an exception. -/

namespace Sys2Proof.Machine

/-! ### Physical memory -/

/-- What an address of physical memory that nothing has written reads as (notes/assumptions/6.md). -/
def unlistedByte : Byte := 0

/-- The byte at an address. -/
def Memory.read : Memory → Nat → Byte
  | [], _ => unlistedByte
  | (b, v) :: rest, a => if a = b then v else Memory.read rest a

/-- Memory with the byte at an address replaced; an entry that would hold `unlistedByte` is removed. -/
def Memory.write : Memory → Nat → Byte → Memory
  | [], a, v => if v = unlistedByte then [] else [(a, v)]
  | (b, w) :: rest, a, v =>
    if a < b then if v = unlistedByte then (b, w) :: rest else (a, v) :: (b, w) :: rest
    else if a = b then if v = unlistedByte then rest else (a, v) :: rest
    else (b, w) :: Memory.write rest a v

/-- The canonical form from an address up: addresses rise and no entry is `unlistedByte`. -/
def memoryWfFrom : Nat → Memory → Bool
  | _, [] => true
  | lo, (a, v) :: rest => decide (lo ≤ a) && v != unlistedByte && memoryWfFrom (a + 1) rest

/-- The canonical form of memory. -/
def Memory.wf (m : Memory) : Bool := memoryWfFrom 0 m

/-- A physical address inside the implementation's physical address space (R80, R125). DESIGN CHOICE: all of it is
plain memory (R154; notes/assumptions/39.md). -/
def physAddr (c : Config) (a : Nat) : Nat := a % 2 ^ c.paBits

/-- The n bytes from a physical address up. -/
def readBytes (c : Config) (m : Memory) (a : Nat) : Nat → List Byte
  | 0 => []
  | n + 1 => m.read (physAddr c a) :: readBytes c m (a + 1) n

/-- Memory with these bytes written from a physical address up. -/
def writeBytes (c : Config) (m : Memory) (a : Nat) : List Byte → Memory
  | [] => m
  | b :: bs => writeBytes c (m.write (physAddr c a) b) (a + 1) bs

/-- PhysRead32 (R8, R108) and the word of a fetch (R162): four bytes in the byte order of R93. -/
def physRead32 (c : Config) (m : Memory) (a : Nat) : Word :=
  wordOfBytes c.endian (m.read (physAddr c a)) (m.read (physAddr c (a + 1)))
    (m.read (physAddr c (a + 2))) (m.read (physAddr c (a + 3)))

/-- PhysWrite32 (R8, R108). -/
def physWrite32 (c : Config) (m : Memory) (a : Nat) (w : Word) : Memory :=
  writeBytes c m a (bytesOfWord c.endian w)

/-! ### Registers of the core -/

/-- x[i] (R8): EA_BITS wide. -/
def readGpr (s : State) (i : BitVec 5) : Ea := truncEa s.cfg.eaBits (fileGet s.gpr i)

/-- x[i] <- v (R8). Register 0 is a register like any other (R54). -/
def writeGpr (s : State) (i : BitVec 5) (v : Ea) : State :=
  { s with gpr := fileSet s.gpr i (truncEa s.cfg.eaBits v) }

/-- The instruction is done: the next one follows (R162), or, out of a delay slot, the jump's target is
next (R275). DESIGN CHOICE: after the last word of the effective address space comes address 0
(notes/assumptions/41.md). -/
def advance (s : State) : State :=
  { s with
    pc := truncEa s.cfg.eaBits (match s.delaySlot with | some d => d.target | none => s.pc + 4)
    delaySlot := none }

/-- The next free value (R8). -/
def drawn (s : State) : BitVec 64 := Config.freeBits s.draws

/-- A free value has been taken. -/
def countDraw (s : State) : State := { s with draws := s.draws + 1 }

/-! ### Exceptions -/

/-- The four MMU exceptions (R220). -/
inductive MmuException where
  | dataPageFault
  | insnPageFault
  | dtlbMiss
  | itlbMiss
  deriving DecidableEq, Repr

/-- The vector offsets (R220). -/
def MmuException.offset : MmuException → BitVec 12
  | .dataPageFault => 0x300
  | .insnPageFault => 0x400
  | .dtlbMiss => 0x900
  | .itlbMiss => 0xA00

/-- Taking an exception (R222, R223, R226, R227): EPCR takes the address of the failing instruction, or of
the jump whose delay slot it stands in, which DSX tells; ESR takes SR; EEAR takes the address that failed;
supervisor mode, both MMUs off, interrupts off; the handler starts at VECTOR_BASE + offset. -/
def takeException (offset : BitVec 12) (ea : Ea) (s : State) : State :=
  { s with
    epcr := truncEa s.cfg.eaBits (match s.delaySlot with | some d => d.jump | none => s.pc)
    esr := s.sr
    eear := truncEa s.cfg.eaBits ea
    sr := { s.sr with mode := .supervisor, dme := false, ime := false, ie := false, dsx := s.delaySlot.isSome }
    pc := truncEa s.cfg.eaBits (s.cfg.vectorBase ++ offset)
    delaySlot := none }

/-- `raise E(ea)` (R222). -/
def raiseMmu (e : MmuException) (ea : Ea) (s : State) : State := takeException e.offset ea s

/-- Returning from an exception (R227): SR from ESR, the program counter from EPCR. -/
def leaveException (s : State) : State :=
  { s with sr := s.esr, pc := truncEa s.cfg.eaBits s.epcr, delaySlot := none }

end Sys2Proof.Machine
end

