-- ==== Sys2Proof/Machine/Flags.lean ====
section
/-! DEFINITION. The status bits of an entry: the protection bits that an access is checked against (R126), and the
history bits A, D and the LRU field that it changes (R128 to R130, R40). The instructions write no flag (R54). -/

namespace Sys2Proof.Machine

/-- The protection check of a load or a store (R126). -/
def dPermits (store : Bool) (mode : Mode) (p : DProt) : Bool :=
  match store, mode with
  | false, .supervisor => p.sre
  | true, .supervisor => p.swe
  | false, .user => p.ure
  | true, .user => p.uwe

/-- The protection check of an instruction fetch (R126). -/
def iPermits (mode : Mode) (p : IProt) : Bool :=
  match mode with
  | .supervisor => p.sxe
  | .user => p.uxe

/-- The history bits after a permitted access: A is set, D is set by a store (R128, R129). -/
def TransReg.accessed {P : Type} (store : Bool) (t : TransReg P) : TransReg P :=
  { t with a := true, d := t.d || store }

/-- The history bits after a prohibited access: each that the access could have set keeps its value or
becomes 1, as the free bits say (R130). -/
def TransReg.denied {P : Type} (store : Bool) (free : BitVec 64) (t : TransReg P) : TransReg P :=
  { t with a := t.a || free.getLsbD 0, d := t.d || (store && free.getLsbD 1) }

/-- The translate register of an entry. -/
def Mmu.trOf {P : Type} (m : Mmu P) : EntryRef → TransReg P
  | .tlb y s => (m.entry y s).tr
  | .atb i => (fileGet m.atb i).tr

/-- The half with the translate register of an entry replaced. -/
def Mmu.setTr {P : Type} (m : Mmu P) (r : EntryRef) (t : TransReg P) : Mmu P :=
  match r with
  | .tlb y s => m.setEntry y s { m.entry y s with tr := t }
  | .atb i => m.setAtb i { fileGet m.atb i with tr := t }

/-- Where a reload found the PTE of an entry, if a reload wrote it. -/
def Mmu.originOf {P : Type} (m : Mmu P) : EntryRef → Option Pa
  | .tlb y s => (m.entry y s).origin
  | .atb i => (fileGet m.atb i).origin

/-- The hardware may set these history bits in the PTE in memory too, from now on, if a reload wrote the entry (R131);
what becomes of the entry afterwards makes no difference (U29; notes/assumptions/17.md). -/
def Mmu.owe {P : Type} (m : Mmu P) (r : EntryRef) (a d : Bool) : Mmu P :=
  match m.originOf r with
  | some pa => if a || d then { m with owed := m.owed ++ [{ pa := pa, a := a, d := d }] } else m
  | none => m

/-- The LRU fields of the implemented ways of a set take free values (R40, R140 step 5): two bits of the
free value for each way. -/
def Mmu.redrawLru {P : Type} (ways : Nat) (set : BitVec 7) (free : BitVec 64) (m : Mmu P) : Mmu P :=
  m.mapTlb fun y s e =>
    if s = set ∧ y.toNat < ways then { e with mr := { e.mr with lru := free.extractLsb' (2 * y.toNat) 2 } } else e

end Sys2Proof.Machine
end

