-- ==== Sys2Proof/Machine/Translate.lean ====
section
/-! DEFINITION. Translation: the match (R116 to R121), the hardware page-table search (R108 to R114), the entry it
installs (R113), and the two translation functions (R140, R141), written once for both halves. -/

namespace Sys2Proof.Machine

/-! ### The match -/

/-- What the match registers say of an address. -/
inductive Lookup where
  | miss
  | hit (r : EntryRef)
  | multiple
  deriving DecidableEq, Repr

/-- TLB match of one entry (R117). -/
def tlbMatches (c : Config) (m : TlbMatch) (cid : BitVec 4) (e : PageEa) : Bool :=
  m.v && m.cid == cid && tlbTagMatches c m.pl1 m.vpn e

/-- ATB match of one entry (R120). -/
def atbMatches (c : Config) (m : AtbMatch) (cid : BitVec 4) (e : PageEa) : Bool :=
  m.v && m.cid == cid && atbTagMatches c m.ps m.vpn e

/-- The ways, and the ATB entries, that an implementation may have (R21). -/
def fourIndices : List (BitVec 2) := [0, 1, 2, 3]

/-- The implemented ways whose entry in the address's set matches (R116, R117). -/
def tlbHits {P : Type} (c : Config) (mc : MmuConfig) (m : Mmu P) (cid : BitVec 4) (e : PageEa) : List (BitVec 2) :=
  fourIndices.filter fun y =>
    decide (y.toNat < mc.ways) && tlbMatches c (m.entry y (tlbIndex mc e)).mr cid e

/-- The implemented ATB entries that match (R120). -/
def atbHits {P : Type} (c : Config) (mc : MmuConfig) (m : Mmu P) (cid : BitVec 4) (e : PageEa) : List (BitVec 2) :=
  fourIndices.filter fun i =>
    decide (i.toNat < mc.atbEntries) && atbMatches c (fileGet m.atb i).mr cid e

/-- Steps 1 and 2 of R140: the TLB, and the ATB only when no TLB entry matches (R121); two matching
entries have no meaning (R119). -/
def lookup {P : Type} (c : Config) (mc : MmuConfig) (m : Mmu P) (cid : BitVec 4) (e : PageEa) : Lookup :=
  match tlbHits c mc m cid e with
  | [y] => .hit (.tlb y (tlbIndex mc e))
  | _ :: _ :: _ => .multiple
  | [] =>
    match atbHits c mc m cid e with
    | [i] => .hit (.atb i)
    | _ :: _ :: _ => .multiple
    | [] => .miss

/-- The page level of an entry (R123). -/
def Mmu.levelOf {P : Type} (m : Mmu P) : EntryRef → PageLevel
  | .tlb y s => if (m.entry y s).mr.pl1 then .l1 else .l2
  | .atb i => if (fileGet m.atb i).mr.ps then .l0 else .l1

/-! ### The hardware page-table search -/

/-- What a search answers (R110, R111): the PTE, its level and its physical address; or nothing; or no
meaning. -/
inductive Search where
  | noPte
  | found (pte : Pte) (level : PageLevel) (pa : Nat)
  | stop (r : Refusal)
  deriving DecidableEq, Repr

/-- The search through the tables that are left, the next one at `base` (R110, R111): PTE i is the word at
base + 4 * i (R99), PPI = 0 ends the search at every level (R90), L = 1 is the page (R91), L = 0 points to the
table at PPN * 2^13 (R92). DESIGN CHOICE: no other agent writes between the PTE reads (notes/assumptions/37.md). -/
def walk (c : Config) (mem : Memory) : Nat → List (PageLevel × Nat) → Search
  | _, [] => .stop .malformedTable
  | base, (level, ix) :: rest =>
    let pa := base + 4 * ix
    if 2 ^ c.paBits < pa + 4 then .stop .tableAddress
    else
      let pte := unpackPte c.layout.pte (physRead32 c mem pa)
      if pte.ppi = 0 then .noPte
      else if pte.l then .found pte level pa
      else walk c mem (pte.ppn.toNat * 2 ^ 13) rest

/-- Search(x, EA, cid) (R109 to R111), with xMMUCR.PTBP. -/
def search (c : Config) (mem : Memory) (ptbp : BitVec 22) (cid : BitVec 4) (e : PageEa) : Search :=
  walk c mem (ptBase c ptbp cid) (searchPath c.eaBits e)

/-! ### Installing what the search found -/

/-- The translate register of a PTE (R113): its protection bits are the group of xMMUPR that PPI selects. -/
def trOfPte {P : Type} (ppnWidth : Nat) (pr : Vector P 7) (pte : Pte) : TransReg P where
  attrs := pte.attrs
  a := pte.a
  d := pte.d
  prot := groupGet pr pte.ppi
  ppn := cutPpn ppnWidth pte.ppn

/-- The index that is replaced: a free one among the n there are (R113, D17). -/
def victim (n : Nat) (free : BitVec 8) : BitVec 2 := BitVec.ofNat 2 (free.toNat % n)

/-- The TLB entry a reload writes (R113). -/
def installTlb {P : Type} (c : Config) (mc : MmuConfig) (ppnWidth : Nat) (m : Mmu P) (cid : BitVec 4) (e : PageEa)
    (pte : Pte) (pl1 : Bool) (pa : Nat) (free : BitVec 64) : Mmu P × EntryRef :=
  let s := tlbIndex mc e
  let y := victim mc.ways (free.extractLsb' 8 8)
  let entry : TlbEntry P :=
    { mr :=
        { v := true, pl1 := pl1, cid := cid, lru := (m.entry y s).mr.lru
          vpn := tlbTag c pl1 e (free.extractLsb' 16 11) }
      tr := trOfPte ppnWidth m.pr pte
      origin := some (BitVec.ofNat 35 pa) }
  (m.setEntry y s entry, .tlb y s)

/-- The ATB entry a reload writes (R113). -/
def installAtb {P : Type} (c : Config) (mc : MmuConfig) (ppnWidth : Nat) (m : Mmu P) (cid : BitVec 4) (e : PageEa)
    (pte : Pte) (ps : Bool) (pa : Nat) (free : BitVec 64) : Mmu P × EntryRef :=
  let i := victim mc.atbEntries (free.extractLsb' 8 8)
  let entry : AtbEntry P :=
    { mr := { v := true, cid := cid, ps := ps, vpn := atbTag c ps e }
      tr := trOfPte ppnWidth m.pr pte
      origin := some (BitVec.ofNat 35 pa) }
  (m.setAtb i entry, .atb i)

/-- Widths of the PPN fields of a half's TLB and ATB translate registers (R125). -/
def ppnWidths (l : Layout) : Side → Nat × Nat
  | .d => (l.dtr.ppnWidth, l.datr.ppnWidth)
  | .i => (l.itr.ppnWidth, l.iatr.ppnWidth)

/-- Installing a found PTE (R113, D31): a level 2 page in the TLB; a level 1 page in the TLB or the ATB, a
free choice between those the implementation has; a level 0 page in the ATB; `none` where there is no place. -/
def install {P : Type} (c : Config) (x : Side) (m : Mmu P) (cid : BitVec 4) (e : PageEa) (pte : Pte)
    (level : PageLevel) (pa : Nat) (free : BitVec 64) : Option (Mmu P × EntryRef) :=
  let mc := c.mmu x
  let w := ppnWidths c.layout x
  match level with
  | .l2 => if mc.ways = 0 then none else some (installTlb c mc w.1 m cid e pte false pa free)
  | .l1 =>
    if mc.ways = 0 then
      if mc.atbEntries = 0 then none else some (installAtb c mc w.2 m cid e pte false pa free)
    else if mc.atbEntries = 0 then some (installTlb c mc w.1 m cid e pte true pa free)
    else if free.getLsbD 0 then some (installAtb c mc w.2 m cid e pte false pa free)
    else some (installTlb c mc w.1 m cid e pte true pa free)
  | .l0 => if mc.atbEntries = 0 then none else some (installAtb c mc w.2 m cid e pte true pa free)

/-! ### The translation functions -/

/-- Why a translation failed (R221). -/
inductive Failure where
  | tlbMiss
  | pageFault
  deriving DecidableEq, Repr

/-- What a translation does to its half of the MMU, with how many free values it has taken in all. -/
inductive Xlat (P : Type) where
  | done (m : Mmu P) (draws : Nat) (pa : Pa) (attrs : Attrs)
  | raise (m : Mmu P) (draws : Nat) (f : Failure)
  | stop (r : Refusal)
  deriving DecidableEq, Repr

/-- Steps 4 to 6 of R140 on the entry that matches: the protection check (R126), the history bits (R128 to
R131), the LRU fields of the set (R40), the physical address and the attributes (R124, R133). -/
def useEntry {P : Type} (c : Config) (x : Side) (store : Bool) (ok : P → Bool) (m : Mmu P) (draws : Nat)
    (e : PageEa) (r : EntryRef) : Xlat P :=
  let t := m.trOf r
  let free := Config.freeBits draws
  if ok t.prot then
    .done
      (((m.owe r true store).setTr r (t.accessed store)).redrawLru (c.mmu x).ways (tlbIndex (c.mmu x) e) free)
      (draws + 1) (formPa c (m.levelOf r) t.ppn e) t.attrs
  else
    .raise ((m.owe r (free.getLsbD 0) (store && free.getLsbD 1)).setTr r (t.denied store free)) (draws + 1) .pageFault

/-- R140 and R141 for an MMU that is on: `ok` is the protection check of the access. After a reload (R113)
the entry just installed is the one that matches. DESIGN CHOICE: no other agent writes between the search and the
install (notes/assumptions/37.md). -/
def translate {P : Type} (c : Config) (x : Side) (store : Bool) (ok : P → Bool) (mem : Memory) (cid : BitVec 4)
    (ea : Ea) (m : Mmu P) (draws : Nat) : Xlat P :=
  let e := pageEa c.eaBits ea
  match lookup c (c.mmu x) m cid e with
  | .multiple => .stop .multipleMatch
  | .hit r => useEntry c x store ok m draws e r
  | .miss =>
    if (c.mmu x).hwReload then
      match search c mem m.ptbp cid e with
      | .noPte => .raise m draws .pageFault
      | .stop r => .stop r
      | .found pte level pa =>
        match install c x m cid e pte level pa (Config.freeBits draws) with
        | none => .stop .noPlaceForPage
        | some (m', r) => useEntry c x store ok m' (draws + 1) e r
    else .raise m draws .tlbMiss

/-- What an access comes to: done, with the state after it; ended by an exception, which the state has
taken; or without a meaning. -/
inductive Access (α : Type) where
  | ok (a : α) (s : State)
  | trap (s : State)
  | stop (r : Refusal)
  deriving DecidableEq, Repr

/-- An access through an MMU that is off (R142): the physical address is the effective address, nothing is
raised, no MMU register is read or written, the attributes are free. -/
def untranslated (ea : Ea) (s : State) : Access (Pa × Attrs) :=
  let free := drawn s
  .ok
    (truncPa s.cfg ((truncEa s.cfg.eaBits ea).setWidth 35),
      ⟨free.getLsbD 0, free.getLsbD 1, free.getLsbD 2, free.getLsbD 3⟩)
    (countDraw s)

/-- The exception of a failed data access (R221). -/
def Failure.data : Failure → MmuException
  | .tlbMiss => .dtlbMiss
  | .pageFault => .dataPageFault

/-- The exception of a failed instruction fetch (R221). -/
def Failure.insn : Failure → MmuException
  | .tlbMiss => .itlbMiss
  | .pageFault => .insnPageFault

/-- DTranslate (R140), and R142 where the data MMU is off. -/
def dTranslate (store : Bool) (ea : Ea) (s : State) : Access (Pa × Attrs) :=
  if s.sr.dme then
    match translate s.cfg .d store (dPermits store s.sr.mode) s.mem (seenCid s.cfg s.sr.cid) ea s.dmmu s.draws with
    | .done m k pa at' => .ok (pa, at') { s with dmmu := m, draws := k }
    | .raise m k f => .trap (raiseMmu f.data ea { s with dmmu := m, draws := k })
    | .stop r => .stop r
  else untranslated ea s

/-- ITranslate (R141), and R142 where the instruction MMU is off. -/
def iTranslate (ea : Ea) (s : State) : Access (Pa × Attrs) :=
  if s.sr.ime then
    match translate s.cfg .i false (iPermits s.sr.mode) s.mem (seenCid s.cfg s.sr.cid) ea s.immu s.draws with
    | .done m k pa at' => .ok (pa, at') { s with immu := m, draws := k }
    | .raise m k f => .trap (raiseMmu f.insn ea { s with immu := m, draws := k })
    | .stop r => .stop r
  else untranslated ea s

end Sys2Proof.Machine
end

