-- ==== Sys2Proof/Machine/SprOps.lean ====
section
/-! DEFINITION. What a read and a write of each special-purpose register do (R190 to R200). -/

namespace Sys2Proof.Machine

/-! ### Reads -/

/-- A configuration register's word and named bits (R47, G4): NTW is the number of ways minus one, open
where there is no way; NTS the base-2 logarithm of the number of sets, open where that is no power of two. -/
def cfgrView (m : MmuConfig) : Word × Word :=
  let nts := [1, 2, 4, 8, 16, 32, 64, 128].findIdx? (· == m.sets)
  let word : Word :=
    putField 0 (BitVec.ofNat 2 (m.ways - 1)) ||| putField 2 (BitVec.ofNat 3 (nts.getD 0)) |||
      putField 5 (BitVec.ofNat 3 m.atbEntries) ||| putBit 8 m.crImpl ||| putBit 9 m.prImpl |||
      putBit 10 m.eirImpl ||| putBit 11 m.hwReload
  let ntw : BitVec 2 := if m.ways = 0 then 0 else .allOnes 2
  let ntsMask : BitVec 3 := if nts.isSome then .allOnes 3 else 0
  (word, putField 0 ntw ||| putField 2 ntsMask ||| putField 5 (BitVec.allOnes 7))

/-- The word of an implemented register and the bits of it that are named fields the implementation has
(R190, D22, D23). xTLBEIR holds nothing (R35). -/
def sprView (s : State) : Spr → Word × Word
  | .mmucr .d =>
    (packCr s.cfg.layout.dcr s.dmmu.tf s.dmmu.ptbp,
      packCr s.cfg.layout.dcr s.cfg.d.tfImpl (if s.cfg.d.ptbpImpl then .allOnes 22 else 0))
  | .mmucr .i =>
    (packCr s.cfg.layout.icr s.immu.tf s.immu.ptbp,
      packCr s.cfg.layout.icr s.cfg.i.tfImpl (if s.cfg.i.ptbpImpl then .allOnes 22 else 0))
  | .mmupr .d => (packDpr s.cfg.layout.dpr s.dmmu.pr, maskDpr s.cfg.layout.dpr)
  | .mmupr .i => (packIpr s.cfg.layout.ipr s.immu.pr, maskIpr s.cfg.layout.ipr)
  | .tlbeir _ => (0, 0)
  | .atbmr .d i => (packAmr s.cfg.layout.amr (fileGet s.dmmu.atb i).mr, maskAmr s.cfg.layout.amr)
  | .atbmr .i i => (packAmr s.cfg.layout.amr (fileGet s.immu.atb i).mr, maskAmr s.cfg.layout.amr)
  | .atbtr .d i =>
    let t := (fileGet s.dmmu.atb i).tr
    (packTr s.cfg.layout.datr (packDProt s.cfg.layout.datrProt t.prot) t,
      maskTr s.cfg.layout.datr (maskDProt s.cfg.layout.datrProt))
  | .atbtr .i i =>
    let t := (fileGet s.immu.atb i).tr
    (packTr s.cfg.layout.iatr (packIProt s.cfg.layout.iatrProt t.prot) t,
      maskTr s.cfg.layout.iatr (maskIProt s.cfg.layout.iatrProt))
  | .tlbmr .d y k => (packMr s.cfg.layout.mr (s.dmmu.entry y k).mr, maskMr s.cfg.layout.mr)
  | .tlbmr .i y k => (packMr s.cfg.layout.mr (s.immu.entry y k).mr, maskMr s.cfg.layout.mr)
  | .tlbtr .d y k =>
    let t := (s.dmmu.entry y k).tr
    (packTr s.cfg.layout.dtr (packDProt s.cfg.layout.dtrProt t.prot) t,
      maskTr s.cfg.layout.dtr (maskDProt s.cfg.layout.dtrProt))
  | .tlbtr .i y k =>
    let t := (s.immu.entry y k).tr
    (packTr s.cfg.layout.itr (packIProt s.cfg.layout.itrProt t.prot) t,
      maskTr s.cfg.layout.itr (maskIProt s.cfg.layout.itrProt))
  | .mmucfgr x => cfgrView (s.cfg.mmu x)

/-- A word whose bits outside a mask are free (R190). -/
def openWord (word mask : Word) (free : BitVec 64) : Word :=
  (word &&& mask) ||| (free.setWidth 32 &&& ~~~mask)

/-- SprRead (R190, R198): the register with every bit that is no named field free; every bit free where the
implementation lacks the register (D22); the write-only xTLBEIR free over its whole width (D21). A 32-bit
register is zero-extended (R184). -/
def sprRead (r : Spr) (s : State) : Ea :=
  match r with
  | .tlbeir _ => truncEa s.cfg.eaBits (drawn s)
  | r =>
    let view := if r.implemented s.cfg then sprView s r else (0, 0)
    (openWord view.1 view.2 (drawn s)).setWidth 64

/-! ### Writes -/

/-- The half with TLB match register (y, k) replaced (R195); the entry is no longer a reloaded one. -/
def Mmu.writeTlbMr {P : Type} (m : Mmu P) (y : BitVec 2) (k : BitVec 7) (v : TlbMatch) : Mmu P :=
  m.setEntry y k { m.entry y k with mr := v, origin := none }

/-- The half with TLB translate register (y, k) replaced (R195). -/
def Mmu.writeTlbTr {P : Type} (m : Mmu P) (y : BitVec 2) (k : BitVec 7) (v : TransReg P) : Mmu P :=
  m.setEntry y k { m.entry y k with tr := v }

/-- The half with ATB match register i replaced (R196); the entry is no longer a reloaded one. -/
def Mmu.writeAtbMr {P : Type} (m : Mmu P) (i : BitVec 2) (v : AtbMatch) : Mmu P :=
  m.setAtb i { fileGet m.atb i with mr := v, origin := none }

/-- The half with ATB translate register i replaced (R196). -/
def Mmu.writeAtbTr {P : Type} (m : Mmu P) (i : BitVec 2) (v : TransReg P) : Mmu P :=
  m.setAtb i { fileGet m.atb i with tr := v }

/-- The flush (R199): every implemented TLB entry becomes invalid, in one step. -/
def Mmu.flush {P : Type} (mc : MmuConfig) (m : Mmu P) : Mmu P :=
  m.mapTlb fun y k e =>
    if y.toNat < mc.ways ∧ k.toNat < mc.sets then { e with mr := { e.mr with v := false } } else e

/-- A write of xMMUCR (R191): PTBP where it exists; then, where xTF exists and is written 1, the flush, after
which xTF is 0. -/
def Mmu.writeCr {P : Type} (mc : MmuConfig) (p : CrPos) (w : Word) (m : Mmu P) : Mmu P :=
  let m1 := if mc.ptbpImpl then { m with ptbp := getField 22 w p.ptbp } else m
  if mc.tfImpl && getBit w p.tf then { m1.flush mc with tf := false } else m1

/-- A write of xTLBEIR (R197): in the set of the address every valid way whose VPN matches becomes invalid,
whatever its context; every other valid way of the set keeps V or loses it, as the free bits say. -/
def Mmu.invalidate {P : Type} (c : Config) (mc : MmuConfig) (e : PageEa) (free : BitVec 64) (m : Mmu P) : Mmu P :=
  m.mapTlb fun y k t =>
    if k = tlbIndex mc e ∧ y.toNat < mc.ways ∧ t.mr.v = true then
      { t with mr := { t.mr with v := !tlbTagMatches c t.mr.pl1 t.mr.vpn e && free.getLsbD y.toNat } }
    else t

/-- SprWrite of an implemented register (R191 to R197): a 32-bit register takes the low 32 bits of the
value (R184), xTLBEIR the whole of it. -/
def sprStore (r : Spr) (v : Ea) (s : State) : State :=
  let w : Word := v.setWidth 32
  let l := s.cfg.layout
  match r with
  | .mmucr .d => { s with dmmu := s.dmmu.writeCr s.cfg.d l.dcr w }
  | .mmucr .i => { s with immu := s.immu.writeCr s.cfg.i l.icr w }
  | .mmupr .d => { s with dmmu := { s.dmmu with pr := unpackDpr l.dpr w } }
  | .mmupr .i => { s with immu := { s.immu with pr := unpackIpr l.ipr w } }
  | .tlbeir .d => { countDraw s with dmmu := s.dmmu.invalidate s.cfg s.cfg.d (pageEa s.cfg.eaBits v) (drawn s) }
  | .tlbeir .i => { countDraw s with immu := s.immu.invalidate s.cfg s.cfg.i (pageEa s.cfg.eaBits v) (drawn s) }
  | .atbmr .d i => { s with dmmu := s.dmmu.writeAtbMr i (amrOfWord s.cfg w) }
  | .atbmr .i i => { s with immu := s.immu.writeAtbMr i (amrOfWord s.cfg w) }
  | .atbtr .d i => { s with dmmu := s.dmmu.writeAtbTr i (datrOfWord l w) }
  | .atbtr .i i => { s with immu := s.immu.writeAtbTr i (iatrOfWord l w) }
  | .tlbmr .d y k => { s with dmmu := s.dmmu.writeTlbMr y k (mrOfWord s.cfg w) }
  | .tlbmr .i y k => { s with immu := s.immu.writeTlbMr y k (mrOfWord s.cfg w) }
  | .tlbtr .d y k => { s with dmmu := s.dmmu.writeTlbTr y k (dtrOfWord l w) }
  | .tlbtr .i y k => { s with immu := s.immu.writeTlbTr y k (itrOfWord l w) }
  | .mmucfgr _ => s

/-- SprWrite (R191 to R199): ignored where the implementation lacks the register (D22). -/
def sprWrite (r : Spr) (v : Ea) (s : State) : State :=
  if r.implemented s.cfg then sprStore r v s else s

end Sys2Proof.Machine
end

