-- ==== Sys2Proof/Machine/RegAccess.lean ====
section
/-! DEFINITION. The meanings of the two register-access instructions (R180 to R184). -/

namespace Sys2Proof.Machine

/-- The register address of both instructions: the low 16 bits of x[A] OR the zero-extended K (R165). -/
def sprAddress (s : State) (a : BitVec 5) (k : BitVec 16) : BitVec 16 :=
  (readGpr s a ||| k.setWidth 64).setWidth 16

/-- A user-mode access to an MMU register (R183, D20): no register of the MMU changes and none is read. What
the exception records in EEAR is not in the spec: a free value. -/
def userSprAccess (s : State) : Host.Outcome State Fault Refusal :=
  match s.cfg.userSprAccess with
  | .refuse => .refused .userSprAccess
  | .raise v => .next (takeException v (drawn s) (countDraw s))

/-- `l.mfspr rD,rA,K` (R181): the address is computed before the destination is written; a read changes no
MMU register. DESIGN CHOICE: in user mode a configuration register is treated like an MMU register
(notes/assumptions/21.md). -/
def execMfspr (d a : BitVec 5) (k : BitVec 16) (s : State) : Host.Outcome State Fault Refusal :=
  match sprOf s.cfg (sprAddress s a k) with
  | none => .refused .sprOutsideSpec
  | some r =>
    match s.sr.mode with
    | .user => userSprAccess s
    | .supervisor => .next (advance (writeGpr (countDraw s) d (sprRead r s)))

/-- `l.mtspr rA,rB,K` (R182). A configuration register is a read-only description (R47): a write of it is
outside the spec. -/
def execMtspr (a b : BitVec 5) (k : BitVec 16) (s : State) : Host.Outcome State Fault Refusal :=
  match sprOf s.cfg (sprAddress s a k) with
  | none => .refused .sprOutsideSpec
  | some (.mmucfgr _) => .refused .sprOutsideSpec
  | some r =>
    match s.sr.mode with
    | .user => userSprAccess s
    | .supervisor => .next (advance (sprWrite r (readGpr s b) s))

end Sys2Proof.Machine
end

