-- ==== Sys2Proof/Machine/Dispatch.lean ====
section
/-! DEFINITION. The dispatch from an instruction to its meaning. -/

namespace Sys2Proof.Machine

def exec (i : Instr) (s : State) : Host.Outcome State Fault Refusal :=
  match i with
  | .mfspr d a k => Sys2Proof.Machine.execMfspr d a k s
  | .mtspr a b k => Sys2Proof.Machine.execMtspr a b k s

end Sys2Proof.Machine
end

