-- ==== Sys2Proof/Machine/Fetch.lean ====
section
/-! DEFINITION. The instruction fetch (agent (a) of R11), and the place in memory that the next one reads. -/

namespace Sys2Proof.Machine

/-- The fetch of the instruction at the program counter: through ITranslate (R81, R141), the four bytes of a
word at an address that is a multiple of 4 (R162). The access goes out with its attributes (R133). DESIGN CHOICE: it reads
the memory that stores write, so a store is seen at once (notes/assumptions/38.md). -/
def fetchInsn (s : State) : Access (List Byte) :=
  let ea := truncEa s.cfg.eaBits s.pc
  if ea.extractLsb' 0 2 = 0 then
    match iTranslate ea s with
    | .ok (pa, at') t =>
      let bytes := readBytes t.cfg t.mem pa.toNat 4
      .ok bytes { t with bus := [{ kind := .fetch, ea := ea, pa := pa, attrs := at', data := bytes }] }
    | .trap t => .trap t
    | .stop r => .stop r
  else .stop .misalignedFetch

/-- The physical address the next fetch reads; the address itself where the fetch would fail. -/
def fetchPa (s : State) : Nat :=
  match iTranslate (truncEa s.cfg.eaBits s.pc) s with
  | .ok (pa, _) _ => pa.toNat
  | _ => (truncPa s.cfg ((truncEa s.cfg.eaBits s.pc).setWidth 35)).toNat

/-- The state with the table word w of nbits bits (the bits above are 0) stored where the next step fetches,
and nothing before it in the inbox. -/
def placeWord (s : State) (nbits w : Nat) : State :=
  { s with
    mem := physWrite32 s.cfg s.mem (fetchPa s) (BitVec.ofNat 32 (w % 2 ^ nbits))
    inbox := [] }

end Sys2Proof.Machine
end

