-- ==== Sys2Proof/Machine/Inputs.lean ====
section
/-! DEFINITION. What the other agents do (R11): the core's loads and stores, the reload and the history agent, other
processors, and the core's changes of what the MMU reads. -/

namespace Sys2Proof.Machine

/-- The bytes of an access lie in one 8 KByte page (R144). -/
def inOnePage (ea : Ea) (n : Nat) : Bool := decide ((ea.extractLsb' 0 13).toNat + n ≤ 2 ^ 13)

/-- The parts of an access that crosses pages, each in one 8 KByte page (R144): at most one more than `fuel`. -/
def pageParts : Nat → Ea → Nat → List (Ea × Nat)
  | 0, ea, n => [(ea, n)]
  | fuel + 1, ea, n =>
    if inOnePage ea n then [(ea, n)]
    else
      let first := 2 ^ 13 - (ea.extractLsb' 0 13).toNat
      (ea, first) :: pageParts fuel (ea + BitVec.ofNat 64 first) (n - first)

/-- The addresses of a data access that are translated: its own (R140), and, where it crosses a page, by a free
choice also that of each further page (DESIGN CHOICE, notes/assumptions/12.md). -/
def accessParts (ea : Ea) (n : Nat) (free : BitVec 64) : List (Ea × Nat) :=
  if free.getLsbD 0 then [(ea, n)] else pageParts n ea n

/-- The translations of the parts of an access, the lowest first; the first that raises ends the access (R222). -/
def translateParts (store : Bool) : List (Ea × Nat) → State → Access (List Part)
  | [], s => .ok [] s
  | (ea, n) :: rest, s =>
    match dTranslate store ea s with
    | .stop r => .stop r
    | .trap t => .trap t
    | .ok (pa, at') t =>
      match translateParts store rest t with
      | .stop r => .stop r
      | .trap u => .trap u
      | .ok parts u => .ok ({ ea := truncEa s.cfg.eaBits ea, pa := pa, attrs := at', size := n } :: parts) u

/-- The translation of a data access of n bytes at ea (R140, R144). -/
def translateAccess (store : Bool) (ea : Ea) (n : Nat) (s : State) : Access (List Part) :=
  if inOnePage ea n then translateParts store [(ea, n)] s
  else translateParts store (accessParts ea n (drawn s)) (countDraw s)

/-- The data access of the instruction at the program counter, an instruction outside the opcode table: its
fetch comes first (R230), then the translation; `act` is what the access does once it is translated whole. -/
def dataAccess (store : Bool) (ea : Ea) (n : Nat) (act : List Part → State → State) (s : State) :
    Host.Outcome State Fault Refusal :=
  match fetchInsn s with
  | .stop r => .refused r
  | .trap t => .next t
  | .ok _ t =>
    match translateAccess store ea n t with
    | .stop r => .refused r
    | .trap u => .next u
    | .ok parts u => .next (advance (act parts u))

/-- The parts of a load as they go out. -/
def loadBus (c : Config) (mem : Memory) (parts : List Part) : List BusAccess :=
  parts.map fun p =>
    { kind := .load, ea := p.ea, pa := p.pa, attrs := p.attrs, data := readBytes c mem p.pa.toNat p.size }

/-- The parts of a store, each with its bytes. -/
def splitBytes : List Part → List Byte → List (Part × List Byte)
  | [], _ => []
  | p :: rest, bytes => (p, bytes.take p.size) :: splitBytes rest (bytes.drop p.size)

/-- The parts of a store as they go out. -/
def storeBus (parts : List (Part × List Byte)) : List BusAccess :=
  parts.map fun q => { kind := .store, ea := q.1.ea, pa := q.1.pa, attrs := q.1.attrs, data := q.2 }

/-- Memory after the parts of a store, the first first. DESIGN CHOICE: a store of any width, across pages too, is one
step, so nothing sees it half done (notes/assumptions/40.md). -/
def storeMem (c : Config) : Memory → List (Part × List Byte) → Memory
  | mem, [] => mem
  | mem, q :: rest => storeMem c (writeBytes c mem q.1.pa.toNat q.2) rest

/-- What a load does: its bytes go out on the bus record, its register takes the value, memory is unchanged. -/
def loadAct (dest : Option (BitVec 5 × Ea)) (parts : List Part) (s : State) : State :=
  let t := { s with bus := loadBus s.cfg s.mem parts }
  match dest with
  | some (r, v) => writeGpr t r v
  | none => t

/-- What a store does. -/
def storeAct (bytes : List Byte) (parts : List Part) (s : State) : State :=
  let split := splitBytes parts bytes
  { s with mem := storeMem s.cfg s.mem split, bus := storeBus split }

/-- A load. -/
def inputLoad (ea : Ea) (n : Nat) (dest : Option (BitVec 5 × Ea)) (s : State) : Host.Outcome State Fault Refusal :=
  dataAccess false ea n (loadAct dest) s

/-- A store. -/
def inputStore (ea : Ea) (bytes : List Byte) (s : State) : Host.Outcome State Fault Refusal :=
  dataAccess true ea bytes.length (storeAct bytes) s

/-- What the core does to its registers (R48 to R50, R54, R227). -/
def coreAct (act : CoreAct) (s : State) : State :=
  match act with
  | .proceed => s
  | .setGpr r v => writeGpr s r v
  | .setSr sr => { s with sr := sr }
  | .jump pc slot => { s with pc := truncEa s.cfg.eaBits pc, delaySlot := slot }
  | .returnFromException => leaveException s

/-- Whether the next instruction follows the one that did this (R162). -/
def CoreAct.sequential : CoreAct → Bool
  | .proceed | .setGpr _ _ | .setSr _ => true
  | .jump _ _ | .returnFromException => false

/-- An instruction outside the opcode table that makes no data access: it is fetched through ITranslate (R81,
R141), its word is not examined (notes/assumptions/12.md), and it does what the input says. -/
def inputInsn (act : CoreAct) (s : State) : Host.Outcome State Fault Refusal :=
  match fetchInsn s with
  | .stop r => .refused r
  | .trap t => .next t
  | .ok _ t => .next (coreAct act (if act.sequential then advance t else t))

/-- One half after the reload agent has run for an address (R114): `none` where the search has no meaning. No
PTE, no change (R112). DESIGN CHOICE: search and install are one step (notes/assumptions/37.md). -/
def reloadHalf {P : Type} (c : Config) (x : Side) (mem : Memory) (cid : BitVec 4) (ea : Ea) (draws : Nat)
    (m : Mmu P) : Except Refusal (Mmu P) :=
  let e := pageEa c.eaBits ea
  match search c mem m.ptbp cid e with
  | .noPte => .ok m
  | .stop r => .error r
  | .found pte level pa =>
    match install c x m cid e pte level pa (Config.freeBits draws) with
    | none => .error .noPlaceForPage
    | some (m', _) => .ok m'

/-- The reload agent (R114): nothing where the half does not reload in hardware (R102). -/
def inputReload (x : Side) (ea : Ea) (s : State) : Host.Outcome State Fault Refusal :=
  if (s.cfg.mmu x).hwReload then
    match x with
    | .d =>
      match reloadHalf s.cfg .d s.mem (seenCid s.cfg s.sr.cid) ea s.draws s.dmmu with
      | .error r => .refused r
      | .ok m => .next { countDraw s with dmmu := m }
    | .i =>
      match reloadHalf s.cfg .i s.mem (seenCid s.cfg s.sr.cid) ea s.draws s.immu with
      | .error r => .refused r
      | .ok m => .next { countDraw s with immu := m }
  else .next s

/-- A PTE word that a search could have installed: valid (R90) and with L = 1 (R91). History bits are set in no
other (R131, U20). -/
def isPagePte (p : PtePos) (w : Word) : Bool := (unpackPte p w).ppi != 0 && (unpackPte p w).l

/-- The first half of a history update (R131): the PTE of the k-th update that may still be made is read, to set A, D or
both, where the word read is still the PTE of a page; the update is then no longer owed. -/
def Mmu.readHist {P : Type} (c : Config) (mem : Memory) (k : Nat) (a d : Bool) (m : Mmu P) : Mmu P :=
  match m.owed[k]? with
  | some o =>
    let w := physRead32 c mem o.pa.toNat
    if (o.a && a || o.d && d) && isPagePte c.layout.pte w then
      { m with
        owed := m.owed.set k { o with a := o.a && !a, d := o.d && !d }
        hist := m.hist ++ [{ pa := o.pa, word := w, a := o.a && a, d := o.d && d }] }
    else m
  | none => m

/-- The history agent reads (R131); with software reload it does not exist. -/
def inputHistoryRead (x : Side) (k : Nat) (a d : Bool) (s : State) : State :=
  if (s.cfg.mmu x).hwReload then
    match x with
    | .d => { s with dmmu := s.dmmu.readHist s.cfg s.mem k a d }
    | .i => { s with immu := s.immu.readHist s.cfg s.mem k a d }
  else s

/-- A PTE word with history bits set (R131). -/
def withHistory (p : PtePos) (h : HistLatch) : Word := h.word ||| putBit p.a h.a ||| putBit p.d h.d

/-- Memory after a history update is written (R131). -/
def histMem (c : Config) (mem : Memory) : Option HistLatch → Memory
  | some h => physWrite32 c mem h.pa.toNat (withHistory c.layout.pte h)
  | none => mem

/-- The history agent writes the k-th update in progress (R131): not atomic with the read; with software reload the hardware never
writes a PTE. -/
def inputHistoryWrite (x : Side) (k : Nat) (s : State) : State :=
  if (s.cfg.mmu x).hwReload then
    match x with
    | .d => { s with mem := histMem s.cfg s.mem s.dmmu.hist[k]?, dmmu := { s.dmmu with hist := s.dmmu.hist.eraseIdx k } }
    | .i => { s with mem := histMem s.cfg s.mem s.immu.hist[k]?, immu := { s.immu with hist := s.immu.hist.eraseIdx k } }
  else s

/-- Another processor writes physical memory (R11, R248). -/
def inputForeignWrite (a : Nat) (bytes : List Byte) (s : State) : Host.Outcome State Fault Refusal :=
  if a + bytes.length ≤ 2 ^ s.cfg.paBits then .next { s with mem := writeBytes s.cfg s.mem a bytes }
  else .fault .noSuchAddress

/-- What one input does. -/
def runInput (e : Input) (s : State) : Host.Outcome State Fault Refusal :=
  match e with
  | .load ea n dest => inputLoad ea n dest s
  | .store ea bytes => inputStore ea bytes s
  | .reload x ea => inputReload x ea s
  | .historyRead x k a d => .next (inputHistoryRead x k a d s)
  | .historyWrite x k => .next (inputHistoryWrite x k s)
  | .foreignWrite a bytes => inputForeignWrite a bytes s
  | .insn act => inputInsn act s
  | .core act => .next (coreAct act s)

end Sys2Proof.Machine
end

