-- ==== Sys2Proof/Machine/Step.lean ====
section
/-! DEFINITION. One step of the machine. -/

namespace Sys2Proof.Machine

/-- One step: the oldest input of another agent, or else the instruction at the program counter, fetched
(R141), decoded (R166) and executed. -/
def step (s : State) : Host.Outcome State Fault Refusal :=
  match s.inbox with
  | e :: rest => runInput e { s with inbox := rest }
  | [] =>
    match fetchInsn s with
    | .stop r => .refused r
    | .trap t => .next t
    | .ok bytes t =>
      match decode t.cfg.endian bytes with
      | none => .refused .outsideOpcodeTable
      | some (i, _) => exec i t

/-- The state with an instruction placed where the next step fetches it. -/
def State.withFetchWord (s : State) (nbits w : Nat) : State := placeWord s nbits w

end Sys2Proof.Machine
end

