-- ==== Sys2Proof/WellFormed.lean ====
section
/-! DEFINITION. The checks on the data a machine is built from: the parameters of R5 and the layout of R27.
An `Instr` needs none: the widths of its operands are the ranges of R169, so every term of it is well formed. -/

namespace Sys2Proof

/-- The fields of one 32-bit word, each its lowest bit and its width, lie inside the word and apart. -/
def fieldsApart (fs : List (Nat × Nat)) : Bool :=
  fs.all (fun f => decide (f.1 + f.2 ≤ 32)) &&
    decide (fs.Pairwise fun f g => f.1 + f.2 ≤ g.1 ∨ g.1 + g.2 ≤ f.1)

def CrPos.fields (p : CrPos) : List (Nat × Nat) := [(p.tf, 1), (p.ptbp, 22)]

def DProtPos.fields (p : DProtPos) : List (Nat × Nat) := [(p.sre, 1), (p.swe, 1), (p.ure, 1), (p.uwe, 1)]

def IProtPos.fields (p : IProtPos) : List (Nat × Nat) := [(p.sxe, 1), (p.uxe, 1)]

def MrPos.fields (p : MrPos) : List (Nat × Nat) :=
  [(p.v, 1), (p.pl1, 1), (p.cid, 4), (p.lru, 2), (p.vpn, 19)]

def AmrPos.fields (p : AmrPos) : List (Nat × Nat) := [(p.v, 1), (p.cid, 4), (p.ps, 1), (p.vpn, 22)]

def TrPos.fields (p : TrPos) : List (Nat × Nat) :=
  [(p.cc, 1), (p.ci, 1), (p.wbc, 1), (p.wom, 1), (p.a, 1), (p.d, 1), (p.ppn, p.ppnWidth)]

def PtePos.fields (p : PtePos) : List (Nat × Nat) :=
  [(p.cc, 1), (p.ci, 1), (p.wbc, 1), (p.wom, 1), (p.a, 1), (p.d, 1), (p.ppi, 3), (p.l, 1), (p.ppn, 22)]

/-- A layout the spec allows: in every register the named fields lie apart (R27), and a translate
register's PPN is at most as wide as the PTE's (R86, R125). -/
def Layout.wf (l : Layout) : Bool :=
  fieldsApart l.dcr.fields && fieldsApart l.icr.fields &&
  fieldsApart (l.dpr.toList.flatMap DProtPos.fields) && fieldsApart (l.ipr.toList.flatMap IProtPos.fields) &&
  fieldsApart l.mr.fields && fieldsApart l.amr.fields &&
  fieldsApart (l.dtr.fields ++ l.dtrProt.fields) && fieldsApart (l.itr.fields ++ l.itrProt.fields) &&
  fieldsApart (l.datr.fields ++ l.datrProt.fields) && fieldsApart (l.iatr.fields ++ l.iatrProt.fields) &&
  fieldsApart l.pte.fields &&
  decide (l.dtr.ppnWidth ≤ 22) && decide (l.itr.ppnWidth ≤ 22) &&
  decide (l.datr.ppnWidth ≤ 22) && decide (l.iatr.ppnWidth ≤ 22)

/-- The ranges of R5 for one half, the constraint that hardware reload needs the control and the
protection register, and the power of two that the default index function is stated for (R116). -/
def MmuConfig.wf (m : MmuConfig) : Bool :=
  decide (m.ways ≤ 4) && decide (1 ≤ m.sets) && decide (m.sets ≤ 128) && decide (m.atbEntries ≤ 4) &&
  (!m.hwReload || (m.crImpl && m.ptbpImpl && m.prImpl)) &&
  (m.tlbIndex != .pageLow || [1, 2, 4, 8, 16, 32, 64, 128].contains m.sets)

/-- The exception that USER_SPR_ACCESS names is none of the four of the MMU (their offsets are R220's): a register access
raises none of them (R181, R200, R221). -/
def UserSprAccess.wf : UserSprAccess → Bool
  | .refuse => true
  | .raise vector => !([0x300, 0x400, 0x900, 0xA00].contains vector)

/-- The ranges of R5, and what R221 keeps USER_SPR_ACCESS from naming. -/
def Config.wf (c : Config) : Bool :=
  decide (1 ≤ c.paBits) && decide (c.paBits ≤ 35) && c.d.wf && c.i.wf && c.layout.wf &&
  c.userSprAccess.wf

end Sys2Proof
end

