-- ==== Sys2Proof/Safety.lean ====
section
/-! DEFINITION. What counts as a safe run: the invariant that every step keeps, and the terms the statements use. -/

namespace Sys2Proof.Machine

/-- The implementation has the entry (R26). -/
def EntryRef.implemented (mc : MmuConfig) : EntryRef → Prop
  | .tlb y k => y.toNat < mc.ways ∧ k.toNat < mc.sets
  | .atb i => i.toNat < mc.atbEntries

/-- A value that fits EA_BITS (R5, R80). -/
def FitsEa (c : Config) (v : Ea) : Prop := truncEa c.eaBits v = v

/-- A physical address at which an aligned word lies in the physical address space (R93, R108). -/
def WordAt (c : Config) (pa : Pa) : Prop := 4 ∣ pa.toNat ∧ pa.toNat + 4 ≤ 2 ^ c.paBits

/-- What holds of one half of the MMU in every reachable state: a hardwired context field is 0 (R39), a PPN
fits its field (R125), and the PTEs that the history agent works on are aligned words of physical memory (R93,
R131). -/
structure Mmu.Fits {P : Type} (c : Config) (x : Side) (m : Mmu P) : Prop where
  tlbCid : c.cidImpl = false → ∀ y k, (m.entry y k).mr.cid = 0
  atbCid : c.cidImpl = false → ∀ i, (fileGet m.atb i).mr.cid = 0
  tlbPpn : ∀ y k, (m.entry y k).tr.ppn.toNat < 2 ^ (ppnWidths c.layout x).1
  atbPpn : ∀ i, (fileGet m.atb i).tr.ppn.toNat < 2 ^ (ppnWidths c.layout x).2
  tlbOrigin : ∀ y k pa, (m.entry y k).origin = some pa → WordAt c pa
  atbOrigin : ∀ i pa, (fileGet m.atb i).origin = some pa → WordAt c pa
  owed : ∀ o ∈ m.owed, WordAt c o.pa
  hist : ∀ h ∈ m.hist, WordAt c h.pa

/-- The invariant of the machine: a configuration in the ranges of R5, memory in its canonical form inside the
physical address space, every core register EA_BITS wide, and both halves as `Mmu.Fits` says. -/
structure State.Inv (s : State) : Prop where
  cfg : s.cfg.wf = true
  memWf : s.mem.wf = true
  memBound : ∀ cell ∈ s.mem, cell.1 < 2 ^ s.cfg.paBits
  gpr : ∀ i, FitsEa s.cfg (fileGet s.gpr i)
  pc : FitsEa s.cfg s.pc
  epcr : FitsEa s.cfg s.epcr
  eear : FitsEa s.cfg s.eear
  dmmu : s.dmmu.Fits s.cfg .d
  immu : s.immu.Fits s.cfg .i

/-- No step from the state ends in a fault. -/
def Faultless (s : State) : Prop := ∀ f, step s ≠ .fault f

/-- The address of register n of a half's group (R161). -/
def sprAt (x : Side) (n : Nat) : BitVec 16 :=
  BitVec.ofNat 16 ((match x with | .d => 1 | .i => 2) * 2 ^ 11 + n)

/-- The register numbers that the lists of R21 and R22 have. -/
def ListedNumber (n : Nat) : Prop := n ≤ 2 ∨ (4 ≤ n ∧ n ≤ 11) ∨ (512 ≤ n ∧ n ≤ 1535)

/-- The MMU register of number n in a half's group is the one that an instruction's operands name (R161, R165). -/
def Names (s : State) (a : BitVec 5) (k : BitVec 16) (x : Side) (n : Nat) : Prop :=
  (readGpr s a ||| k.setWidth 64).setWidth 16 = sprAt x n

/-- No implemented way but y matches the address in its set (R119). -/
def OnlyWay {P : Type} (c : Config) (x : Side) (m : Mmu P) (cid : BitVec 4) (e : PageEa) (y : BitVec 2) : Prop :=
  ∀ z, z ≠ y → z.toNat < (c.mmu x).ways → tlbMatches c (m.entry z (tlbIndex (c.mmu x) e)).mr cid e = false

/-- No implemented way matches the address in its set (R122). -/
def NoWay {P : Type} (c : Config) (x : Side) (m : Mmu P) (cid : BitVec 4) (e : PageEa) : Prop :=
  ∀ z, z.toNat < (c.mmu x).ways → tlbMatches c (m.entry z (tlbIndex (c.mmu x) e)).mr cid e = false

/-- No implemented ATB entry matches the address (R122). -/
def NoAtb {P : Type} (c : Config) (x : Side) (m : Mmu P) (cid : BitVec 4) (e : PageEa) : Prop :=
  ∀ i, i.toNat < (c.mmu x).atbEntries → atbMatches c (fileGet m.atb i).mr cid e = false

/-- No implemented ATB entry but i matches the address (R119). -/
def OnlyAtb {P : Type} (c : Config) (x : Side) (m : Mmu P) (cid : BitVec 4) (e : PageEa) (i : BitVec 2) : Prop :=
  ∀ j, j ≠ i → j.toNat < (c.mmu x).atbEntries → atbMatches c (fileGet m.atb j).mr cid e = false

/-- The implementation has somewhere to install a page of the level (R113, D31). -/
def HasPlace (mc : MmuConfig) : PageLevel → Prop
  | .l2 => mc.ways ≠ 0
  | .l1 => mc.ways ≠ 0 ∨ mc.atbEntries ≠ 0
  | .l0 => mc.atbEntries ≠ 0

/-- The width of the PPN field of an entry's translate register (R125, D15). -/
def ppnWidthAt (l : Layout) (x : Side) : EntryRef → Nat
  | .tlb _ _ => (ppnWidths l x).1
  | .atb _ => (ppnWidths l x).2

/-- The physical address of the k-th byte of an access that was translated in parts (R125; notes/assumptions/12.md and
23.md). -/
def byteAddress (c : Config) : List Part → Nat → Option Nat
  | [], _ => none
  | p :: rest, k =>
    if k < p.size then some ((p.pa.toNat + k) % 2 ^ c.paBits) else byteAddress c rest (k - p.size)

/-- Two match registers that differ at most in LRU (R40). -/
def SameButLru (m m' : TlbMatch) : Prop := m' = { m with lru := m'.lru }

/-- Two translate registers that differ at most in A and D, and neither bit is cleared (R128, R129). -/
def HistoryGrows {P : Type} (t t' : TransReg P) : Prop :=
  t' = { t with a := t'.a, d := t'.d } ∧ (t.a = true → t'.a = true) ∧ (t.d = true → t'.d = true)

/-- Two states that differ at most in the registers of the two halves of the MMU. -/
def SameButMmu (s t : State) : Prop := t = { s with dmmu := t.dmmu, immu := t.immu }

/-- Every TLB entry of one half but (y, k), its ATB, its control and protection registers and its history
updates are the same. -/
def Mmu.SameButTlb {P : Type} (y : BitVec 2) (k : BitVec 7) (m m' : Mmu P) : Prop :=
  (∀ y' k', (y', k') ≠ (y, k) → m'.entry y' k' = m.entry y' k') ∧
    m'.atb = m.atb ∧ m'.tf = m.tf ∧ m'.ptbp = m.ptbp ∧ m'.pr = m.pr ∧ m'.hist = m.hist ∧ m'.owed = m.owed

/-- Every ATB entry of one half but i, its TLB, its control and protection registers and its history updates
are the same. -/
def Mmu.SameButAtb {P : Type} (i : BitVec 2) (m m' : Mmu P) : Prop :=
  (∀ j, j ≠ i → fileGet m'.atb j = fileGet m.atb j) ∧
    m'.tlb = m.tlb ∧ m'.tf = m.tf ∧ m'.ptbp = m.ptbp ∧ m'.pr = m.pr ∧ m'.hist = m.hist ∧ m'.owed = m.owed

/-- What a permitted access through entry r leaves of its half of the MMU (R128, R129, R131, R40): A of the entry set, D too
by a store, and the same bits owed to the PTE in memory where a reload wrote the entry; every other translate register as it
was, match registers as they were but for LRU in set k. -/
structure Mmu.AccessedAt {P : Type} (k : BitVec 7) (r : EntryRef) (store : Bool) (m m' : Mmu P) : Prop where
  entry : m'.trOf r = { m.trOf r with a := true, d := (m.trOf r).d || store }
  others : ∀ q, q ≠ r → m'.trOf q = m.trOf q
  tlbMatch : ∀ y n, SameButLru (m.entry y n).mr (m'.entry y n).mr
  otherSets : ∀ y n, n ≠ k → (m'.entry y n).mr = (m.entry y n).mr
  atbMatch : ∀ i, (fileGet m'.atb i).mr = (fileGet m.atb i).mr
  origin : ∀ q, m'.originOf q = m.originOf q
  owed : m'.owed = m.owed ++ (m.originOf r).toList.map fun pa => { pa := pa, a := true, d := store }
  tf : m'.tf = m.tf
  ptbp : m'.ptbp = m.ptbp
  pr : m'.pr = m.pr
  hist : m'.hist = m.hist

/-- What a prohibited access through entry r leaves of its half of the MMU (R130, R131): A of the entry may be set, D too by a
store, and what it set is owed to the PTE in memory where a reload wrote the entry; nothing else is different. -/
structure Mmu.DeniedAt {P : Type} (r : EntryRef) (store : Bool) (m m' : Mmu P) : Prop where
  entry : HistoryGrows (m.trOf r) (m'.trOf r)
  dirty : store = false → (m'.trOf r).d = (m.trOf r).d
  others : ∀ q, q ≠ r → m'.trOf q = m.trOf q
  tlbMatch : ∀ y n, (m'.entry y n).mr = (m.entry y n).mr
  atbMatch : ∀ i, (fileGet m'.atb i).mr = (fileGet m.atb i).mr
  origin : ∀ q, m'.originOf q = m.originOf q
  owed : m'.owed = m.owed ∨ ∃ o, m'.owed = m.owed ++ [o] ∧ m.originOf r = some o.pa ∧
    (o.a = true → (m'.trOf r).a = true) ∧ (o.d = true → store = true ∧ (m'.trOf r).d = true)
  tf : m'.tf = m.tf
  ptbp : m'.ptbp = m.ptbp
  pr : m'.pr = m.pr
  hist : m'.hist = m.hist

/-- What a reload inside an access leaves of its half of the MMU, beside the translate register of entry r, which it
wrote (R113): r is the entry that matches the address, a page of the level, whose PTE is at pa; every other entry is as it was
but for LRU; what the access set may be owed to that PTE (R131). -/
structure Mmu.InstalledAt {P : Type} (c : Config) (x : Side) (cid : BitVec 4) (e : PageEa) (level : PageLevel)
    (pa : Pa) (r : EntryRef) (m m' : Mmu P) : Prop where
  implemented : r.implemented (c.mmu x)
  match_ : lookup c (c.mmu x) m' cid e = .hit r
  level_ : m'.levelOf r = level
  others : ∀ q, q ≠ r → m'.trOf q = m.trOf q
  tlbMatch : ∀ y n, r ≠ .tlb y n → SameButLru (m.entry y n).mr (m'.entry y n).mr
  atbMatch : ∀ i, r ≠ .atb i → (fileGet m'.atb i).mr = (fileGet m.atb i).mr
  origin : m'.originOf r = some pa
  otherOrigins : ∀ q, q ≠ r → m'.originOf q = m.originOf q
  owed : m'.owed = m.owed ∨ ∃ a d, m'.owed = m.owed ++ [{ pa := pa, a := a, d := d }]
  tf : m'.tf = m.tf
  ptbp : m'.ptbp = m.ptbp
  pr : m'.pr = m.pr
  hist : m'.hist = m.hist

/-- What the reload agent's own step leaves of its half of the MMU (R113, R114): entry r takes what the PTE at pa says and
matches the address in its set, as a page of the level; every other entry and everything else is as it was. -/
structure Mmu.ReloadedAt {P : Type} (c : Config) (x : Side) (cid : BitVec 4) (e : PageEa) (pte : Pte) (level : PageLevel)
    (pa : Pa) (r : EntryRef) (m m' : Mmu P) : Prop where
  implemented : r.implemented (c.mmu x)
  matches_ : match r with
    | .tlb y k => k = tlbIndex (c.mmu x) e ∧ tlbMatches c (m'.entry y k).mr cid e = true
    | .atb i => atbMatches c (fileGet m'.atb i).mr cid e = true
  level_ : m'.levelOf r = level
  entry : m'.trOf r =
    { attrs := pte.attrs, a := pte.a, d := pte.d, prot := groupGet m.pr pte.ppi
      ppn := cutPpn (ppnWidthAt c.layout x r) pte.ppn }
  origin : m'.originOf r = some pa
  otherEntries : ∀ y n, r ≠ .tlb y n → m'.entry y n = m.entry y n
  otherAtbs : ∀ i, r ≠ .atb i → fileGet m'.atb i = fileGet m.atb i
  tf : m'.tf = m.tf
  ptbp : m'.ptbp = m.ptbp
  pr : m'.pr = m.pr
  hist : m'.hist = m.hist
  owed : m'.owed = m.owed

end Sys2Proof.Machine
end

