-- ==== Sys2Proof/Certificates/Slice0/Obligations.lean ====
section
/-! DEFINITION. The statements for the provers. Each docstring names the rule of spec/ it formalises, or says that it
rests on a choice of the model and names the log entry. -/

open Sys2Proof Sys2Proof.Machine

/-! ### Encoding (30_encoding.md) -/

/-- Decoding the bytes of an instruction, in either byte order and with any bytes behind them, gives it back
(R163, R164, R165; the byte order of an instruction is notes/assumptions/24.md). -/
def Obligations.DecodeInvertsEncode : Prop :=
  ∀ (e : Endian) (i : Instr) (rest : List Byte), decode e (encode e i ++ rest) = some (i, rest)

/-- A word that decodes is the word of its instruction: no two words have one meaning (R163, R164). -/
def Obligations.EncodeInvertsDecode : Prop :=
  ∀ (w : Word) (i : Instr), decodeWord w = some i → encodeWord i = w

/-- Words of the vectors in 95_test_vectors.md section 10.1, written out there from R163 and R164. -/
def Obligations.SpecWordsDecode : Prop :=
  decodeTableWord 32 0xB4A00A00 = some (.mfspr 5 0 0x0A00) ∧
  decodeTableWord 32 0xB4210801 = some (.mfspr 1 1 0x0801) ∧
  decodeTableWord 32 0xB7FFFFFF = some (.mfspr 31 31 0xFFFF) ∧
  decodeTableWord 32 0xC0201A22 = some (.mtspr 0 3 0x0A22) ∧
  decodeTableWord 32 0xC0402281 = some (.mtspr 0 4 0x1281) ∧
  decodeTableWord 32 0xC3FFFFFF = some (.mtspr 31 31 0xFFFF)

/-- R166: a step at a word of any other major opcode is refused. -/
def Obligations.OtherOpcodesRefused : Prop :=
  ∀ (s u : State) (b0 b1 b2 b3 : Byte), s.inbox = [] → fetchInsn s = .ok [b0, b1, b2, b3] u →
    (wordOfBytes u.cfg.endian b0 b1 b2 b3).extractLsb' 26 6 ≠ 0x2D#6 →
    (wordOfBytes u.cfg.endian b0 b1 b2 b3).extractLsb' 26 6 ≠ 0x30#6 →
    step s = .refused .outsideOpcodeTable

/-- A step runs the decoded instruction: with an empty inbox, where the fetch at an aligned program counter is
translated to pa (R141) and the four bytes there decode to i, the step is exec of i in the state the fetch leaves,
with the fetch on the bus record. Where the fetch raises, taking that exception is the whole step, whatever lies in memory
(R141, R222). -/
def Obligations.StepRunsDecodedInstruction : Prop :=
  (∀ (s u : State) (pa : Pa) (at' : Attrs) (i : Instr) (rest : List Byte), s.inbox = [] →
    (truncEa s.cfg.eaBits s.pc).extractLsb' 0 2 = 0 →
    iTranslate (truncEa s.cfg.eaBits s.pc) s = .ok (pa, at') u →
    decode u.cfg.endian (readBytes u.cfg u.mem pa.toNat 4) = some (i, rest) →
    step s = exec i { u with
      bus :=
        [{ kind := .fetch, ea := truncEa s.cfg.eaBits s.pc, pa := pa, attrs := at',
           data := readBytes u.cfg u.mem pa.toNat 4 }] }) ∧
  (∀ (s t : State), s.inbox = [] → (truncEa s.cfg.eaBits s.pc).extractLsb' 0 2 = 0 →
    iTranslate (truncEa s.cfg.eaBits s.pc) s = .trap t → step s = .next t)

/-- R161 with R23: the addresses of the registers. -/
def Obligations.RegisterAddresses : Prop :=
  ∀ (c : Config) (x : Side) (y : BitVec 2) (k : BitVec 7) (i : BitVec 2),
    sprOf c (sprAt x 0) = some (.mmucr x) ∧ sprOf c (sprAt x 1) = some (.mmupr x) ∧
    sprOf c (sprAt x 2) = some (.tlbeir x) ∧
    sprOf c (sprAt x (4 + i.toNat)) = some (.atbmr x i) ∧ sprOf c (sprAt x (8 + i.toNat)) = some (.atbtr x i) ∧
    sprOf c (sprAt x (512 + 256 * y.toNat + k.toNat)) = some (.tlbmr x y k) ∧
    sprOf c (sprAt x (640 + 256 * y.toNat + k.toNat)) = some (.tlbtr x y k)

/-- R181 and R182: a register address that is no register of the spec is refused by both instructions, in either mode: a
number of groups 1 and 2 that the lists leave out (93_implementation_defined.md U9), and every address of another group
but the two configuration registers where the implementation has them. That `l.mtspr` refuses those two is the model's
choice (notes/assumptions/21.md), as is their place. -/
def Obligations.AddressesOutsideRefused : Prop :=
  ∀ (s : State) (r a b : BitVec 5) (k : BitVec 16),
    (∀ (x : Side) (n : Nat), n < 2048 → ¬ListedNumber n → Names s a k x n →
      exec (.mfspr r a k) s = .refused .sprOutsideSpec ∧ exec (.mtspr a b k) s = .refused .sprOutsideSpec) ∧
    (((readGpr s a ||| k.setWidth 64).setWidth 16).extractLsb' 11 5 ≠ 1#5 →
      ((readGpr s a ||| k.setWidth 64).setWidth 16).extractLsb' 11 5 ≠ 2#5 →
      ¬(s.cfg.cfgrImpl = true ∧ ((readGpr s a ||| k.setWidth 64).setWidth 16 = 3#16 ∨
        (readGpr s a ||| k.setWidth 64).setWidth 16 = 4#16)) →
      exec (.mfspr r a k) s = .refused .sprOutsideSpec ∧ exec (.mtspr a b k) s = .refused .sprOutsideSpec) ∧
    ((readGpr s a ||| k.setWidth 64).setWidth 16 = 3#16 ∨ (readGpr s a ||| k.setWidth 64).setWidth 16 = 4#16 →
      exec (.mtspr a b k) s = .refused .sprOutsideSpec)

/-! ### Reading a register (40_spr_access.md R181, R190) -/

/-- R181: in supervisor mode `l.mfspr` of any listed register completes; that it does so for a register that the
implementation lacks, delivering a free value, is the choice of 92_eei_decisions.md D22 (notes/assumptions/20.md). One general register
is written, with a value of EA_BITS, zero-extended from 32 bits for every register but xTLBEIR (R184), and nothing
else changes but the program counter, which moves on, and the count of free values. -/
def Obligations.MfsprCompletes : Prop :=
  ∀ (s : State) (d a : BitVec 5) (k : BitVec 16) (x : Side) (n : Nat), s.sr.mode = .supervisor →
    ListedNumber n → Names s a k x n →
    ∃ v, exec (.mfspr d a k) s =
        .next (advance { s with gpr := fileSet s.gpr d v, draws := s.draws + 1 }) ∧
      FitsEa s.cfg v ∧ (n ≠ 2 → v.toNat < 2 ^ 32)

/-- R190 for the TLB match registers of both halves: every named field of an implemented register is delivered at
its place in the layout. -/
def Obligations.MfsprReadsTlbMatch : Prop :=
  ∀ (s : State) (d a : BitVec 5) (k : BitVec 16) (y : BitVec 2) (n : BitVec 7), s.Inv → s.sr.mode = .supervisor →
    (y.toNat < s.cfg.d.ways → n.toNat < s.cfg.d.sets → Names s a k .d (512 + 256 * y.toNat + n.toNat) →
      ∃ v : Word, exec (.mfspr d a k) s =
          .next (advance { s with gpr := fileSet s.gpr d (v.setWidth 64), draws := s.draws + 1 }) ∧
        unpackMr s.cfg.layout.mr v = (s.dmmu.entry y n).mr) ∧
    (y.toNat < s.cfg.i.ways → n.toNat < s.cfg.i.sets → Names s a k .i (512 + 256 * y.toNat + n.toNat) →
      ∃ v : Word, exec (.mfspr d a k) s =
          .next (advance { s with gpr := fileSet s.gpr d (v.setWidth 64), draws := s.draws + 1 }) ∧
        unpackMr s.cfg.layout.mr v = (s.immu.entry y n).mr)

/-- R190 for the TLB translate registers, each half with its own order of the protection bits (R42, R43). -/
def Obligations.MfsprReadsTlbTranslate : Prop :=
  ∀ (s : State) (d a : BitVec 5) (k : BitVec 16) (y : BitVec 2) (n : BitVec 7), s.Inv → s.sr.mode = .supervisor →
    (y.toNat < s.cfg.d.ways → n.toNat < s.cfg.d.sets → Names s a k .d (640 + 256 * y.toNat + n.toNat) →
      ∃ v : Word, exec (.mfspr d a k) s =
          .next (advance { s with gpr := fileSet s.gpr d (v.setWidth 64), draws := s.draws + 1 }) ∧
        dtrOfWord s.cfg.layout v = (s.dmmu.entry y n).tr) ∧
    (y.toNat < s.cfg.i.ways → n.toNat < s.cfg.i.sets → Names s a k .i (640 + 256 * y.toNat + n.toNat) →
      ∃ v : Word, exec (.mfspr d a k) s =
          .next (advance { s with gpr := fileSet s.gpr d (v.setWidth 64), draws := s.draws + 1 }) ∧
        itrOfWord s.cfg.layout v = (s.immu.entry y n).tr)

/-- R190 for the ATB match and translate registers of both halves (R44 to R46). -/
def Obligations.MfsprReadsAtb : Prop :=
  ∀ (s : State) (d a : BitVec 5) (k : BitVec 16) (i : BitVec 2), s.Inv → s.sr.mode = .supervisor →
    (i.toNat < s.cfg.d.atbEntries →
      (Names s a k .d (4 + i.toNat) → ∃ v : Word, exec (.mfspr d a k) s =
          .next (advance { s with gpr := fileSet s.gpr d (v.setWidth 64), draws := s.draws + 1 }) ∧
        unpackAmr s.cfg.layout.amr v = (fileGet s.dmmu.atb i).mr) ∧
      (Names s a k .d (8 + i.toNat) → ∃ v : Word, exec (.mfspr d a k) s =
          .next (advance { s with gpr := fileSet s.gpr d (v.setWidth 64), draws := s.draws + 1 }) ∧
        datrOfWord s.cfg.layout v = (fileGet s.dmmu.atb i).tr)) ∧
    (i.toNat < s.cfg.i.atbEntries →
      (Names s a k .i (4 + i.toNat) → ∃ v : Word, exec (.mfspr d a k) s =
          .next (advance { s with gpr := fileSet s.gpr d (v.setWidth 64), draws := s.draws + 1 }) ∧
        unpackAmr s.cfg.layout.amr v = (fileGet s.immu.atb i).mr) ∧
      (Names s a k .i (8 + i.toNat) → ∃ v : Word, exec (.mfspr d a k) s =
          .next (advance { s with gpr := fileSet s.gpr d (v.setWidth 64), draws := s.draws + 1 }) ∧
        iatrOfWord s.cfg.layout v = (fileGet s.immu.atb i).tr))

/-- R190 for the control registers: PTBP and xTF where the implementation has them (R28, R29, R32, R33). -/
def Obligations.MfsprReadsControl : Prop :=
  ∀ (s : State) (d a : BitVec 5) (k : BitVec 16), s.cfg.wf = true → s.sr.mode = .supervisor →
    (s.cfg.d.crImpl = true → Names s a k .d 0 → ∃ v : Word, exec (.mfspr d a k) s =
        .next (advance { s with gpr := fileSet s.gpr d (v.setWidth 64), draws := s.draws + 1 }) ∧
      (s.cfg.d.tfImpl = true → getBit v s.cfg.layout.dcr.tf = s.dmmu.tf) ∧
      (s.cfg.d.ptbpImpl = true → getField 22 v s.cfg.layout.dcr.ptbp = s.dmmu.ptbp)) ∧
    (s.cfg.i.crImpl = true → Names s a k .i 0 → ∃ v : Word, exec (.mfspr d a k) s =
        .next (advance { s with gpr := fileSet s.gpr d (v.setWidth 64), draws := s.draws + 1 }) ∧
      (s.cfg.i.tfImpl = true → getBit v s.cfg.layout.icr.tf = s.immu.tf) ∧
      (s.cfg.i.ptbpImpl = true → getField 22 v s.cfg.layout.icr.ptbp = s.immu.ptbp))

/-- R190 for the protection registers: every bit of every group (R31, R34). -/
def Obligations.MfsprReadsProtection : Prop :=
  ∀ (s : State) (d a : BitVec 5) (k : BitVec 16), s.cfg.wf = true → s.sr.mode = .supervisor →
    (s.cfg.d.prImpl = true → Names s a k .d 1 → ∃ v : Word, exec (.mfspr d a k) s =
        .next (advance { s with gpr := fileSet s.gpr d (v.setWidth 64), draws := s.draws + 1 }) ∧
      unpackDpr s.cfg.layout.dpr v = s.dmmu.pr) ∧
    (s.cfg.i.prImpl = true → Names s a k .i 1 → ∃ v : Word, exec (.mfspr d a k) s =
        .next (advance { s with gpr := fileSet s.gpr d (v.setWidth 64), draws := s.draws + 1 }) ∧
      unpackIpr s.cfg.layout.ipr v = s.immu.pr)

/-- The configuration registers where CFGR_IMPL holds, at the place and with the fields that R47 marks as general
knowledge: reading them is the model's choice (notes/assumptions/21.md). -/
def Obligations.MfsprReadsConfiguration : Prop :=
  ∀ (s : State) (d a : BitVec 5) (k : BitVec 16), s.cfg.wf = true → s.cfg.cfgrImpl = true →
    s.sr.mode = .supervisor →
    ((readGpr s a ||| k.setWidth 64).setWidth 16 = 3#16 → ∃ v : Word, exec (.mfspr d a k) s =
        .next (advance { s with gpr := fileSet s.gpr d (v.setWidth 64), draws := s.draws + 1 }) ∧
      (s.cfg.d.ways ≠ 0 → (getField 2 v 0).toNat = s.cfg.d.ways - 1) ∧
      (∀ n : Nat, s.cfg.d.sets = 2 ^ n → (getField 3 v 2).toNat = n) ∧
      (getField 3 v 5).toNat = s.cfg.d.atbEntries ∧ getBit v 8 = s.cfg.d.crImpl ∧ getBit v 9 = s.cfg.d.prImpl ∧
      getBit v 10 = s.cfg.d.eirImpl ∧ getBit v 11 = s.cfg.d.hwReload) ∧
    ((readGpr s a ||| k.setWidth 64).setWidth 16 = 4#16 → ∃ v : Word, exec (.mfspr d a k) s =
        .next (advance { s with gpr := fileSet s.gpr d (v.setWidth 64), draws := s.draws + 1 }) ∧
      (s.cfg.i.ways ≠ 0 → (getField 2 v 0).toNat = s.cfg.i.ways - 1) ∧
      (∀ n : Nat, s.cfg.i.sets = 2 ^ n → (getField 3 v 2).toNat = n) ∧
      (getField 3 v 5).toNat = s.cfg.i.atbEntries ∧ getBit v 8 = s.cfg.i.crImpl ∧ getBit v 9 = s.cfg.i.prImpl ∧
      getBit v 10 = s.cfg.i.eirImpl ∧ getBit v 11 = s.cfg.i.hwReload)

/-! ### Writing a register (40_spr_access.md R182, R191 to R200) -/

/-- R200 with R182: in supervisor mode `l.mtspr` to any listed register completes; that it does so for a register that the
implementation lacks is the choice of 92_eei_decisions.md D22 (notes/assumptions/20.md). It raises no
MMU exception and changes neither SR nor memory nor a general register: the two halves of the MMU and the count of
free values, and the program counter, which moves on. -/
def Obligations.MtsprCompletes : Prop :=
  ∀ (s : State) (a b : BitVec 5) (k : BitVec 16) (x : Side) (n : Nat), s.sr.mode = .supervisor →
    ListedNumber n → Names s a k x n →
    ∃ dm im dr, exec (.mtspr a b k) s = .next (advance { s with dmmu := dm, immu := im, draws := dr }) ∧
      (x = .d → im = s.immu) ∧ (x = .i → dm = s.dmmu)

/-- R195: a write of a TLB match or translate register. Every named field takes its bits of the low 32 bits of x[B], V,
LRU, A and D included, and CID stays 0 where it is hardwired; the other register of the entry, every other entry and
everything else of the MMU is unchanged. -/
def Obligations.MtsprWritesTlb : Prop :=
  ∀ (s : State) (a b : BitVec 5) (k : BitVec 16) (y : BitVec 2) (n : BitVec 7), s.sr.mode = .supervisor →
    (y.toNat < s.cfg.d.ways → n.toNat < s.cfg.d.sets →
      (Names s a k .d (512 + 256 * y.toNat + n.toNat) →
        ∃ m, exec (.mtspr a b k) s = .next (advance { s with dmmu := m }) ∧ s.dmmu.SameButTlb y n m ∧
          (m.entry y n).tr = (s.dmmu.entry y n).tr ∧
          (m.entry y n).mr =
            { unpackMr s.cfg.layout.mr ((readGpr s b).setWidth 32) with
              cid := if s.cfg.cidImpl then (unpackMr s.cfg.layout.mr ((readGpr s b).setWidth 32)).cid else 0 }) ∧
      (Names s a k .d (640 + 256 * y.toNat + n.toNat) →
        ∃ m, exec (.mtspr a b k) s = .next (advance { s with dmmu := m }) ∧ s.dmmu.SameButTlb y n m ∧
          (m.entry y n).mr = (s.dmmu.entry y n).mr ∧
          (m.entry y n).tr = dtrOfWord s.cfg.layout ((readGpr s b).setWidth 32))) ∧
    (y.toNat < s.cfg.i.ways → n.toNat < s.cfg.i.sets →
      (Names s a k .i (512 + 256 * y.toNat + n.toNat) →
        ∃ m, exec (.mtspr a b k) s = .next (advance { s with immu := m }) ∧ s.immu.SameButTlb y n m ∧
          (m.entry y n).tr = (s.immu.entry y n).tr ∧
          (m.entry y n).mr =
            { unpackMr s.cfg.layout.mr ((readGpr s b).setWidth 32) with
              cid := if s.cfg.cidImpl then (unpackMr s.cfg.layout.mr ((readGpr s b).setWidth 32)).cid else 0 }) ∧
      (Names s a k .i (640 + 256 * y.toNat + n.toNat) →
        ∃ m, exec (.mtspr a b k) s = .next (advance { s with immu := m }) ∧ s.immu.SameButTlb y n m ∧
          (m.entry y n).mr = (s.immu.entry y n).mr ∧
          (m.entry y n).tr = itrOfWord s.cfg.layout ((readGpr s b).setWidth 32)))

/-- R196: a write of an ATB match or translate register; nothing else of the MMU changes. -/
def Obligations.MtsprWritesAtb : Prop :=
  ∀ (s : State) (a b : BitVec 5) (k : BitVec 16) (i : BitVec 2), s.sr.mode = .supervisor →
    (i.toNat < s.cfg.d.atbEntries →
      (Names s a k .d (4 + i.toNat) →
        ∃ m, exec (.mtspr a b k) s = .next (advance { s with dmmu := m }) ∧ s.dmmu.SameButAtb i m ∧
          (fileGet m.atb i).tr = (fileGet s.dmmu.atb i).tr ∧
          (fileGet m.atb i).mr =
            { unpackAmr s.cfg.layout.amr ((readGpr s b).setWidth 32) with
              cid := if s.cfg.cidImpl then (unpackAmr s.cfg.layout.amr ((readGpr s b).setWidth 32)).cid else 0 }) ∧
      (Names s a k .d (8 + i.toNat) →
        ∃ m, exec (.mtspr a b k) s = .next (advance { s with dmmu := m }) ∧ s.dmmu.SameButAtb i m ∧
          (fileGet m.atb i).mr = (fileGet s.dmmu.atb i).mr ∧
          (fileGet m.atb i).tr = datrOfWord s.cfg.layout ((readGpr s b).setWidth 32))) ∧
    (i.toNat < s.cfg.i.atbEntries →
      (Names s a k .i (4 + i.toNat) →
        ∃ m, exec (.mtspr a b k) s = .next (advance { s with immu := m }) ∧ s.immu.SameButAtb i m ∧
          (fileGet m.atb i).tr = (fileGet s.immu.atb i).tr ∧
          (fileGet m.atb i).mr =
            { unpackAmr s.cfg.layout.amr ((readGpr s b).setWidth 32) with
              cid := if s.cfg.cidImpl then (unpackAmr s.cfg.layout.amr ((readGpr s b).setWidth 32)).cid else 0 }) ∧
      (Names s a k .i (8 + i.toNat) →
        ∃ m, exec (.mtspr a b k) s = .next (advance { s with immu := m }) ∧ s.immu.SameButAtb i m ∧
          (fileGet m.atb i).mr = (fileGet s.immu.atb i).mr ∧
          (fileGet m.atb i).tr = iatrOfWord s.cfg.layout ((readGpr s b).setWidth 32)))

/-- R192: a write of a protection register; no TLB or ATB entry changes. -/
def Obligations.MtsprWritesProtection : Prop :=
  ∀ (s : State) (a b : BitVec 5) (k : BitVec 16), s.sr.mode = .supervisor →
    (s.cfg.d.prImpl = true → Names s a k .d 1 →
      ∃ pr, exec (.mtspr a b k) s = .next (advance { s with dmmu := { s.dmmu with pr := pr } }) ∧
        ∀ g : BitVec 3, g ≠ 0 →
          groupGet pr g = unpackDProt (groupGet s.cfg.layout.dpr g) ((readGpr s b).setWidth 32)) ∧
    (s.cfg.i.prImpl = true → Names s a k .i 1 →
      ∃ pr, exec (.mtspr a b k) s = .next (advance { s with immu := { s.immu with pr := pr } }) ∧
        ∀ g : BitVec 3, g ≠ 0 →
          groupGet pr g = unpackIProt (groupGet s.cfg.layout.ipr g) ((readGpr s b).setWidth 32))

/-- R191 where no flush is asked for (xTF written 0, or absent): PTBP takes its bits where it exists, and no entry
changes. That the stored xTF bit stays as it was is the model's choice (notes/assumptions/19.md); R191 only says that
nothing is requested. That PTBP may be absent from an implemented register is notes/assumptions/20.md. -/
def Obligations.MtsprWritesPtbp : Prop :=
  ∀ (s : State) (a b : BitVec 5) (k : BitVec 16), s.sr.mode = .supervisor →
    (s.cfg.d.crImpl = true → Names s a k .d 0 →
      (s.cfg.d.tfImpl = false ∨ getBit ((readGpr s b).setWidth 32) s.cfg.layout.dcr.tf = false) →
      exec (.mtspr a b k) s = .next (advance { s with dmmu := { s.dmmu with
        ptbp := if s.cfg.d.ptbpImpl then getField 22 ((readGpr s b).setWidth 32) s.cfg.layout.dcr.ptbp
          else s.dmmu.ptbp } })) ∧
    (s.cfg.i.crImpl = true → Names s a k .i 0 →
      (s.cfg.i.tfImpl = false ∨ getBit ((readGpr s b).setWidth 32) s.cfg.layout.icr.tf = false) →
      exec (.mtspr a b k) s = .next (advance { s with immu := { s.immu with
        ptbp := if s.cfg.i.ptbpImpl then getField 22 ((readGpr s b).setWidth 32) s.cfg.layout.icr.ptbp
          else s.immu.ptbp } }))

/-- R191 and R199: a write of xMMUCR with xTF = 1, where xTF exists, makes every entry of that TLB invalid, and PTBP takes
its bits where it exists; no match register loses anything but V, and the translate registers, the ATB, the protection
register and the history updates that are owed or in progress are unchanged. That the
flush is done at once, so that xTF is 0 and no address hits the TLB in any context right after the write, is the choice
of 92_eei_decisions.md D19 (notes/assumptions/19.md). -/
def Obligations.MtsprFlushes : Prop :=
  ∀ (s : State) (a b : BitVec 5) (k : BitVec 16), s.cfg.wf = true → s.sr.mode = .supervisor →
    (s.cfg.d.crImpl = true → s.cfg.d.tfImpl = true → Names s a k .d 0 →
      getBit ((readGpr s b).setWidth 32) s.cfg.layout.dcr.tf = true →
      ∃ m, exec (.mtspr a b k) s = .next (advance { s with dmmu := m }) ∧ m.tf = false ∧ m.atb = s.dmmu.atb ∧
        m.pr = s.dmmu.pr ∧ m.hist = s.dmmu.hist ∧ m.owed = s.dmmu.owed ∧
        m.ptbp = (if s.cfg.d.ptbpImpl then getField 22 ((readGpr s b).setWidth 32) s.cfg.layout.dcr.ptbp
          else s.dmmu.ptbp) ∧
        (∀ y n, y.toNat < s.cfg.d.ways → n.toNat < s.cfg.d.sets → (m.entry y n).mr.v = false) ∧
        (∀ y n, (m.entry y n).mr = { (s.dmmu.entry y n).mr with v := (m.entry y n).mr.v } ∧
          (m.entry y n).tr = (s.dmmu.entry y n).tr ∧ (m.entry y n).origin = (s.dmmu.entry y n).origin) ∧
        (∀ y n, ¬(y.toNat < s.cfg.d.ways ∧ n.toNat < s.cfg.d.sets) → m.entry y n = s.dmmu.entry y n) ∧
        ∀ cid e, tlbHits s.cfg s.cfg.d m cid e = []) ∧
    (s.cfg.i.crImpl = true → s.cfg.i.tfImpl = true → Names s a k .i 0 →
      getBit ((readGpr s b).setWidth 32) s.cfg.layout.icr.tf = true →
      ∃ m, exec (.mtspr a b k) s = .next (advance { s with immu := m }) ∧ m.tf = false ∧ m.atb = s.immu.atb ∧
        m.pr = s.immu.pr ∧ m.hist = s.immu.hist ∧ m.owed = s.immu.owed ∧
        m.ptbp = (if s.cfg.i.ptbpImpl then getField 22 ((readGpr s b).setWidth 32) s.cfg.layout.icr.ptbp
          else s.immu.ptbp) ∧
        (∀ y n, y.toNat < s.cfg.i.ways → n.toNat < s.cfg.i.sets → (m.entry y n).mr.v = false) ∧
        (∀ y n, (m.entry y n).mr = { (s.immu.entry y n).mr with v := (m.entry y n).mr.v } ∧
          (m.entry y n).tr = (s.immu.entry y n).tr ∧ (m.entry y n).origin = (s.immu.entry y n).origin) ∧
        (∀ y n, ¬(y.toNat < s.cfg.i.ways ∧ n.toNat < s.cfg.i.sets) → m.entry y n = s.immu.entry y n) ∧
        ∀ cid e, tlbHits s.cfg s.cfg.i m cid e = [])

/-- R197: after a write of xTLBEIR with an effective address no valid entry of that TLB matches it in any context;
entries of other sets, the translate registers, the ATB, xMMUCR, xMMUPR and the history updates that are owed or in progress
(U29) are unchanged, and in the set nothing but V changes. That the context is not compared, so that an entry of any context
goes, and that other entries of the set may go too, are the choices of 92_eei_decisions.md D18 (notes/assumptions/18.md). -/
def Obligations.MtsprInvalidates : Prop :=
  ∀ (s : State) (a b : BitVec 5) (k : BitVec 16), s.sr.mode = .supervisor →
    (s.cfg.d.eirImpl = true → Names s a k .d 2 →
      ∃ m, exec (.mtspr a b k) s = .next (advance { s with dmmu := m, draws := s.draws + 1 }) ∧
        (∀ cid, tlbHits s.cfg s.cfg.d m cid (pageEa s.cfg.eaBits (readGpr s b)) = []) ∧
        (∀ y n, n ≠ tlbIndex s.cfg.d (pageEa s.cfg.eaBits (readGpr s b)) → m.entry y n = s.dmmu.entry y n) ∧
        (∀ y n, (m.entry y n).mr = { (s.dmmu.entry y n).mr with v := (m.entry y n).mr.v } ∧
          (m.entry y n).tr = (s.dmmu.entry y n).tr ∧ (m.entry y n).origin = (s.dmmu.entry y n).origin ∧
          ((m.entry y n).mr.v = true → (s.dmmu.entry y n).mr.v = true)) ∧
        m.atb = s.dmmu.atb ∧ m.tf = s.dmmu.tf ∧ m.ptbp = s.dmmu.ptbp ∧ m.pr = s.dmmu.pr ∧
        m.hist = s.dmmu.hist ∧ m.owed = s.dmmu.owed) ∧
    (s.cfg.i.eirImpl = true → Names s a k .i 2 →
      ∃ m, exec (.mtspr a b k) s = .next (advance { s with immu := m, draws := s.draws + 1 }) ∧
        (∀ cid, tlbHits s.cfg s.cfg.i m cid (pageEa s.cfg.eaBits (readGpr s b)) = []) ∧
        (∀ y n, n ≠ tlbIndex s.cfg.i (pageEa s.cfg.eaBits (readGpr s b)) → m.entry y n = s.immu.entry y n) ∧
        (∀ y n, (m.entry y n).mr = { (s.immu.entry y n).mr with v := (m.entry y n).mr.v } ∧
          (m.entry y n).tr = (s.immu.entry y n).tr ∧ (m.entry y n).origin = (s.immu.entry y n).origin ∧
          ((m.entry y n).mr.v = true → (s.immu.entry y n).mr.v = true)) ∧
        m.atb = s.immu.atb ∧ m.tf = s.immu.tf ∧ m.ptbp = s.immu.ptbp ∧ m.pr = s.immu.pr ∧
        m.hist = s.immu.hist ∧ m.owed = s.immu.owed)

/-- A write of a listed register that the implementation lacks is ignored: the choice of 92_eei_decisions.md D22
(notes/assumptions/20.md). -/
def Obligations.MtsprUnimplementedIgnored : Prop :=
  ∀ (s : State) (a b : BitVec 5) (k : BitVec 16) (x : Side) (n : Nat) (r : Spr), s.sr.mode = .supervisor →
    ListedNumber n → Names s a k x n → sprOf s.cfg (sprAt x n) = some r → r.implemented s.cfg = false →
    exec (.mtspr a b k) s = .next (advance s)

/-! ### User mode (R24, R183) -/

/-- In user mode, with USER_SPR_ACCESS at its default, both instructions are refused at every listed register: the
choice of 92_eei_decisions.md D20 (notes/assumptions/10.md). So is a read of a configuration register, which is the
model's choice (notes/assumptions/21.md). -/
def Obligations.UserAccessRefused : Prop :=
  ∀ (s : State) (d a b : BitVec 5) (k : BitVec 16), s.sr.mode = .user → s.cfg.userSprAccess = .refuse →
    (∀ (x : Side) (n : Nat), ListedNumber n → Names s a k x n →
      exec (.mfspr d a k) s = .refused .userSprAccess ∧ exec (.mtspr a b k) s = .refused .userSprAccess) ∧
    (s.cfg.cfgrImpl = true → (readGpr s a ||| k.setWidth 64).setWidth 16 = 3#16 ∨
        (readGpr s a ||| k.setWidth 64).setWidth 16 = 4#16 →
      exec (.mfspr d a k) s = .refused .userSprAccess)

/-- In user mode, where USER_SPR_ACCESS names an exception, both instructions take it: no MMU register, general
register or byte of memory changes; SR and the failing instruction's address, or that of the jump whose delay slot it stands
in (R223), are saved; supervisor mode, both MMUs off; the handler is at VECTOR_BASE plus the offset (D20 with R226 and R227; notes/assumptions/9.md and 10.md). So does a
read of a configuration register, which is the model's choice (notes/assumptions/21.md). In a configuration of the ranges
that the model allows the exception is none of the four of the MMU (R221). -/
def Obligations.UserAccessRaises : Prop :=
  ∀ (s : State) (d a b : BitVec 5) (k : BitVec 16) (v : BitVec 12), s.sr.mode = .user →
    s.cfg.userSprAccess = .raise v →
    (s.cfg.wf = true → ∀ e : MmuException, v ≠ e.offset) ∧ ∃ t,
      (∀ (x : Side) (n : Nat), ListedNumber n → Names s a k x n →
        exec (.mfspr d a k) s = .next t ∧ exec (.mtspr a b k) s = .next t) ∧
      (s.cfg.cfgrImpl = true → (readGpr s a ||| k.setWidth 64).setWidth 16 = 3#16 ∨
          (readGpr s a ||| k.setWidth 64).setWidth 16 = 4#16 →
        exec (.mfspr d a k) s = .next t) ∧
      t.dmmu = s.dmmu ∧ t.immu = s.immu ∧ t.gpr = s.gpr ∧ t.mem = s.mem ∧ t.cfg = s.cfg ∧
      t.esr = s.sr ∧ t.pc = truncEa s.cfg.eaBits (s.cfg.vectorBase ++ v) ∧ t.delaySlot = none ∧
      (s.delaySlot = none → t.epcr = truncEa s.cfg.eaBits s.pc ∧ t.sr.dsx = false) ∧
      (∀ d, s.delaySlot = some d → t.epcr = truncEa s.cfg.eaBits d.jump ∧ t.sr.dsx = true) ∧
      t.sr.mode = .supervisor ∧ t.sr.dme = false ∧ t.sr.ime = false ∧ t.sr.cid = s.sr.cid

/-- R183: in user mode no instruction changes an MMU register, and none lets a value of an MMU register out: two
states that differ only in the MMU registers come to the same outcome, and differ only there afterwards. -/
def Obligations.UserModeLearnsNothing : Prop :=
  ∀ (i : Instr) (s t : State), s.sr.mode = .user → SameButMmu s t →
    (∀ s', exec i s = .next s' → s'.dmmu = s.dmmu ∧ s'.immu = s.immu ∧
      ∃ t', exec i t = .next t' ∧ SameButMmu s' t' ∧ t'.dmmu = t.dmmu ∧ t'.immu = t.immu) ∧
    (∀ r, exec i s = .refused r → exec i t = .refused r) ∧ (∀ f, exec i s ≠ .fault f)

/-! ### Translation (20_memory.md) -/

/-- R117, R124 (k = 13), R126, R128, R129, R133: what an entry with PL1 = 0 matches with a 32-bit EA; and, with an EA of either
width, a permitted load or store whose 8 KByte page one DTLB way holds. The physical address is PPN and EA[12:0], cut to
PA_BITS; A is set, D too by a store; no other translate register, no match register but for LRU fields of the set, and nothing
outside the DTLB changes but what is owed to the PTE in memory (R131). -/
def Obligations.DtlbHitTranslates : Prop :=
  (∀ (c : Config) (m : TlbMatch) (cid : BitVec 4) (ea : Ea), c.eaBits = .ea32 → m.pl1 = false →
    (tlbMatches c m cid (pageEa c.eaBits ea) = true ↔ m.v = true ∧ m.cid = cid ∧ m.vpn = ea.extractLsb' 13 19)) ∧
  (∀ (s : State) (store : Bool) (ea : Ea) (y : BitVec 2) (t : TlbEntry DProt), s.sr.dme = true →
    y.toNat < s.cfg.d.ways → t = s.dmmu.entry y (tlbIndex s.cfg.d (pageEa s.cfg.eaBits ea)) →
    tlbMatches s.cfg t.mr (seenCid s.cfg s.sr.cid) (pageEa s.cfg.eaBits ea) = true → t.mr.pl1 = false →
    OnlyWay s.cfg .d s.dmmu (seenCid s.cfg s.sr.cid) (pageEa s.cfg.eaBits ea) y →
    dPermits store s.sr.mode t.tr.prot = true →
    ∃ m, dTranslate store ea s =
        .ok (truncPa s.cfg (t.tr.ppn ++ ea.extractLsb' 0 13), t.tr.attrs)
          { s with dmmu := m, draws := s.draws + 1 } ∧
      s.dmmu.AccessedAt (tlbIndex s.cfg.d (pageEa s.cfg.eaBits ea))
        (.tlb y (tlbIndex s.cfg.d (pageEa s.cfg.eaBits ea))) store m)

/-- R118 with R124 (k = 24): what an entry with PL1 = 1 matches with a 32-bit EA, EA[31:24] only; and, with an EA of either
width, a permitted load or store whose 16 MByte page one DTLB way holds. A is set, D too by a store; no other translate register,
no match register but for LRU fields of the set, and nothing outside the DTLB changes but what is owed to the PTE in memory
(R131). That the low 11 bits of the PPN are dropped, whatever they are, is the choice of 92_eei_decisions.md D14
(notes/assumptions/23.md: hardware that ORs them agrees where software writes them 0). -/
def Obligations.DtlbLevel1HitTranslates : Prop :=
  (∀ (c : Config) (m : TlbMatch) (cid : BitVec 4) (ea : Ea), c.eaBits = .ea32 → m.pl1 = true →
    (tlbMatches c m cid (pageEa c.eaBits ea) = true ↔
      m.v = true ∧ m.cid = cid ∧ m.vpn.extractLsb' 11 8 = ea.extractLsb' 24 8)) ∧
  (∀ (s : State) (store : Bool) (ea : Ea) (y : BitVec 2) (t : TlbEntry DProt), s.sr.dme = true →
    y.toNat < s.cfg.d.ways → t = s.dmmu.entry y (tlbIndex s.cfg.d (pageEa s.cfg.eaBits ea)) →
    tlbMatches s.cfg t.mr (seenCid s.cfg s.sr.cid) (pageEa s.cfg.eaBits ea) = true → t.mr.pl1 = true →
    OnlyWay s.cfg .d s.dmmu (seenCid s.cfg s.sr.cid) (pageEa s.cfg.eaBits ea) y →
    dPermits store s.sr.mode t.tr.prot = true →
    ∃ m, dTranslate store ea s =
        .ok (truncPa s.cfg (t.tr.ppn.extractLsb' 11 11 ++ ea.extractLsb' 0 24), t.tr.attrs)
          { s with dmmu := m, draws := s.draws + 1 } ∧
      s.dmmu.AccessedAt (tlbIndex s.cfg.d (pageEa s.cfg.eaBits ea))
        (.tlb y (tlbIndex s.cfg.d (pageEa s.cfg.eaBits ea))) store m)

/-- R120 (default ATB_VPN, D34) and R124: what an ATB entry matches with a 32-bit EA; and a permitted load, store or
fetch that no TLB way matches and one ATB entry does, with an EA of either width: a 16 MByte page (k = 24) where PS = 0,
a 32 GByte page (k = 35) where PS = 1. A is set, D too by a store, and nothing else changes but LRU fields of the set and what is owed to the PTE in
memory (R131). That
the low 11 bits of the PPN of a 16 MByte page are dropped, whatever they are, is the choice of 92_eei_decisions.md D14
(notes/assumptions/23.md). That an ATB entry keeps A and D
like a TLB entry is the choice of 92_eei_decisions.md D24 (notes/assumptions/25.md). -/
def Obligations.AtbHitTranslates : Prop :=
  (∀ (c : Config) (m : AtbMatch) (cid : BitVec 4) (ea : Ea), c.eaBits = .ea32 → c.atbVpn = .level1Top →
    (atbMatches c m cid (pageEa c.eaBits ea) = true ↔
      m = { v := true, cid := cid, ps := false, vpn := ea.extractLsb' 24 8 ++ 0#14 })) ∧
  (∀ (s : State) (store : Bool) (ea : Ea) (i : BitVec 2), s.sr.dme = true → i.toNat < s.cfg.d.atbEntries →
    NoWay s.cfg .d s.dmmu (seenCid s.cfg s.sr.cid) (pageEa s.cfg.eaBits ea) →
    atbMatches s.cfg (fileGet s.dmmu.atb i).mr (seenCid s.cfg s.sr.cid) (pageEa s.cfg.eaBits ea) = true →
    OnlyAtb s.cfg .d s.dmmu (seenCid s.cfg s.sr.cid) (pageEa s.cfg.eaBits ea) i →
    dPermits store s.sr.mode (fileGet s.dmmu.atb i).tr.prot = true →
    ∃ m, dTranslate store ea s =
        .ok (truncPa s.cfg
              (if (fileGet s.dmmu.atb i).mr.ps then ea.extractLsb' 0 35
                else (fileGet s.dmmu.atb i).tr.ppn.extractLsb' 11 11 ++ ea.extractLsb' 0 24),
            (fileGet s.dmmu.atb i).tr.attrs)
          { s with dmmu := m, draws := s.draws + 1 } ∧
      s.dmmu.AccessedAt (tlbIndex s.cfg.d (pageEa s.cfg.eaBits ea)) (.atb i) store m) ∧
  (∀ (s : State) (ea : Ea) (i : BitVec 2), s.sr.ime = true → i.toNat < s.cfg.i.atbEntries →
    NoWay s.cfg .i s.immu (seenCid s.cfg s.sr.cid) (pageEa s.cfg.eaBits ea) →
    atbMatches s.cfg (fileGet s.immu.atb i).mr (seenCid s.cfg s.sr.cid) (pageEa s.cfg.eaBits ea) = true →
    OnlyAtb s.cfg .i s.immu (seenCid s.cfg s.sr.cid) (pageEa s.cfg.eaBits ea) i →
    iPermits s.sr.mode (fileGet s.immu.atb i).tr.prot = true →
    ∃ m, iTranslate ea s =
        .ok (truncPa s.cfg
              (if (fileGet s.immu.atb i).mr.ps then ea.extractLsb' 0 35
                else (fileGet s.immu.atb i).tr.ppn.extractLsb' 11 11 ++ ea.extractLsb' 0 24),
            (fileGet s.immu.atb i).tr.attrs)
          { s with immu := m, draws := s.draws + 1 } ∧
      s.immu.AccessedAt (tlbIndex s.cfg.i (pageEa s.cfg.eaBits ea)) (.atb i) false m)

/-- R117, R118, R124 (k = 13 and k = 24), R126, R128: what an entry matches with a 32-bit EA; and, with an EA of either width, a
permitted fetch whose page, of 8 KByte or of 16 MByte (PL1 = 1), one ITLB way holds; A is set and D is not (R129), and nothing
else changes but LRU fields of the set and what is owed to the PTE in memory (R131). That the low 11 bits of the PPN of a
16 MByte page are dropped is the choice of 92_eei_decisions.md D14 (notes/assumptions/23.md). -/
def Obligations.ItlbHitTranslates : Prop :=
  (∀ (c : Config) (m : TlbMatch) (cid : BitVec 4) (ea : Ea), c.eaBits = .ea32 →
    (tlbMatches c m cid (pageEa c.eaBits ea) = true ↔
      m.v = true ∧ m.cid = cid ∧
        if m.pl1 = true then m.vpn.extractLsb' 11 8 = ea.extractLsb' 24 8 else m.vpn = ea.extractLsb' 13 19)) ∧
  (∀ (s : State) (ea : Ea) (y : BitVec 2) (t : TlbEntry IProt), s.sr.ime = true →
    y.toNat < s.cfg.i.ways → t = s.immu.entry y (tlbIndex s.cfg.i (pageEa s.cfg.eaBits ea)) →
    tlbMatches s.cfg t.mr (seenCid s.cfg s.sr.cid) (pageEa s.cfg.eaBits ea) = true →
    OnlyWay s.cfg .i s.immu (seenCid s.cfg s.sr.cid) (pageEa s.cfg.eaBits ea) y →
    iPermits s.sr.mode t.tr.prot = true →
    ∃ m, iTranslate ea s =
        .ok (truncPa s.cfg
              (if t.mr.pl1 then t.tr.ppn.extractLsb' 11 11 ++ ea.extractLsb' 0 24
                else t.tr.ppn ++ ea.extractLsb' 0 13), t.tr.attrs)
          { s with immu := m, draws := s.draws + 1 } ∧
      s.immu.AccessedAt (tlbIndex s.cfg.i (pageEa s.cfg.eaBits ea))
        (.tlb y (tlbIndex s.cfg.i (pageEa s.cfg.eaBits ea))) false m)

/-- R119: an access that two ways, or no way and two ATB entries, match has no meaning, on either side: the refusal is the
choice of 92_eei_decisions.md D9 (notes/assumptions/15.md). -/
def Obligations.TwoMatchesRefused : Prop :=
  ∀ (s : State) (store : Bool) (ea : Ea) (y z : BitVec 2), y ≠ z →
    (s.sr.dme = true → y.toNat < s.cfg.d.ways → z.toNat < s.cfg.d.ways →
      tlbMatches s.cfg (s.dmmu.entry y (tlbIndex s.cfg.d (pageEa s.cfg.eaBits ea))).mr (seenCid s.cfg s.sr.cid)
        (pageEa s.cfg.eaBits ea) = true →
      tlbMatches s.cfg (s.dmmu.entry z (tlbIndex s.cfg.d (pageEa s.cfg.eaBits ea))).mr (seenCid s.cfg s.sr.cid)
        (pageEa s.cfg.eaBits ea) = true →
      dTranslate store ea s = .stop .multipleMatch) ∧
    (s.sr.ime = true → y.toNat < s.cfg.i.ways → z.toNat < s.cfg.i.ways →
      tlbMatches s.cfg (s.immu.entry y (tlbIndex s.cfg.i (pageEa s.cfg.eaBits ea))).mr (seenCid s.cfg s.sr.cid)
        (pageEa s.cfg.eaBits ea) = true →
      tlbMatches s.cfg (s.immu.entry z (tlbIndex s.cfg.i (pageEa s.cfg.eaBits ea))).mr (seenCid s.cfg s.sr.cid)
        (pageEa s.cfg.eaBits ea) = true →
      iTranslate ea s = .stop .multipleMatch) ∧
    (s.sr.dme = true → NoWay s.cfg .d s.dmmu (seenCid s.cfg s.sr.cid) (pageEa s.cfg.eaBits ea) →
      y.toNat < s.cfg.d.atbEntries → z.toNat < s.cfg.d.atbEntries →
      atbMatches s.cfg (fileGet s.dmmu.atb y).mr (seenCid s.cfg s.sr.cid) (pageEa s.cfg.eaBits ea) = true →
      atbMatches s.cfg (fileGet s.dmmu.atb z).mr (seenCid s.cfg s.sr.cid) (pageEa s.cfg.eaBits ea) = true →
      dTranslate store ea s = .stop .multipleMatch) ∧
    (s.sr.ime = true → NoWay s.cfg .i s.immu (seenCid s.cfg s.sr.cid) (pageEa s.cfg.eaBits ea) →
      y.toNat < s.cfg.i.atbEntries → z.toNat < s.cfg.i.atbEntries →
      atbMatches s.cfg (fileGet s.immu.atb y).mr (seenCid s.cfg s.sr.cid) (pageEa s.cfg.eaBits ea) = true →
      atbMatches s.cfg (fileGet s.immu.atb z).mr (seenCid s.cfg s.sr.cid) (pageEa s.cfg.eaBits ea) = true →
      iTranslate ea s = .stop .multipleMatch)

/-- R121: where a TLB entry matches, the TLB is used and the ATB is not consulted: what the ATB holds makes no
difference to what the access comes to, and the access changes nothing of it. -/
def Obligations.TlbBeforeAtb : Prop :=
  ∀ (P : Type) (c : Config) (x : Side) (store : Bool) (ok : P → Bool) (mem : Memory) (cid : BitVec 4) (ea : Ea)
    (m : Mmu P) (draws : Nat) (atb : Vector (AtbEntry P) (2 ^ 2)) (y : BitVec 2), y.toNat < (c.mmu x).ways →
    tlbMatches c (m.entry y (tlbIndex (c.mmu x) (pageEa c.eaBits ea))).mr cid (pageEa c.eaBits ea) = true →
    (∀ m' k pa at', translate c x store ok mem cid ea m draws = .done m' k pa at' →
      m'.atb = m.atb ∧
        translate c x store ok mem cid ea { m with atb := atb } draws = .done { m' with atb := atb } k pa at') ∧
    (∀ m' k f, translate c x store ok mem cid ea m draws = .raise m' k f →
      m'.atb = m.atb ∧
        translate c x store ok mem cid ea { m with atb := atb } draws = .raise { m' with atb := atb } k f) ∧
    ∀ r, translate c x store ok mem cid ea m draws = .stop r →
      translate c x store ok mem cid ea { m with atb := atb } draws = .stop r

/-- R122 and R225 with software reload: an access that matches nothing raises DTLB Miss or ITLB Miss with its EA; no
register of the MMU and no byte of memory changes. -/
def Obligations.MissRaisesTlbMiss : Prop :=
  ∀ (s : State) (store : Bool) (ea : Ea),
    (s.sr.dme = true → s.cfg.d.hwReload = false →
      NoWay s.cfg .d s.dmmu (seenCid s.cfg s.sr.cid) (pageEa s.cfg.eaBits ea) →
      NoAtb s.cfg .d s.dmmu (seenCid s.cfg s.sr.cid) (pageEa s.cfg.eaBits ea) →
      dTranslate store ea s = .trap (raiseMmu .dtlbMiss ea s)) ∧
    (s.sr.ime = true → s.cfg.i.hwReload = false →
      NoWay s.cfg .i s.immu (seenCid s.cfg s.sr.cid) (pageEa s.cfg.eaBits ea) →
      NoAtb s.cfg .i s.immu (seenCid s.cfg s.sr.cid) (pageEa s.cfg.eaBits ea) →
      iTranslate ea s = .trap (raiseMmu .itlbMiss ea s))

/-- R225: where a half reloads in hardware, none of its accesses raises a TLB miss. -/
def Obligations.HardwareReloadNeverMisses : Prop :=
  ∀ (P : Type) (c : Config) (x : Side) (store : Bool) (ok : P → Bool) (mem : Memory) (cid : BitVec 4) (ea : Ea)
    (m m' : Mmu P) (draws k : Nat) (f : Failure), (c.mmu x).hwReload = true →
    translate c x store ok mem cid ea m draws = .raise m' k f → f = .pageFault

/-- R126 and R127: a prohibited load or store through a DTLB or a DATB entry raises Data Page Fault with its EA; memory
and the general registers are unchanged, and of the MMU only the A bit of the entry, and by a store its D bit, may have
been set (R130), and owed to the PTE in memory (R131). What the exception saves, the failing instruction's address and SR, is R222, R223 and R227's general
knowledge (notes/assumptions/9.md); that LRU stays follows R222 (notes/assumptions/26.md). That an ATB entry keeps A and D
like a TLB entry is the choice of 92_eei_decisions.md D24 (notes/assumptions/25.md). -/
def Obligations.ProhibitedAccessFaults : Prop :=
  (∀ (s : State) (store : Bool) (ea : Ea) (y : BitVec 2) (t : TlbEntry DProt), s.sr.dme = true →
    y.toNat < s.cfg.d.ways → t = s.dmmu.entry y (tlbIndex s.cfg.d (pageEa s.cfg.eaBits ea)) →
    tlbMatches s.cfg t.mr (seenCid s.cfg s.sr.cid) (pageEa s.cfg.eaBits ea) = true →
    OnlyWay s.cfg .d s.dmmu (seenCid s.cfg s.sr.cid) (pageEa s.cfg.eaBits ea) y →
    dPermits store s.sr.mode t.tr.prot = false →
    ∃ m, dTranslate store ea s =
        .trap (raiseMmu .dataPageFault ea { s with dmmu := m, draws := s.draws + 1 }) ∧
      s.dmmu.DeniedAt (.tlb y (tlbIndex s.cfg.d (pageEa s.cfg.eaBits ea))) store m) ∧
  (∀ (s : State) (store : Bool) (ea : Ea) (i : BitVec 2), s.sr.dme = true → i.toNat < s.cfg.d.atbEntries →
    NoWay s.cfg .d s.dmmu (seenCid s.cfg s.sr.cid) (pageEa s.cfg.eaBits ea) →
    atbMatches s.cfg (fileGet s.dmmu.atb i).mr (seenCid s.cfg s.sr.cid) (pageEa s.cfg.eaBits ea) = true →
    OnlyAtb s.cfg .d s.dmmu (seenCid s.cfg s.sr.cid) (pageEa s.cfg.eaBits ea) i →
    dPermits store s.sr.mode (fileGet s.dmmu.atb i).tr.prot = false →
    ∃ m, dTranslate store ea s =
        .trap (raiseMmu .dataPageFault ea { s with dmmu := m, draws := s.draws + 1 }) ∧
      s.dmmu.DeniedAt (.atb i) store m)

/-- R126 and R127 for a fetch, through an ITLB or an IATB entry: Instruction Page Fault with its EA, and of the MMU only the
A bit of the entry may have been set (R130), and owed to the PTE in memory (R131). What the exception saves is R222, R223 and R227's general knowledge
(notes/assumptions/9.md); that LRU stays follows R222 (notes/assumptions/26.md). That an ATB entry keeps A and D
like a TLB entry is the choice of 92_eei_decisions.md D24 (notes/assumptions/25.md). -/
def Obligations.ProhibitedFetchFaults : Prop :=
  (∀ (s : State) (ea : Ea) (y : BitVec 2) (t : TlbEntry IProt), s.sr.ime = true →
    y.toNat < s.cfg.i.ways → t = s.immu.entry y (tlbIndex s.cfg.i (pageEa s.cfg.eaBits ea)) →
    tlbMatches s.cfg t.mr (seenCid s.cfg s.sr.cid) (pageEa s.cfg.eaBits ea) = true →
    OnlyWay s.cfg .i s.immu (seenCid s.cfg s.sr.cid) (pageEa s.cfg.eaBits ea) y →
    iPermits s.sr.mode t.tr.prot = false →
    ∃ m, iTranslate ea s = .trap (raiseMmu .insnPageFault ea { s with immu := m, draws := s.draws + 1 }) ∧
      s.immu.DeniedAt (.tlb y (tlbIndex s.cfg.i (pageEa s.cfg.eaBits ea))) false m) ∧
  (∀ (s : State) (ea : Ea) (i : BitVec 2), s.sr.ime = true → i.toNat < s.cfg.i.atbEntries →
    NoWay s.cfg .i s.immu (seenCid s.cfg s.sr.cid) (pageEa s.cfg.eaBits ea) →
    atbMatches s.cfg (fileGet s.immu.atb i).mr (seenCid s.cfg s.sr.cid) (pageEa s.cfg.eaBits ea) = true →
    OnlyAtb s.cfg .i s.immu (seenCid s.cfg s.sr.cid) (pageEa s.cfg.eaBits ea) i →
    iPermits s.sr.mode (fileGet s.immu.atb i).tr.prot = false →
    ∃ m, iTranslate ea s = .trap (raiseMmu .insnPageFault ea { s with immu := m, draws := s.draws + 1 }) ∧
      s.immu.DeniedAt (.atb i) false m)

/-- R142: with an MMU off the physical address is the effective address cut to PA_BITS, nothing is raised, and no
register of the MMU changes. The rule is marked general knowledge there (D3, notes/assumptions/14.md). -/
def Obligations.OffMmuIsIdentity : Prop :=
  ∀ (s : State) (store : Bool) (ea : Ea),
    (s.sr.dme = false → ∃ at', dTranslate store ea s =
      .ok (truncPa s.cfg ((truncEa s.cfg.eaBits ea).setWidth 35), at') { s with draws := s.draws + 1 }) ∧
    (s.sr.ime = false → ∃ at', iTranslate ea s =
      .ok (truncPa s.cfg ((truncEa s.cfg.eaBits ea).setWidth 35), at') { s with draws := s.draws + 1 })

/-- R129 for accesses that reload nothing: a load or a fetch sets no D bit anywhere, whatever it comes to.
That an ATB entry keeps A and D
like a TLB entry is the choice of 92_eei_decisions.md D24 (notes/assumptions/25.md). -/
def Obligations.OnlyStoresDirty : Prop :=
  ∀ (s u : State) (ea : Ea) (p : Pa × Attrs), s.cfg.wf = true → s.cfg.d.hwReload = false → s.cfg.i.hwReload = false →
    (dTranslate false ea s = .ok p u ∨ dTranslate false ea s = .trap u ∨
      iTranslate ea s = .ok p u ∨ iTranslate ea s = .trap u) →
    (∀ r, (u.dmmu.trOf r).d = (s.dmmu.trOf r).d) ∧ ∀ r, (u.immu.trOf r).d = (s.immu.trOf r).d

/-- R128 and R129 for accesses that reload nothing, because the half reloads in software or because the address matches an
entry: no such access clears an A or a D bit or changes any other field of a translate register, and none changes the other
half. That an ATB entry keeps A and D like a TLB entry is the choice of 92_eei_decisions.md D24 (notes/assumptions/25.md). -/
def Obligations.HistoryNeverCleared : Prop :=
  ∀ (s u : State) (store : Bool) (ea : Ea) (p : Pa × Attrs), s.cfg.wf = true →
    (s.cfg.d.hwReload = false ∨
        lookup s.cfg s.cfg.d s.dmmu (seenCid s.cfg s.sr.cid) (pageEa s.cfg.eaBits ea) ≠ .miss →
      dTranslate store ea s = .ok p u ∨ dTranslate store ea s = .trap u →
      (∀ r, HistoryGrows (s.dmmu.trOf r) (u.dmmu.trOf r)) ∧ u.immu = s.immu) ∧
    (s.cfg.i.hwReload = false ∨
        lookup s.cfg s.cfg.i s.immu (seenCid s.cfg s.sr.cid) (pageEa s.cfg.eaBits ea) ≠ .miss →
      iTranslate ea s = .ok p u ∨ iTranslate ea s = .trap u →
      (∀ r, HistoryGrows (s.immu.trOf r) (u.immu.trOf r)) ∧ u.dmmu = s.dmmu)

/-! ### The hardware search (R108 to R114) -/

/-- One step of the pseudocode of R110 and R111: the PTE of index ix in the table at base. -/
def searchStep (c : Config) (mem : Memory) (base ix : Nat) (level : PageLevel) (next : Nat → Search) : Search :=
  if 2 ^ c.paBits < base + 4 * ix + 4 then .stop .tableAddress
  else if (unpackPte c.layout.pte (physRead32 c mem (base + 4 * ix))).ppi = 0 then .noPte
  else if (unpackPte c.layout.pte (physRead32 c mem (base + 4 * ix))).l = true then
    .found (unpackPte c.layout.pte (physRead32 c mem (base + 4 * ix))) level (base + 4 * ix)
  else next ((unpackPte c.layout.pte (physRead32 c mem (base + 4 * ix))).ppn.toNat * 2 ^ 13)

/-- R110 and R111 with the default base of R109: the search, written out as there for each width of the EA. The base is the
choice of 92_eei_decisions.md D10 and D11 (notes/assumptions/8.md); that a table address beyond PA_BITS and L = 0 in the last
table are refused is 93_implementation_defined.md U13 and U5. -/
def Obligations.SearchFollowsTables : Prop :=
  ∀ (c : Config) (mem : Memory) (ptbp : BitVec 22) (cid : BitVec 4) (ea : Ea), c.ptBase = .kilobytes →
    (c.eaBits = .ea32 → search c mem ptbp cid (pageEa c.eaBits ea) =
      searchStep c mem (ptbp.toNat * 2 ^ 10) (ea.extractLsb' 24 8).toNat .l1 fun b2 =>
        searchStep c mem b2 (ea.extractLsb' 13 11).toNat .l2 fun _ => .stop .malformedTable) ∧
    (c.eaBits = .ea64 → search c mem ptbp cid (pageEa c.eaBits ea) =
      searchStep c mem (ptbp.toNat * 2 ^ 10) (ea.extractLsb' 35 11).toNat .l0 fun b1 =>
        searchStep c mem b1 (ea.extractLsb' 24 11).toNat .l1 fun b2 =>
          searchStep c mem b2 (ea.extractLsb' 13 11).toNat .l2 fun _ => .stop .malformedTable)

/-- R112: with hardware reload an access that matches nothing, and for which the search finds no PTE, raises Data
Page Fault or Instruction Page Fault; nothing is written to a TLB or ATB. -/
def Obligations.NoPteRaisesPageFault : Prop :=
  ∀ (s : State) (store : Bool) (ea : Ea),
    (s.sr.dme = true → s.cfg.d.hwReload = true →
      NoWay s.cfg .d s.dmmu (seenCid s.cfg s.sr.cid) (pageEa s.cfg.eaBits ea) →
      NoAtb s.cfg .d s.dmmu (seenCid s.cfg s.sr.cid) (pageEa s.cfg.eaBits ea) →
      search s.cfg s.mem s.dmmu.ptbp (seenCid s.cfg s.sr.cid) (pageEa s.cfg.eaBits ea) = .noPte →
      dTranslate store ea s = .trap (raiseMmu .dataPageFault ea s)) ∧
    (s.sr.ime = true → s.cfg.i.hwReload = true →
      NoWay s.cfg .i s.immu (seenCid s.cfg s.sr.cid) (pageEa s.cfg.eaBits ea) →
      NoAtb s.cfg .i s.immu (seenCid s.cfg s.sr.cid) (pageEa s.cfg.eaBits ea) →
      search s.cfg s.mem s.immu.ptbp (seenCid s.cfg s.sr.cid) (pageEa s.cfg.eaBits ea) = .noPte →
      iTranslate ea s = .trap (raiseMmu .insnPageFault ea s))

/-- R113 and step 3 of R140, "now exactly the new entry matches": where an address matched nothing, the entry that an
install writes for it is the one that matches afterwards, as a page of the level that was found. -/
def Obligations.InstalledEntryIsTheMatch : Prop :=
  ∀ (P : Type) (c : Config) (x : Side) (m m' : Mmu P) (cid : BitVec 4) (e : PageEa) (pte : Pte) (level : PageLevel)
    (pa : Nat) (free : BitVec 64) (r : EntryRef), c.wf = true → level ∈ (searchPath c.eaBits e).map Prod.fst →
    lookup c (c.mmu x) m cid e = .miss → install c x m cid e pte level pa free = some (m', r) →
    lookup c (c.mmu x) m' cid e = .hit r ∧ m'.levelOf r = level

/-- R113: the translate register that an install writes holds the attributes, A and D of the PTE and the protection
bits of its group of xMMUPR; every other entry keeps its registers. That a PPN wider than the field loses its upper bits is
the choice of 92_eei_decisions.md D15 (notes/assumptions/23.md; no difference where the PPN fits the field). -/
def Obligations.InstallCopiesPte : Prop :=
  ∀ (P : Type) (c : Config) (x : Side) (m m' : Mmu P) (cid : BitVec 4) (e : PageEa) (pte : Pte) (level : PageLevel)
    (pa : Nat) (free : BitVec 64) (r : EntryRef), install c x m cid e pte level pa free = some (m', r) →
    (m'.trOf r).attrs = pte.attrs ∧ (m'.trOf r).a = pte.a ∧ (m'.trOf r).d = pte.d ∧
    (m'.trOf r).prot = groupGet m.pr pte.ppi ∧
    (m'.trOf r).ppn = cutPpn (ppnWidthAt c.layout x r) pte.ppn ∧
    (∀ y n, r ≠ .tlb y n → m'.entry y n = m.entry y n) ∧
    (∀ i, r ≠ .atb i → fileGet m'.atb i = fileGet m.atb i) ∧ m'.originOf r = some (BitVec.ofNat 35 pa) ∧
    m'.tf = m.tf ∧ m'.ptbp = m.ptbp ∧ m'.pr = m.pr ∧ m'.hist = m.hist ∧ m'.owed = m.owed

/-- R122 with R110, R111, R113 and R126: with hardware reload an access that matches nothing, and for which the search
finds a page that the implementation has a place for, is checked against the PTE's group of xMMUPR. Permitted, it has the
attributes of the PTE and goes to the page by its level, and the entry it installed has A set, D too by a store; prohibited,
it raises a page fault, and of the entry's A bit, and by a store its D bit, more may be set than the PTE had (R130). That
the PPN is cut to the field of the entry is the choice of 92_eei_decisions.md D15, and that its low 11 bits are dropped for
a 16 MByte page that of D14 (notes/assumptions/23.md); that the entry just installed is the one used is DEDUCED from R140
(notes/assumptions/34.md); what the exception saves is notes/assumptions/9.md. The reload agent's own step, for any address at
any time (R114): with software reload it does nothing; with hardware reload a search that finds no PTE changes nothing (R112),
one without a meaning is refused, and a page is installed, whether or not an entry matches the address already
(notes/assumptions/16.md), or refused where there is no place for it (92_eei_decisions.md D31, notes/assumptions/32.md). -/
def Obligations.ReloadTranslates : Prop :=
  (∀ (s : State) (store : Bool) (ea : Ea) (pte : Pte) (level : PageLevel) (pa : Nat), s.cfg.wf = true →
    s.sr.dme = true → s.cfg.d.hwReload = true → HasPlace s.cfg.d level →
    NoWay s.cfg .d s.dmmu (seenCid s.cfg s.sr.cid) (pageEa s.cfg.eaBits ea) →
    NoAtb s.cfg .d s.dmmu (seenCid s.cfg s.sr.cid) (pageEa s.cfg.eaBits ea) →
    search s.cfg s.mem s.dmmu.ptbp (seenCid s.cfg s.sr.cid) (pageEa s.cfg.eaBits ea) = .found pte level pa →
    ∃ m r,
      s.dmmu.InstalledAt s.cfg .d (seenCid s.cfg s.sr.cid) (pageEa s.cfg.eaBits ea) level
        (BitVec.ofNat 35 pa) r m ∧
      (dPermits store s.sr.mode (groupGet s.dmmu.pr pte.ppi) = true →
        dTranslate store ea s =
          .ok (truncPa s.cfg (match level with
                | .l2 => cutPpn (ppnWidthAt s.cfg.layout .d r) pte.ppn ++ ea.extractLsb' 0 13
                | .l1 => (cutPpn (ppnWidthAt s.cfg.layout .d r) pte.ppn).extractLsb' 11 11 ++ ea.extractLsb' 0 24
                | .l0 => ea.extractLsb' 0 35), pte.attrs)
            { s with dmmu := m, draws := s.draws + 2 } ∧
        m.owed = s.dmmu.owed ++ [{ pa := BitVec.ofNat 35 pa, a := true, d := store }] ∧
        m.trOf r =
          { attrs := pte.attrs, a := true, d := pte.d || store, prot := groupGet s.dmmu.pr pte.ppi
            ppn := cutPpn (ppnWidthAt s.cfg.layout .d r) pte.ppn }) ∧
      (dPermits store s.sr.mode (groupGet s.dmmu.pr pte.ppi) = false →
        dTranslate store ea s = .trap (raiseMmu .dataPageFault ea { s with dmmu := m, draws := s.draws + 2 }) ∧
        HistoryGrows
          { attrs := pte.attrs, a := pte.a, d := pte.d, prot := groupGet s.dmmu.pr pte.ppi
            ppn := cutPpn (ppnWidthAt s.cfg.layout .d r) pte.ppn } (m.trOf r) ∧
        (store = false → (m.trOf r).d = pte.d))) ∧
  (∀ (s : State) (ea : Ea) (pte : Pte) (level : PageLevel) (pa : Nat), s.cfg.wf = true →
    s.sr.ime = true → s.cfg.i.hwReload = true → HasPlace s.cfg.i level →
    NoWay s.cfg .i s.immu (seenCid s.cfg s.sr.cid) (pageEa s.cfg.eaBits ea) →
    NoAtb s.cfg .i s.immu (seenCid s.cfg s.sr.cid) (pageEa s.cfg.eaBits ea) →
    search s.cfg s.mem s.immu.ptbp (seenCid s.cfg s.sr.cid) (pageEa s.cfg.eaBits ea) = .found pte level pa →
    ∃ m r,
      s.immu.InstalledAt s.cfg .i (seenCid s.cfg s.sr.cid) (pageEa s.cfg.eaBits ea) level
        (BitVec.ofNat 35 pa) r m ∧
      (iPermits s.sr.mode (groupGet s.immu.pr pte.ppi) = true →
        iTranslate ea s =
          .ok (truncPa s.cfg (match level with
                | .l2 => cutPpn (ppnWidthAt s.cfg.layout .i r) pte.ppn ++ ea.extractLsb' 0 13
                | .l1 => (cutPpn (ppnWidthAt s.cfg.layout .i r) pte.ppn).extractLsb' 11 11 ++ ea.extractLsb' 0 24
                | .l0 => ea.extractLsb' 0 35), pte.attrs)
            { s with immu := m, draws := s.draws + 2 } ∧
        m.owed = s.immu.owed ++ [{ pa := BitVec.ofNat 35 pa, a := true, d := false }] ∧
        m.trOf r =
          { attrs := pte.attrs, a := true, d := pte.d, prot := groupGet s.immu.pr pte.ppi
            ppn := cutPpn (ppnWidthAt s.cfg.layout .i r) pte.ppn }) ∧
      (iPermits s.sr.mode (groupGet s.immu.pr pte.ppi) = false →
        iTranslate ea s = .trap (raiseMmu .insnPageFault ea { s with immu := m, draws := s.draws + 2 }) ∧
        HistoryGrows
          { attrs := pte.attrs, a := pte.a, d := pte.d, prot := groupGet s.immu.pr pte.ppi
            ppn := cutPpn (ppnWidthAt s.cfg.layout .i r) pte.ppn } (m.trOf r) ∧
        (m.trOf r).d = pte.d)) ∧
  (∀ (s : State) (ea : Ea) (rest : List Input), s.cfg.wf = true →
    (s.cfg.d.hwReload = false →
      step { s with inbox := .reload .d ea :: rest } = .next { s with inbox := rest }) ∧
    (s.cfg.d.hwReload = true →
      (search s.cfg s.mem s.dmmu.ptbp (seenCid s.cfg s.sr.cid) (pageEa s.cfg.eaBits ea) = .noPte →
        step { s with inbox := .reload .d ea :: rest } = .next { s with inbox := rest, draws := s.draws + 1 }) ∧
      (∀ q, search s.cfg s.mem s.dmmu.ptbp (seenCid s.cfg s.sr.cid) (pageEa s.cfg.eaBits ea) = .stop q →
        step { s with inbox := .reload .d ea :: rest } = .refused q) ∧
      ∀ pte level pa,
        search s.cfg s.mem s.dmmu.ptbp (seenCid s.cfg s.sr.cid) (pageEa s.cfg.eaBits ea) = .found pte level pa →
        (¬HasPlace s.cfg.d level →
          step { s with inbox := .reload .d ea :: rest } = .refused .noPlaceForPage) ∧
        (HasPlace s.cfg.d level →
          ∃ m r,
            step { s with inbox := .reload .d ea :: rest } =
              .next { s with inbox := rest, dmmu := m, draws := s.draws + 1 } ∧
            s.dmmu.ReloadedAt s.cfg .d (seenCid s.cfg s.sr.cid) (pageEa s.cfg.eaBits ea) pte level
              (BitVec.ofNat 35 pa) r m)) ∧
    (s.cfg.i.hwReload = false →
      step { s with inbox := .reload .i ea :: rest } = .next { s with inbox := rest }) ∧
    (s.cfg.i.hwReload = true →
      (search s.cfg s.mem s.immu.ptbp (seenCid s.cfg s.sr.cid) (pageEa s.cfg.eaBits ea) = .noPte →
        step { s with inbox := .reload .i ea :: rest } = .next { s with inbox := rest, draws := s.draws + 1 }) ∧
      (∀ q, search s.cfg s.mem s.immu.ptbp (seenCid s.cfg s.sr.cid) (pageEa s.cfg.eaBits ea) = .stop q →
        step { s with inbox := .reload .i ea :: rest } = .refused q) ∧
      ∀ pte level pa,
        search s.cfg s.mem s.immu.ptbp (seenCid s.cfg s.sr.cid) (pageEa s.cfg.eaBits ea) = .found pte level pa →
        (¬HasPlace s.cfg.i level →
          step { s with inbox := .reload .i ea :: rest } = .refused .noPlaceForPage) ∧
        (HasPlace s.cfg.i level →
          ∃ m r,
            step { s with inbox := .reload .i ea :: rest } =
              .next { s with inbox := rest, immu := m, draws := s.draws + 1 } ∧
            s.immu.ReloadedAt s.cfg .i (seenCid s.cfg s.sr.cid) (pageEa s.cfg.eaBits ea) pte level
              (BitVec.ofNat 35 pa) r m)))

/-- R117 and R273: an access finds nothing where every valid entry is of another context. -/
def Obligations.OtherContextsNeverMatch : Prop :=
  ∀ (P : Type) (c : Config) (mc : MmuConfig) (m : Mmu P) (cid : BitVec 4) (e : PageEa),
    (∀ y n, (m.entry y n).mr.v = true → (m.entry y n).mr.cid ≠ cid) →
    (∀ i, (fileGet m.atb i).mr.v = true → (fileGet m.atb i).mr.cid ≠ cid) → lookup c mc m cid e = .miss

/-! ### Exceptions (60_exceptions.md) -/

/-- R220 and R226: the four exceptions enter at VECTOR_BASE plus 0x300, 0x400, 0x900 and 0xA00, so the low 12 bits of
the handler's address are these whatever the base is. -/
def Obligations.ExceptionVectors : Prop :=
  ∀ (ea : Ea) (s : State),
    (raiseMmu .dataPageFault ea s).pc.extractLsb' 0 12 = 0x300#12 ∧
    (raiseMmu .insnPageFault ea s).pc.extractLsb' 0 12 = 0x400#12 ∧
    (raiseMmu .dtlbMiss ea s).pc.extractLsb' 0 12 = 0x900#12 ∧
    (raiseMmu .itlbMiss ea s).pc.extractLsb' 0 12 = 0xA00#12 ∧
    ∀ e, (raiseMmu e ea s).pc = truncEa s.cfg.eaBits (s.cfg.vectorBase ++ e.offset)

/-- What taking an MMU exception saves and changes, and what it leaves alone. R222, R223 and R227 mark the names and
the effects on SR as general knowledge (notes/assumptions/9.md). -/
def Obligations.ExceptionEntrySavesState : Prop :=
  ∀ (e : MmuException) (ea : Ea) (s : State),
    (raiseMmu e ea s).eear = truncEa s.cfg.eaBits ea ∧ (raiseMmu e ea s).esr = s.sr ∧
    (s.delaySlot = none → (raiseMmu e ea s).epcr = truncEa s.cfg.eaBits s.pc ∧ (raiseMmu e ea s).sr.dsx = false) ∧
    (∀ d, s.delaySlot = some d →
      (raiseMmu e ea s).epcr = truncEa s.cfg.eaBits d.jump ∧ (raiseMmu e ea s).sr.dsx = true) ∧
    (raiseMmu e ea s).sr.mode = .supervisor ∧ (raiseMmu e ea s).sr.dme = false ∧
    (raiseMmu e ea s).sr.ime = false ∧ (raiseMmu e ea s).sr.ie = false ∧ (raiseMmu e ea s).sr.cid = s.sr.cid ∧
    (raiseMmu e ea s).gpr = s.gpr ∧ (raiseMmu e ea s).mem = s.mem ∧ (raiseMmu e ea s).dmmu = s.dmmu ∧
    (raiseMmu e ea s).immu = s.immu

/-- Returning right after an exception puts SR back, and the program counter where the failing instruction runs again: at the
instruction, or, where it stood in a delay slot, at the jump (R223, R224; the return is R227's general knowledge,
notes/assumptions/9.md). As an act of the core alone, and as an instruction, which is fetched first from the handler's
address. -/
def Obligations.ReturnRestarts : Prop :=
  ∀ (e : MmuException) (ea pc : Ea) (s : State) (rest : List Input),
    (s.delaySlot = none ∧ pc = s.pc) ∨ (∃ d, s.delaySlot = some d ∧ pc = d.jump) → FitsEa s.cfg pc →
    step { raiseMmu e ea s with inbox := .core .returnFromException :: rest } =
      .next { s with
        pc := pc, delaySlot := none, esr := s.sr, epcr := pc, eear := truncEa s.cfg.eaBits ea, inbox := rest } ∧
    ∃ b n, step { raiseMmu e ea s with inbox := .insn .returnFromException :: rest } =
      .next { s with
        pc := pc, delaySlot := none, esr := s.sr, epcr := pc, eear := truncEa s.cfg.eaBits ea, inbox := rest
        bus := b, draws := n }

/-- R230 and R141: every instruction outside the opcode table is fetched first. Where its fetch raises, that is all that
happens, whatever its data address or its effect; where its fetch goes through and it makes no data access, it has its effect
in the state that the fetch leaves. That its word is not examined is the model's choice (notes/assumptions/12.md). -/
def Obligations.FetchComesFirst : Prop :=
  ∀ (s : State) (ea : Ea) (n : Nat) (dest : Option (BitVec 5 × Ea)) (bytes : List Byte) (act : CoreAct)
    (rest : List Input),
    (∀ t, fetchInsn { s with inbox := rest } = .trap t →
      step { s with inbox := .load ea n dest :: rest } = .next t ∧
      step { s with inbox := .store ea bytes :: rest } = .next t ∧
      step { s with inbox := .insn act :: rest } = .next t) ∧
    (∀ b u, fetchInsn { s with inbox := rest } = .ok b u →
      step { s with inbox := .insn act :: rest } =
        .next (coreAct act (if act.sequential = true then advance u else u)))

/-- R222: a load or a store whose access raises changes no byte of memory and no general register, its destination
register among them; so does one that crosses pages where any of its parts raises (notes/assumptions/12.md). -/
def Obligations.FailedAccessLeavesMemory : Prop :=
  ∀ (s u t : State) (b bytes : List Byte) (ea : Ea) (n : Nat) (dest : Option (BitVec 5 × Ea)) (rest : List Input),
    fetchInsn { s with inbox := rest } = .ok b u →
    ((inOnePage ea n = true ∧ dTranslate false ea u = .trap t) ∨ translateAccess false ea n u = .trap t →
      step { s with inbox := .load ea n dest :: rest } = .next t ∧ t.mem = s.mem ∧ t.gpr = s.gpr) ∧
    ((inOnePage ea bytes.length = true ∧ dTranslate true ea u = .trap t) ∨
        translateAccess true ea bytes.length u = .trap t →
      step { s with inbox := .store ea bytes :: rest } = .next t ∧ t.mem = s.mem ∧ t.gpr = s.gpr)

/-! ### Memory -/

/-- A store of the core writes its bytes where it was translated to and no other byte; no general register changes. The
spec leaves what a store does at its physical address to the instruction set (R8): that an access in one page is one
translation, its bytes at successive addresses modulo 2^PA_BITS, and that one across pages is translated in parts, are the
model's choices (notes/assumptions/12.md and 23.md). Where two parts meet in memory, the later bytes stay. -/
def Obligations.StoreWritesItsBytes : Prop :=
  ∀ (s u w : State) (b bytes : List Byte) (ea : Ea) (rest : List Input), s.Inv →
    fetchInsn { s with inbox := rest } = .ok b u →
    (∀ (pa : Pa) (at' : Attrs), 13 ≤ s.cfg.paBits → inOnePage ea bytes.length = true →
      dTranslate true ea u = .ok (pa, at') w →
      ∃ t, step { s with inbox := .store ea bytes :: rest } = .next t ∧ t.gpr = s.gpr ∧
        (∀ k (hk : k < bytes.length), t.mem.read ((pa.toNat + k) % 2 ^ s.cfg.paBits) = bytes[k]) ∧
        (∀ x, (∀ k, k < bytes.length → x ≠ (pa.toNat + k) % 2 ^ s.cfg.paBits) → t.mem.read x = s.mem.read x)) ∧
    (∀ parts : List Part, translateAccess true ea bytes.length u = .ok parts w →
      ∃ t, step { s with inbox := .store ea bytes :: rest } = .next t ∧ t.gpr = s.gpr ∧
        (∀ k, k < bytes.length → ∃ x, byteAddress s.cfg parts k = some x) ∧
        (∀ k (hk : k < bytes.length) (x : Nat), byteAddress s.cfg parts k = some x →
          (∀ j, k < j → j < bytes.length → byteAddress s.cfg parts j ≠ some x) → t.mem.read x = bytes[k]) ∧
        (∀ x, (∀ k, k < bytes.length → byteAddress s.cfg parts k ≠ some x) → t.mem.read x = s.mem.read x))

/-- A load of the core delivers the bytes where it was translated to, with the attributes of the page (R133), writes its
destination register if it names one, and changes no byte of memory. The spec leaves what a load does at its physical
address to the instruction set (R8): the bus record, bytes at successive addresses modulo 2^PA_BITS, the value of the
destination register as the input has it, and the parts of an access across pages are the model's choices
(notes/assumptions/12.md and 23.md). -/
def Obligations.LoadDeliversBytes : Prop :=
  ∀ (s u w : State) (b : List Byte) (ea : Ea) (n : Nat) (dest : Option (BitVec 5 × Ea)) (rest : List Input),
    fetchInsn { s with inbox := rest } = .ok b u →
    (∀ (pa : Pa) (at' : Attrs), inOnePage ea n = true → dTranslate false ea u = .ok (pa, at') w →
      translateAccess false ea n u =
        .ok [{ ea := truncEa s.cfg.eaBits ea, pa := pa, attrs := at', size := n }] w) ∧
    (∀ parts : List Part, translateAccess false ea n u = .ok parts w →
      ∃ t, step { s with inbox := .load ea n dest :: rest } = .next t ∧ t.mem = s.mem ∧
        (dest = none → t.gpr = s.gpr) ∧
        (∀ r v, dest = some (r, v) → t.gpr = fileSet s.gpr r (truncEa s.cfg.eaBits v)) ∧
        t.bus.length = parts.length ∧
        ∀ i (hi : i < parts.length), ∃ data, t.bus[i]? = some
            { kind := .load, ea := parts[i].ea, pa := parts[i].pa, attrs := parts[i].attrs, data := data } ∧
          data.length = parts[i].size ∧
          ∀ k (hk : k < data.length), data[k] = s.mem.read ((parts[i].pa.toNat + k) % 2 ^ s.cfg.paBits))

/-- R146: a write to memory by another processor changes no register of the MMU, and a history update that the hardware writes
(R131) no match or translate register; a store of this processor changes no
match register but for LRU and no translate register but for A and D, where no half reloads in hardware. -/
def Obligations.TlbsNotCoherent : Prop :=
  (∀ (s t : State) (a : Nat) (bytes : List Byte) (rest : List Input),
    step { s with inbox := .foreignWrite a bytes :: rest } = .next t → t.dmmu = s.dmmu ∧ t.immu = s.immu) ∧
  (∀ (s t : State) (x : Side) (k : Nat) (rest : List Input),
    step { s with inbox := .historyWrite x k :: rest } = .next t →
    t.dmmu.tlb = s.dmmu.tlb ∧ t.dmmu.atb = s.dmmu.atb ∧ t.immu.tlb = s.immu.tlb ∧ t.immu.atb = s.immu.atb) ∧
  (∀ (s t : State) (ea : Ea) (bytes : List Byte) (rest : List Input), s.cfg.wf = true →
    s.cfg.d.hwReload = false → s.cfg.i.hwReload = false →
    step { s with inbox := .store ea bytes :: rest } = .next t →
    (∀ y n, SameButLru (s.dmmu.entry y n).mr (t.dmmu.entry y n).mr ∧
      SameButLru (s.immu.entry y n).mr (t.immu.entry y n).mr) ∧
    (∀ i, (fileGet t.dmmu.atb i).mr = (fileGet s.dmmu.atb i).mr ∧
      (fileGet t.immu.atb i).mr = (fileGet s.immu.atb i).mr) ∧
    ∀ r, HistoryGrows (s.dmmu.trOf r) (t.dmmu.trOf r) ∧ HistoryGrows (s.immu.trOf r) (t.immu.trOf r))

/-- R131: with hardware reload, a history update that an access has left owed and that nothing comes between sets in the PTE in
memory those bits of it that the hardware takes, and no other bit, whatever has become of the entry since (U29); where the word
there is not, or no longer, the PTE of a page (L = 0, or invalid), it sets nothing and stays owed (R131, U20; for an invalid PTE
and for an entry that has been replaced notes/assumptions/17.md). In both halves. -/
def Obligations.HistoryReachesPte : Prop :=
  ∀ (s : State) (k : Nat) (o : HistOwed) (a d : Bool) (rest : List Input), s.Inv →
    (s.cfg.d.hwReload = true → s.dmmu.owed[k]? = some o →
      ((unpackPte s.cfg.layout.pte (physRead32 s.cfg s.mem o.pa.toNat)).l = true →
        (unpackPte s.cfg.layout.pte (physRead32 s.cfg s.mem o.pa.toNat)).ppi ≠ 0 →
        (o.a = true ∧ a = true) ∨ (o.d = true ∧ d = true) →
        ∃ t1 t2, step { s with
            inbox := .historyRead .d k a d :: .historyWrite .d s.dmmu.hist.length :: rest } = .next t1 ∧
          t1.mem = s.mem ∧
          t1.dmmu.owed[k]? = some { o with a := o.a && !a, d := o.d && !d } ∧ step t1 = .next t2 ∧
          physRead32 s.cfg t2.mem o.pa.toNat =
            (physRead32 s.cfg s.mem o.pa.toNat ||| putBit s.cfg.layout.pte.a (o.a && a) |||
              putBit s.cfg.layout.pte.d (o.d && d)) ∧
          (∀ x, x < o.pa.toNat ∨ o.pa.toNat + 4 ≤ x → t2.mem.read x = s.mem.read x) ∧
          t2.dmmu.hist = s.dmmu.hist) ∧
      ((unpackPte s.cfg.layout.pte (physRead32 s.cfg s.mem o.pa.toNat)).l = false ∨
          (unpackPte s.cfg.layout.pte (physRead32 s.cfg s.mem o.pa.toNat)).ppi = 0 →
        step { s with inbox := .historyRead .d k a d :: rest } = .next { s with inbox := rest })) ∧
    (s.cfg.i.hwReload = true → s.immu.owed[k]? = some o →
      ((unpackPte s.cfg.layout.pte (physRead32 s.cfg s.mem o.pa.toNat)).l = true →
        (unpackPte s.cfg.layout.pte (physRead32 s.cfg s.mem o.pa.toNat)).ppi ≠ 0 →
        (o.a = true ∧ a = true) ∨ (o.d = true ∧ d = true) →
        ∃ t1 t2, step { s with
            inbox := .historyRead .i k a d :: .historyWrite .i s.immu.hist.length :: rest } = .next t1 ∧
          t1.mem = s.mem ∧
          t1.immu.owed[k]? = some { o with a := o.a && !a, d := o.d && !d } ∧ step t1 = .next t2 ∧
          physRead32 s.cfg t2.mem o.pa.toNat =
            (physRead32 s.cfg s.mem o.pa.toNat ||| putBit s.cfg.layout.pte.a (o.a && a) |||
              putBit s.cfg.layout.pte.d (o.d && d)) ∧
          (∀ x, x < o.pa.toNat ∨ o.pa.toNat + 4 ≤ x → t2.mem.read x = s.mem.read x) ∧
          t2.immu.hist = s.immu.hist) ∧
      ((unpackPte s.cfg.layout.pte (physRead32 s.cfg s.mem o.pa.toNat)).l = false ∨
          (unpackPte s.cfg.layout.pte (physRead32 s.cfg s.mem o.pa.toNat)).ppi = 0 →
        step { s with inbox := .historyRead .i k a d :: rest } = .next { s with inbox := rest }))

/-- R131 and R102: with software reload the hardware never writes memory: a step that is no store of the core and no
write of another processor leaves it as it was. -/
def Obligations.SoftwareReloadNeverWritesMemory : Prop :=
  ∀ (s t : State), s.cfg.d.hwReload = false → s.cfg.i.hwReload = false → step s = .next t →
    (∀ ea bytes rest, s.inbox ≠ .store ea bytes :: rest) →
    (∀ a bytes rest, s.inbox ≠ .foreignWrite a bytes :: rest) → t.mem = s.mem

/-! ### Every step -/

/-- The invariant holds after reset. The reset values it speaks of are the model's (notes/assumptions/1.md, 4.md to
6.md). -/
def Obligations.ResetMeetsInvariant : Prop := State.reset.Inv

/-- Every step keeps the invariant: memory canonical and inside the physical address space, EA_BITS registers, a
hardwired context field 0 (R39), page numbers that fit (R125), page-table addresses aligned (R144); and the
parameters of R5 never change. -/
def Obligations.StepKeepsInvariant : Prop :=
  ∀ s t : State, s.Inv → step s = .next t → t.Inv ∧ t.cfg = s.cfg

/-- A TLB or ATB entry that the implementation lacks (R26) never changes: no write, access, reload, flush or
invalidate reaches it. R26 itself leaves a write of an absent register open: that it is ignored is the choice of
92_eei_decisions.md D22 (notes/assumptions/20.md). -/
def Obligations.AbsentEntriesNeverChange : Prop :=
  ∀ s t : State, s.cfg.wf = true → step s = .next t →
    (∀ y n, ¬(EntryRef.tlb y n).implemented s.cfg.d → t.dmmu.entry y n = s.dmmu.entry y n) ∧
    (∀ y n, ¬(EntryRef.tlb y n).implemented s.cfg.i → t.immu.entry y n = s.immu.entry y n) ∧
    (∀ i, ¬(EntryRef.atb i).implemented s.cfg.d → fileGet t.dmmu.atb i = fileGet s.dmmu.atb i) ∧
    (∀ i, ¬(EntryRef.atb i).implemented s.cfg.i → fileGet t.immu.atb i = fileGet s.immu.atb i)

/-- R13: no instruction and no access of the processor ends in a fault: a step faults only where another processor
writes outside the physical address space. -/
def Obligations.OnlyForeignWritesFault : Prop :=
  ∀ (s : State) (f : Fault), step s = .fault f →
    ∃ a bytes rest, s.inbox = .foreignWrite a bytes :: rest ∧ 2 ^ s.cfg.paBits < a + bytes.length

/-- The two instructions, loads, stores and every fetch leave user mode only by an exception: SR is saved and the program
counter is at the vector of Instruction Page Fault, of ITLB Miss, for a load or a store also of Data Page Fault or of DTLB Miss,
or, for the two instructions, of the exception that USER_SPR_ACCESS names (R240; the entry is R227's general knowledge,
notes/assumptions/9.md; the last is notes/assumptions/10.md). Other instructions outside the opcode table may leave it by their
own effect (notes/assumptions/9.md and 11.md). -/
def Obligations.UserModeLeftByExceptionOnly : Prop :=
  ∀ s t : State, s.sr.mode = .user → step s = .next t → t.sr.mode = .supervisor →
    (s.inbox = [] →
      t.esr = s.sr ∧ ∃ off : BitVec 12,
        (off = MmuException.insnPageFault.offset ∨ off = MmuException.itlbMiss.offset ∨
          s.cfg.userSprAccess = .raise off) ∧
        t.pc = truncEa s.cfg.eaBits (s.cfg.vectorBase ++ off)) ∧
    ((∃ ea n dest rest, s.inbox = .load ea n dest :: rest) ∨ (∃ ea bytes rest, s.inbox = .store ea bytes :: rest) →
      t.esr = s.sr ∧ ∃ e : MmuException, t.pc = truncEa s.cfg.eaBits (s.cfg.vectorBase ++ e.offset))

/-- What reset leaves, as R55 and R261 have it from general knowledge (notes/assumptions/5.md): supervisor mode, both
MMUs off, vector offset 0x100; and nothing listed in memory (notes/assumptions/6.md). -/
def Obligations.ResetState : Prop :=
  State.reset.sr.mode = .supervisor ∧ State.reset.sr.dme = false ∧ State.reset.sr.ime = false ∧
  State.reset.pc.extractLsb' 0 12 = 0x100#12 ∧ State.reset.mem = [] ∧ State.reset.inbox = []
end

