-- ==== Sys2Proof/Laws/Fields.lean ====
section
/-! SUPPORT. Bits and fields of a word: what a field that was placed reads as, at its own place and at another. -/

namespace Sys2Proof.Machine

theorem getLsbD_putBit (i j : Nat) (b : Bool) (hi : i < 32) : (putBit i b).getLsbD j = (decide (j = i) && b) := by
  simp only [putBit, BitVec.getLsbD_shiftLeft, BitVec.getLsbD_setWidth, BitVec.getLsbD_ofBool]
  by_cases h : j = i
  · subst h; simp [hi]
  · by_cases hlt : j < i
    · simp [h, hlt]
    · have : j - i ≠ 0 := by omega
      simp [h, this]

theorem getLsbD_putField {n : Nat} (lo j : Nat) (v : BitVec n) (hlo : lo + n ≤ 32) :
    (putField lo v).getLsbD j = (decide (lo ≤ j) && v.getLsbD (j - lo)) := by
  simp only [putField, BitVec.getLsbD_shiftLeft, BitVec.getLsbD_setWidth]
  by_cases h : lo ≤ j
  · by_cases hn : j - lo < n
    · have h1 : j < 32 := by omega
      have h2 : j - lo < 32 := by omega
      simp [h, h1, h2, Nat.not_lt.2 h]
    · simp [h, BitVec.getLsbD_of_ge v (j - lo) (by omega)]
  · simp [h, Nat.lt_of_not_le h]

@[simp] theorem getBit_or (x y : Word) (i : Nat) : getBit (x ||| y) i = (getBit x i || getBit y i) := by
  simp [getBit]

@[simp] theorem getBit_and (x y : Word) (i : Nat) : getBit (x &&& y) i = (getBit x i && getBit y i) := by
  simp [getBit]

@[simp] theorem getField_or (n : Nat) (x y : Word) (lo : Nat) :
    getField n (x ||| y) lo = getField n x lo ||| getField n y lo := by
  ext i hi
  simp [getField]

@[simp] theorem getField_and (n : Nat) (x y : Word) (lo : Nat) :
    getField n (x &&& y) lo = getField n x lo &&& getField n y lo := by
  ext i hi
  simp [getField]

theorem getBit_putBit_self (i : Nat) (b : Bool) (hi : i < 32) : getBit (putBit i b) i = b := by
  simp [getBit, getLsbD_putBit _ _ _ hi]

theorem getBit_putBit_of_ne (i j : Nat) (b : Bool) (hi : i < 32) (h : j ≠ i) : getBit (putBit i b) j = false := by
  simp [getBit, getLsbD_putBit _ _ _ hi, h]

theorem getBit_putField_outside {n : Nat} (lo j : Nat) (v : BitVec n) (hlo : lo + n ≤ 32)
    (h : j < lo ∨ lo + n ≤ j) : getBit (putField lo v) j = false := by
  rw [getBit, getLsbD_putField _ _ _ hlo]
  rcases h with h | h
  · simp [Nat.not_le.2 h]
  · simp [BitVec.getLsbD_of_ge v (j - lo) (by omega)]

theorem getField_putField_self {n : Nat} (lo : Nat) (v : BitVec n) (hlo : lo + n ≤ 32) :
    getField n (putField lo v) lo = v := by
  ext i hi
  have h : (putField lo v).getLsbD (lo + i) = v[i] := by
    rw [getLsbD_putField _ _ _ hlo]
    simp [BitVec.getLsbD_eq_getElem hi]
  simpa [getField, BitVec.getElem_extractLsb'] using h

theorem getField_putBit_outside (n lo i : Nat) (b : Bool) (hi : i < 32) (h : i < lo ∨ lo + n ≤ i) :
    getField n (putBit i b) lo = 0 := by
  ext j hj
  have h1 : (putBit i b).getLsbD (lo + j) = false := by
    rw [getLsbD_putBit _ _ _ hi]
    have : lo + j ≠ i := by omega
    simp [this]
  simpa [getField, BitVec.getElem_extractLsb'] using h1

theorem getField_putField_outside {n k : Nat} (lo lo' : Nat) (v : BitVec k) (hlo : lo' + k ≤ 32)
    (h : lo + n ≤ lo' ∨ lo' + k ≤ lo) : getField n (putField lo' v) lo = 0 := by
  ext j hj
  have h1 : (putField lo' v).getLsbD (lo + j) = false := by
    rw [getLsbD_putField _ _ _ hlo]
    rcases h with h | h
    · have : ¬lo' ≤ lo + j := by omega
      simp [this]
    · simp [BitVec.getLsbD_of_ge v (lo + j - lo') (by omega)]
  simpa [getField, BitVec.getElem_extractLsb'] using h1

/-- A named field of a word with open bits reads as the word's (R190). -/
theorem getBit_openWord (word mask : Word) (free : BitVec 64) (i : Nat) (h : getBit mask i = true) :
    getBit (openWord word mask free) i = getBit word i := by
  by_cases hi : i < 32
  · simp [getBit, openWord] at *
    simp [h]
  · simp [getBit, BitVec.getLsbD_of_ge mask i (by omega)] at h

theorem getField_openWord (n : Nat) (word mask : Word) (free : BitVec 64) (lo : Nat)
    (h : getField n mask lo = .allOnes n) : getField n (openWord word mask free) lo = getField n word lo := by
  ext j hj
  have h1 : mask.getLsbD (lo + j) = true := by
    have := congrArg (fun v : BitVec n => v.getLsbD j) h
    simpa [getField, hj] using this
  simp [getField, openWord, h1]

/-- A cut page number fits its width (R125). -/
theorem cutPpn_lt (width : Nat) (p : BitVec 22) : (cutPpn width p).toNat < 2 ^ width := by
  simp only [cutPpn, BitVec.toNat_and, BitVec.toNat_ofNat]
  refine Nat.lt_of_le_of_lt Nat.and_le_right ?_
  exact Nat.lt_of_le_of_lt (Nat.mod_le _ _) (Nat.sub_one_lt (Nat.two_pow_pos width).ne')

theorem cutPpn_of_lt (width : Nat) (p : BitVec 22) (h : p.toNat < 2 ^ width) (hw : width ≤ 22) :
    cutPpn width p = p := by
  apply BitVec.eq_of_toNat_eq
  have h1 : 2 ^ width ≤ 2 ^ 22 := Nat.pow_le_pow_right (by omega) hw
  have h2 : 2 ^ width - 1 < 2 ^ 22 := by have := Nat.two_pow_pos width; omega
  simp only [cutPpn, BitVec.toNat_and, BitVec.toNat_ofNat, Nat.mod_eq_of_lt h2]
  rw [Nat.and_two_pow_sub_one_eq_mod, Nat.mod_eq_of_lt h]

end Sys2Proof.Machine
end

