-- ==== Sys2Proof/Laws/Files.lean ====
section
/-! SUPPORT. What a register file holds after an update, and what each update of one half of the MMU changes. -/

namespace Sys2Proof.Machine

section Files
variable {α : Type} {n : Nat}

theorem fileGet_fileSet (f : Vector α (2 ^ n)) (i j : BitVec n) (a : α) :
    fileGet (fileSet f i a) j = if i = j then a else fileGet f j := by
  simp only [fileGet, fileSet, Vector.getElem_set, BitVec.toNat_inj]

@[simp] theorem fileGet_fileSet_self (f : Vector α (2 ^ n)) (i : BitVec n) (a : α) :
    fileGet (fileSet f i a) i = a := by
  simp [fileGet_fileSet]

theorem fileGet_fileSet_of_ne (f : Vector α (2 ^ n)) {i j : BitVec n} (a : α) (h : i ≠ j) :
    fileGet (fileSet f i a) j = fileGet f j := by
  simp [fileGet_fileSet, h]

@[simp] theorem fileGet_fileOf (f : BitVec n → α) (i : BitVec n) : fileGet (fileOf n f) i = f i := by
  simp [fileGet, fileOf]

theorem file_ext {f g : Vector α (2 ^ n)} (h : ∀ i, fileGet f i = fileGet g i) : f = g := by
  apply Vector.ext
  intro i hi
  simpa [fileGet, Nat.mod_eq_of_lt hi] using h (BitVec.ofNat n i)

end Files

theorem groupGet_groupsOf {α : Type} (f : Nat → α) (ppi : BitVec 3) (h : ppi ≠ 0) :
    groupGet (groupsOf f) ppi = f ppi.toNat := by
  revert h
  revert ppi
  have key : ∀ k : Fin 8, k.val ≠ 0 → (groupsOf f)[k.val - 1]'(by omega) = f k.val := by
    intro k hk
    match k with
    | ⟨0, _⟩ => exact absurd rfl hk
    | ⟨1, _⟩ | ⟨2, _⟩ | ⟨3, _⟩ | ⟨4, _⟩ | ⟨5, _⟩ | ⟨6, _⟩ | ⟨7, _⟩ => rfl
  intro ppi h
  exact key ⟨ppi.toNat, ppi.isLt⟩ (fun h0 => h (BitVec.eq_of_toNat_eq h0))

/-- The way and the set of a TLB index. -/
theorem wayset_inj {y y' : BitVec 2} {k k' : BitVec 7} : y ++ k = y' ++ k' ↔ y = y' ∧ k = k' := by
  constructor
  · intro h
    have h1 := congrArg (BitVec.extractLsb' 7 2) h
    have h2 := congrArg (BitVec.extractLsb' 0 7) h
    simp only [BitVec.extractLsb'_append_eq_left, BitVec.extractLsb'_append_eq_right] at h1 h2
    exact ⟨h1, h2⟩
  · rintro ⟨rfl, rfl⟩
    rfl

section Mmu
variable {P : Type} (m : Mmu P)

theorem entry_setEntry (y y' : BitVec 2) (k k' : BitVec 7) (e : TlbEntry P) :
    (m.setEntry y k e).entry y' k' = if y = y' ∧ k = k' then e else m.entry y' k' := by
  simp only [Mmu.entry, Mmu.setEntry, fileGet_fileSet, wayset_inj]

@[simp] theorem entry_setEntry_self (y : BitVec 2) (k : BitVec 7) (e : TlbEntry P) :
    (m.setEntry y k e).entry y k = e := by
  simp [entry_setEntry]

@[simp] theorem entry_mapTlb (f : BitVec 2 → BitVec 7 → TlbEntry P → TlbEntry P) (y : BitVec 2) (k : BitVec 7) :
    (m.mapTlb f).entry y k = f y k (m.entry y k) := by
  simp only [Mmu.entry, Mmu.mapTlb, fileGet_fileOf, BitVec.extractLsb'_append_eq_left,
    BitVec.extractLsb'_append_eq_right]

theorem atb_setAtb (i j : BitVec 2) (e : AtbEntry P) :
    fileGet (m.setAtb i e).atb j = if i = j then e else fileGet m.atb j := by
  simp only [Mmu.setAtb, fileGet_fileSet]

@[simp] theorem atb_setAtb_self (i : BitVec 2) (e : AtbEntry P) : fileGet (m.setAtb i e).atb i = e := by
  simp [atb_setAtb]

/-! What each update leaves as it was. -/

@[simp] theorem setEntry_tf (y k) (e : TlbEntry P) : (m.setEntry y k e).tf = m.tf := rfl
@[simp] theorem setEntry_ptbp (y k) (e : TlbEntry P) : (m.setEntry y k e).ptbp = m.ptbp := rfl
@[simp] theorem setEntry_pr (y k) (e : TlbEntry P) : (m.setEntry y k e).pr = m.pr := rfl
@[simp] theorem setEntry_atb (y k) (e : TlbEntry P) : (m.setEntry y k e).atb = m.atb := rfl
@[simp] theorem setEntry_hist (y k) (e : TlbEntry P) : (m.setEntry y k e).hist = m.hist := rfl
@[simp] theorem setEntry_owed (y k) (e : TlbEntry P) : (m.setEntry y k e).owed = m.owed := rfl

@[simp] theorem setAtb_tf (i) (e : AtbEntry P) : (m.setAtb i e).tf = m.tf := rfl
@[simp] theorem setAtb_ptbp (i) (e : AtbEntry P) : (m.setAtb i e).ptbp = m.ptbp := rfl
@[simp] theorem setAtb_pr (i) (e : AtbEntry P) : (m.setAtb i e).pr = m.pr := rfl
@[simp] theorem setAtb_hist (i) (e : AtbEntry P) : (m.setAtb i e).hist = m.hist := rfl
@[simp] theorem setAtb_owed (i) (e : AtbEntry P) : (m.setAtb i e).owed = m.owed := rfl
@[simp] theorem setAtb_entry (i) (e : AtbEntry P) (y k) : (m.setAtb i e).entry y k = m.entry y k := rfl

@[simp] theorem mapTlb_tf (f) : (m.mapTlb f).tf = m.tf := by
  simp only [Mmu.mapTlb]
@[simp] theorem mapTlb_ptbp (f) : (m.mapTlb f).ptbp = m.ptbp := by
  simp only [Mmu.mapTlb]
@[simp] theorem mapTlb_pr (f) : (m.mapTlb f).pr = m.pr := by
  simp only [Mmu.mapTlb]
@[simp] theorem mapTlb_atb (f) : (m.mapTlb f).atb = m.atb := by
  simp only [Mmu.mapTlb]
@[simp] theorem mapTlb_hist (f) : (m.mapTlb f).hist = m.hist := by
  simp only [Mmu.mapTlb]
@[simp] theorem mapTlb_owed (f) : (m.mapTlb f).owed = m.owed := by
  simp only [Mmu.mapTlb]

@[simp] theorem setTr_tf (r) (t : TransReg P) : (m.setTr r t).tf = m.tf := by cases r <;> rfl
@[simp] theorem setTr_ptbp (r) (t : TransReg P) : (m.setTr r t).ptbp = m.ptbp := by cases r <;> rfl
@[simp] theorem setTr_pr (r) (t : TransReg P) : (m.setTr r t).pr = m.pr := by cases r <;> rfl
@[simp] theorem setTr_hist (r) (t : TransReg P) : (m.setTr r t).hist = m.hist := by cases r <;> rfl
@[simp] theorem setTr_owed (r) (t : TransReg P) : (m.setTr r t).owed = m.owed := by cases r <;> rfl

/-- Owing a history update changes nothing but what is owed (R131). -/
theorem owe_eq (r : EntryRef) (a d : Bool) : m.owe r a d = { m with owed := (m.owe r a d).owed } := by
  unfold Mmu.owe
  split
  · split <;> rfl
  · rfl

theorem owe_owed (r : EntryRef) (a d : Bool) :
    (m.owe r a d).owed =
      m.owed ++ match m.originOf r with
        | some pa => if a || d then [{ pa := pa, a := a, d := d }] else []
        | none => [] := by
  unfold Mmu.owe
  cases m.originOf r with
  | none => simp
  | some pa => cases a <;> cases d <;> simp

@[simp] theorem owe_tf (r a d) : (m.owe r a d).tf = m.tf := by rw [owe_eq]
@[simp] theorem owe_ptbp (r a d) : (m.owe r a d).ptbp = m.ptbp := by rw [owe_eq]
@[simp] theorem owe_pr (r a d) : (m.owe r a d).pr = m.pr := by rw [owe_eq]
@[simp] theorem owe_tlb (r a d) : (m.owe r a d).tlb = m.tlb := by rw [owe_eq]
@[simp] theorem owe_atb (r a d) : (m.owe r a d).atb = m.atb := by rw [owe_eq]
@[simp] theorem owe_hist (r a d) : (m.owe r a d).hist = m.hist := by rw [owe_eq]
@[simp] theorem owe_entry (r a d y k) : (m.owe r a d).entry y k = m.entry y k := by simp only [Mmu.entry, owe_tlb]
@[simp] theorem owe_trOf (r q a d) : (m.owe r a d).trOf q = m.trOf q := by cases q <;> simp [Mmu.trOf]

@[simp] theorem redrawLru_tf (w s free) : (m.redrawLru w s free).tf = m.tf := by
  simp only [Mmu.redrawLru, mapTlb_tf]
@[simp] theorem redrawLru_ptbp (w s free) : (m.redrawLru w s free).ptbp = m.ptbp := by
  simp only [Mmu.redrawLru, mapTlb_ptbp]
@[simp] theorem redrawLru_pr (w s free) : (m.redrawLru w s free).pr = m.pr := by
  simp only [Mmu.redrawLru, mapTlb_pr]
@[simp] theorem redrawLru_atb (w s free) : (m.redrawLru w s free).atb = m.atb := by
  simp only [Mmu.redrawLru, mapTlb_atb]
@[simp] theorem redrawLru_hist (w s free) : (m.redrawLru w s free).hist = m.hist := by
  simp only [Mmu.redrawLru, mapTlb_hist]
@[simp] theorem redrawLru_owed (w s free) : (m.redrawLru w s free).owed = m.owed := by
  simp only [Mmu.redrawLru, mapTlb_owed]

@[simp] theorem flush_ptbp (mc) : (m.flush mc).ptbp = m.ptbp := by
  simp only [Mmu.flush, mapTlb_ptbp]
@[simp] theorem flush_tf (mc) : (m.flush mc).tf = m.tf := by
  simp only [Mmu.flush, mapTlb_tf]
@[simp] theorem flush_pr (mc) : (m.flush mc).pr = m.pr := by
  simp only [Mmu.flush, mapTlb_pr]
@[simp] theorem flush_atb (mc) : (m.flush mc).atb = m.atb := by
  simp only [Mmu.flush, mapTlb_atb]
@[simp] theorem flush_hist (mc) : (m.flush mc).hist = m.hist := by
  simp only [Mmu.flush, mapTlb_hist]
@[simp] theorem flush_owed (mc) : (m.flush mc).owed = m.owed := by
  simp only [Mmu.flush, mapTlb_owed]

@[simp] theorem invalidate_tf (c mc e free) : (m.invalidate c mc e free).tf = m.tf := by
  simp only [Mmu.invalidate, mapTlb_tf]
@[simp] theorem invalidate_ptbp (c mc e free) : (m.invalidate c mc e free).ptbp = m.ptbp := by
  simp only [Mmu.invalidate, mapTlb_ptbp]
@[simp] theorem invalidate_pr (c mc e free) : (m.invalidate c mc e free).pr = m.pr := by
  simp only [Mmu.invalidate, mapTlb_pr]
@[simp] theorem invalidate_atb (c mc e free) : (m.invalidate c mc e free).atb = m.atb := by
  simp only [Mmu.invalidate, mapTlb_atb]
@[simp] theorem invalidate_hist (c mc e free) : (m.invalidate c mc e free).hist = m.hist := by
  simp only [Mmu.invalidate, mapTlb_hist]
@[simp] theorem invalidate_owed (c mc e free) : (m.invalidate c mc e free).owed = m.owed := by
  simp only [Mmu.invalidate, mapTlb_owed]

/-! What each update does to the entries. -/

/-- A change of a translate register changes that of the entry alone. -/
theorem entry_setTr (r : EntryRef) (t : TransReg P) (y : BitVec 2) (k : BitVec 7) :
    (m.setTr r t).entry y k = if r = .tlb y k then { m.entry y k with tr := t } else m.entry y k := by
  cases r with
  | tlb y' k' =>
    simp only [Mmu.setTr, entry_setEntry, EntryRef.tlb.injEq]
    split
    · next h => obtain ⟨rfl, rfl⟩ := h; rfl
    · rfl
  | atb i => simp [Mmu.setTr]

theorem atb_setTr (r : EntryRef) (t : TransReg P) (i : BitVec 2) :
    fileGet (m.setTr r t).atb i = if r = .atb i then { fileGet m.atb i with tr := t } else fileGet m.atb i := by
  cases r with
  | tlb y k => simp [Mmu.setTr]
  | atb j =>
    simp only [Mmu.setTr, atb_setAtb, EntryRef.atb.injEq]
    split
    · next h => obtain rfl := h; rfl
    · rfl

/-- The LRU redraw changes the LRU fields of the implemented ways of one set and nothing else (R40). -/
theorem entry_redrawLru (w : Nat) (s : BitVec 7) (free : BitVec 64) (y : BitVec 2) (k : BitVec 7) :
    (m.redrawLru w s free).entry y k =
      if k = s ∧ y.toNat < w then
        { m.entry y k with mr := { (m.entry y k).mr with lru := free.extractLsb' (2 * y.toNat) 2 } }
      else m.entry y k := by
  simp only [Mmu.redrawLru, entry_mapTlb]

/-- The flush clears V of the implemented entries and changes nothing else (R199). -/
theorem entry_flush (mc : MmuConfig) (y : BitVec 2) (k : BitVec 7) :
    (m.flush mc).entry y k =
      if y.toNat < mc.ways ∧ k.toNat < mc.sets then
        { m.entry y k with mr := { (m.entry y k).mr with v := false } }
      else m.entry y k := by
  simp only [Mmu.flush, entry_mapTlb]

/-- The invalidate changes V of implemented ways of the selected set alone (R197). -/
theorem entry_invalidate (c : Config) (mc : MmuConfig) (e : PageEa) (free : BitVec 64) (y : BitVec 2) (k : BitVec 7) :
    (m.invalidate c mc e free).entry y k =
      if k = tlbIndex mc e ∧ y.toNat < mc.ways ∧ (m.entry y k).mr.v = true then
        { m.entry y k with
          mr := { (m.entry y k).mr with
            v := !tlbTagMatches c (m.entry y k).mr.pl1 (m.entry y k).mr.vpn e && free.getLsbD y.toNat } }
      else m.entry y k := by
  simp only [Mmu.invalidate, entry_mapTlb]

theorem entry_writeTlbMr (y y' : BitVec 2) (k k' : BitVec 7) (v : TlbMatch) :
    (m.writeTlbMr y k v).entry y' k' =
      if y = y' ∧ k = k' then { m.entry y k with mr := v, origin := none } else m.entry y' k' := by
  simp only [Mmu.writeTlbMr, entry_setEntry]

theorem entry_writeTlbTr (y y' : BitVec 2) (k k' : BitVec 7) (v : TransReg P) :
    (m.writeTlbTr y k v).entry y' k' = if y = y' ∧ k = k' then { m.entry y k with tr := v } else m.entry y' k' := by
  simp only [Mmu.writeTlbTr, entry_setEntry]

theorem atb_writeAtbMr (i j : BitVec 2) (v : AtbMatch) :
    fileGet (m.writeAtbMr i v).atb j =
      if i = j then { fileGet m.atb i with mr := v, origin := none } else fileGet m.atb j := by
  simp only [Mmu.writeAtbMr, atb_setAtb]

theorem atb_writeAtbTr (i j : BitVec 2) (v : TransReg P) :
    fileGet (m.writeAtbTr i v).atb j = if i = j then { fileGet m.atb i with tr := v } else fileGet m.atb j := by
  simp only [Mmu.writeAtbTr, atb_setAtb]

@[simp] theorem trOf_setTr_self (r : EntryRef) (t : TransReg P) : (m.setTr r t).trOf r = t := by
  cases r <;> simp [Mmu.trOf, Mmu.setTr]

theorem trOf_setTr (r q : EntryRef) (t : TransReg P) : (m.setTr r t).trOf q = if r = q then t else m.trOf q := by
  cases q with
  | tlb y k => simp only [Mmu.trOf, entry_setTr]; split <;> rfl
  | atb i => simp only [Mmu.trOf, atb_setTr]; split <;> rfl

@[simp] theorem trOf_redrawLru (w s free q) : (m.redrawLru w s free).trOf q = m.trOf q := by
  cases q with
  | tlb y k => simp only [Mmu.trOf, entry_redrawLru]; split <;> rfl
  | atb i => simp only [Mmu.trOf, redrawLru_atb]

@[simp] theorem originOf_setTr (r q) (t : TransReg P) : (m.setTr r t).originOf q = m.originOf q := by
  cases q with
  | tlb y k => simp only [Mmu.originOf, entry_setTr]; split <;> rfl
  | atb i => simp only [Mmu.originOf, atb_setTr]; split <;> rfl

@[simp] theorem originOf_owe (r q a d) : (m.owe r a d).originOf q = m.originOf q := by
  cases q <;> simp [Mmu.originOf]

@[simp] theorem originOf_redrawLru (w s free q) : (m.redrawLru w s free).originOf q = m.originOf q := by
  cases q with
  | tlb y k => simp only [Mmu.originOf, entry_redrawLru]; split <;> rfl
  | atb i => simp only [Mmu.originOf, redrawLru_atb]

end Mmu

end Sys2Proof.Machine
end

