-- ==== Sys2Proof/Laws/Memory.lean ====
section
/-! SUPPORT. Memory: a byte written reads back, every other byte is left alone, every operation keeps the canonical
form and the physical address space, and equal memories are equal lists. -/

namespace Sys2Proof.Machine

@[simp] theorem memoryWfFrom_nil (lo : Nat) : memoryWfFrom lo [] = true := rfl

@[simp] theorem memoryWfFrom_cons (lo a : Nat) (v : Byte) (m : Memory) :
    memoryWfFrom lo ((a, v) :: m) = true ↔ lo ≤ a ∧ v ≠ unlistedByte ∧ memoryWfFrom (a + 1) m = true := by
  simp [memoryWfFrom, and_assoc]

theorem memoryWfFrom_mono {lo lo' : Nat} {m : Memory} (h : memoryWfFrom lo m = true) (hle : lo' ≤ lo) :
    memoryWfFrom lo' m = true := by
  cases m with
  | nil => rfl
  | cons c m =>
    obtain ⟨h1, h2⟩ := (memoryWfFrom_cons ..).1 h
    exact (memoryWfFrom_cons ..).2 ⟨Nat.le_trans hle h1, h2⟩

/-- An address below a canonical memory reads as unlisted. -/
theorem read_below {lo a : Nat} {m : Memory} (h : memoryWfFrom lo m = true) (ha : a < lo) :
    m.read a = unlistedByte := by
  induction m generalizing lo with
  | nil => rfl
  | cons c m ih =>
    obtain ⟨b, w⟩ := c
    obtain ⟨h1, -, h3⟩ := (memoryWfFrom_cons ..).1 h
    have hne : a ≠ b := by omega
    simp only [Memory.read, if_neg hne]
    exact ih h3 (by omega)

theorem memoryWfFrom_write {lo a : Nat} {m : Memory} (v : Byte) (h : memoryWfFrom lo m = true) (ha : lo ≤ a) :
    memoryWfFrom lo (m.write a v) = true := by
  induction m generalizing lo with
  | nil =>
    simp only [Memory.write]
    split
    · rfl
    · next hv => simp [ha, hv]
  | cons c m ih =>
    obtain ⟨b, w⟩ := c
    obtain ⟨h1, h2, h3⟩ := (memoryWfFrom_cons ..).1 h
    simp only [Memory.write]
    split
    · next hab =>
      split
      · exact h
      · next hv => simp [ha, hv, hab, h2, h3]
    · next hab =>
      split
      · next heq =>
        subst heq
        split
        · exact memoryWfFrom_mono h3 (by omega)
        · next hv => simp [ha, hv, h3]
      · next hne => simp [h1, h2, ih h3 (by omega : b + 1 ≤ a)]

/-- A write keeps the canonical form. -/
theorem wf_write {m : Memory} (h : m.wf = true) (a : Nat) (v : Byte) : (m.write a v).wf = true :=
  memoryWfFrom_write v h (Nat.zero_le a)

theorem read_write_from {lo : Nat} {m : Memory} (h : memoryWfFrom lo m = true) (a b : Nat) (v : Byte) :
    (m.write a v).read b = if a = b then v else m.read b := by
  induction m generalizing lo with
  | nil => by_cases hv : v = unlistedByte <;> by_cases hab : b = a <;> simp_all [Memory.write, Memory.read, eq_comm]
  | cons c m ih =>
    obtain ⟨k, w⟩ := c
    obtain ⟨h1, h2, h3⟩ := (memoryWfFrom_cons ..).1 h
    rcases Nat.lt_trichotomy a k with hlt | heq | hgt
    · have hread : Memory.read ((k, w) :: m) a = unlistedByte :=
        read_below (lo := k) ((memoryWfFrom_cons ..).2 ⟨Nat.le_refl k, h2, h3⟩) hlt
      by_cases hv : v = unlistedByte
      · simp only [Memory.write, if_pos hlt, if_pos hv]
        by_cases hab : a = b
        · subst hab; simp [hread, hv]
        · simp [hab]
      · simp only [Memory.write, if_pos hlt, if_neg hv]
        by_cases hab : a = b
        · subst hab; simp [Memory.read]
        · simp [Memory.read, hab, Ne.symm hab]
    · subst heq
      by_cases hv : v = unlistedByte
      · simp only [Memory.write, Nat.lt_irrefl, if_false, if_true, hv]
        by_cases hab : a = b
        · subst hab; simp [read_below h3 (Nat.lt_succ_self a)]
        · simp [Memory.read, hab, Ne.symm hab]
      · simp only [Memory.write, Nat.lt_irrefl, if_false, if_true, hv]
        by_cases hab : a = b
        · subst hab; simp [Memory.read]
        · simp [Memory.read, hab, Ne.symm hab]
    · have h4 : ¬a < k := by omega
      have h5 : ¬a = k := by omega
      simp only [Memory.write, if_neg h4, if_neg h5, Memory.read, ih h3]
      by_cases hbk : b = k
      · simp [hbk, h5]
      · simp [hbk]

/-- A byte written reads back and every other byte is as before. -/
theorem read_write {m : Memory} (h : m.wf = true) (a b : Nat) (v : Byte) :
    (m.write a v).read b = if a = b then v else m.read b :=
  read_write_from h a b v

/-- Canonical memories that read alike are equal. -/
theorem memory_ext {lo : Nat} {m m' : Memory} (h : memoryWfFrom lo m = true) (h' : memoryWfFrom lo m' = true)
    (hr : ∀ a, m.read a = m'.read a) : m = m' := by
  induction m generalizing lo m' with
  | nil =>
    cases m' with
    | nil => rfl
    | cons c m' =>
      have := hr c.1
      simp [Memory.read] at this
      exact absurd this.symm ((memoryWfFrom_cons ..).1 h').2.1
  | cons c m ih =>
    obtain ⟨b, w⟩ := c
    obtain ⟨h1, h2, h3⟩ := (memoryWfFrom_cons ..).1 h
    cases m' with
    | nil => have := hr b; simp [Memory.read] at this; exact absurd this h2
    | cons c' m' =>
      obtain ⟨b', w'⟩ := c'
      obtain ⟨h1', h2', h3'⟩ := (memoryWfFrom_cons ..).1 h'
      have hbb : b = b' := by
        rcases Nat.lt_trichotomy b b' with hlt | heq | hgt
        · have := hr b
          rw [read_below (lo := b') ((memoryWfFrom_cons ..).2 ⟨Nat.le_refl b', h2', h3'⟩) hlt] at this
          simp [Memory.read] at this
          exact absurd this h2
        · exact heq
        · have := hr b'
          rw [read_below (lo := b) ((memoryWfFrom_cons ..).2 ⟨Nat.le_refl b, h2, h3⟩) hgt] at this
          simp [Memory.read] at this
          exact absurd this.symm h2'
      subst hbb
      have hww : w = w' := by simpa [Memory.read] using hr b
      subst hww
      congr 1
      refine ih h3 h3' fun a => ?_
      by_cases hab : a = b
      · subst hab; rw [read_below h3 (Nat.lt_succ_self a), read_below h3' (Nat.lt_succ_self a)]
      · simpa [Memory.read, hab] using hr a

/-! ### Every listed address is physical -/

theorem write_bounded {m : Memory} {n a : Nat} {v : Byte} (h : ∀ c ∈ m, c.1 < n) (ha : a < n) :
    ∀ c ∈ m.write a v, c.1 < n := by
  induction m with
  | nil => intro c hc; simp only [Memory.write] at hc; split at hc <;> simp_all
  | cons x m ih =>
    obtain ⟨b, w⟩ := x
    have hb : b < n := h (b, w) (by simp)
    have hm : ∀ c ∈ m, c.1 < n := fun c hc => h c (by simp [hc])
    intro c hc
    simp only [Memory.write] at hc
    split at hc
    · split at hc
      · exact h c hc
      · rcases List.mem_cons.1 hc with rfl | hc
        · exact ha
        · exact h c hc
    · split at hc
      · split at hc
        · exact hm c hc
        · rcases List.mem_cons.1 hc with rfl | hc
          · exact ha
          · exact hm c hc
      · rcases List.mem_cons.1 hc with rfl | hc
        · exact hb
        · exact ih hm c hc

theorem physAddr_lt (c : Config) (a : Nat) : physAddr c a < 2 ^ c.paBits := Nat.mod_lt _ (Nat.two_pow_pos _)

theorem physAddr_of_lt {c : Config} {a : Nat} (h : a < 2 ^ c.paBits) : physAddr c a = a := Nat.mod_eq_of_lt h

/-! ### Several bytes -/

theorem wf_writeBytes (c : Config) {m : Memory} (h : m.wf = true) (a : Nat) (bs : List Byte) :
    (writeBytes c m a bs).wf = true := by
  induction bs generalizing m a with
  | nil => exact h
  | cons b bs ih => exact ih (wf_write h _ _) _

theorem writeBytes_bounded (c : Config) {m : Memory} (h : ∀ x ∈ m, x.1 < 2 ^ c.paBits) (a : Nat) (bs : List Byte) :
    ∀ x ∈ writeBytes c m a bs, x.1 < 2 ^ c.paBits := by
  induction bs generalizing m a with
  | nil => exact h
  | cons b bs ih => exact ih (write_bounded h (physAddr_lt c a)) _

/-- A write of several bytes leaves every byte outside them alone. -/
theorem read_writeBytes_outside (c : Config) {m : Memory} (h : m.wf = true) (a : Nat) (bs : List Byte) (x : Nat)
    (hx : ∀ k, k < bs.length → x ≠ physAddr c (a + k)) : (writeBytes c m a bs).read x = m.read x := by
  induction bs generalizing m a with
  | nil => rfl
  | cons b bs ih =>
    simp only [writeBytes]
    rw [ih (wf_write h _ _) (a + 1) fun k hk => by
      have := hx (k + 1) (by simpa using hk)
      rwa [Nat.add_assoc, Nat.add_comm 1 k], read_write h]
    have h0 : physAddr c a ≠ x := fun e => hx 0 (by simp) e.symm
    simp [h0]

/-- A write of several bytes that stays inside the physical address space puts each where it belongs. -/
theorem read_writeBytes_inside (c : Config) {m : Memory} (h : m.wf = true) (a : Nat) (bs : List Byte)
    (hfit : a + bs.length ≤ 2 ^ c.paBits) (k : Nat) (hk : k < bs.length) :
    (writeBytes c m a bs).read (a + k) = bs[k] := by
  induction bs generalizing m a k with
  | nil => simp at hk
  | cons b bs ih =>
    simp only [List.length_cons] at hfit hk
    cases k with
    | zero =>
      simp only [writeBytes, Nat.add_zero]
      rw [read_writeBytes_outside c (wf_write h _ _) (a + 1) bs a, read_write h]
      · simp [physAddr_of_lt (c := c) (a := a) (by omega)]
      · intro j hj
        rw [physAddr_of_lt (by omega)]
        omega
    | succ k =>
      simp only [writeBytes]
      have := ih (wf_write h (physAddr c a) b) (a + 1) (by omega) k (by omega)
      rw [show a + (k + 1) = a + 1 + k by omega]
      simpa using this

theorem wf_physWrite32 (c : Config) {m : Memory} (h : m.wf = true) (a : Nat) (w : Word) :
    (physWrite32 c m a w).wf = true := wf_writeBytes c h a _

theorem physWrite32_bounded (c : Config) {m : Memory} (h : ∀ x ∈ m, x.1 < 2 ^ c.paBits) (a : Nat) (w : Word) :
    ∀ x ∈ physWrite32 c m a w, x.1 < 2 ^ c.paBits := writeBytes_bounded c h a _

/-- Memory at reset is canonical. -/
theorem reset_memory_wf (c : Config) : (State.resetWith c).mem.wf = true := rfl

end Sys2Proof.Machine
end

