-- ==== Sys2Proof/Laws/PerInstr.lean ====
section
/-! SUPPORT. Statements made of every instruction, one lemma for each constructor. -/

namespace Sys2Proof.Laws

/-- The major opcode of an instruction's row in the opcode table (R163, R164). -/
def majorOpcode : Instr → BitVec 6
  | .mfspr _ _ _ => 0x2D
  | .mtspr _ _ _ => 0x30

/-- The encoded word has the fixed bits of its row. -/
def FixedBits.Statement (i : Instr) : Prop := (encodeWord i).extractLsb' 26 6 = majorOpcode i

theorem FixedBits.mfspr (d a : BitVec 5) (k : BitVec 16) : FixedBits.Statement (.mfspr d a k) := by
  unfold FixedBits.Statement encodeWord majorOpcode
  ext i hi
  simp only [BitVec.getElem_extractLsb', BitVec.getLsbD_append]
  have h1 : ¬26 + i < 16 := by omega
  have h2 : ¬26 + i - 16 < 5 := by omega
  have h3 : ¬26 + i - 16 - 5 < 5 := by omega
  have h4 : 26 + i - 16 - 5 - 5 = i := by omega
  simp [h1, h2, h3, h4, BitVec.getLsbD_eq_getElem hi]

theorem FixedBits.mtspr (a b : BitVec 5) (k : BitVec 16) : FixedBits.Statement (.mtspr a b k) := by
  unfold FixedBits.Statement encodeWord majorOpcode
  ext i hi
  simp only [BitVec.getElem_extractLsb', BitVec.getLsbD_append]
  have h1 : ¬26 + i < 11 := by omega
  have h2 : ¬26 + i - 11 < 5 := by omega
  have h3 : ¬26 + i - 11 - 5 < 5 := by omega
  have h4 : ¬26 + i - 11 - 5 - 5 < 5 := by omega
  have h5 : 26 + i - 11 - 5 - 5 - 5 = i := by omega
  simp [h1, h2, h3, h4, h5, BitVec.getLsbD_eq_getElem hi]

end Sys2Proof.Laws
end

