-- ==== Sys2Proof/Laws/State.lean ====
section
/-! SUPPORT. One lemma for each field and each named update of State, true by rfl. -/

namespace Sys2Proof.Machine

variable (s : State)

/-! ### writeGpr -/

@[simp] theorem writeGpr_cfg (i : BitVec 5) (v : Ea) : (writeGpr s i v).cfg = s.cfg := rfl
@[simp] theorem writeGpr_gpr (i : BitVec 5) (v : Ea) : (writeGpr s i v).gpr = fileSet s.gpr i (truncEa s.cfg.eaBits v) := rfl
@[simp] theorem writeGpr_pc (i : BitVec 5) (v : Ea) : (writeGpr s i v).pc = s.pc := rfl
@[simp] theorem writeGpr_delaySlot (i : BitVec 5) (v : Ea) : (writeGpr s i v).delaySlot = s.delaySlot := rfl
@[simp] theorem writeGpr_sr (i : BitVec 5) (v : Ea) : (writeGpr s i v).sr = s.sr := rfl
@[simp] theorem writeGpr_esr (i : BitVec 5) (v : Ea) : (writeGpr s i v).esr = s.esr := rfl
@[simp] theorem writeGpr_epcr (i : BitVec 5) (v : Ea) : (writeGpr s i v).epcr = s.epcr := rfl
@[simp] theorem writeGpr_eear (i : BitVec 5) (v : Ea) : (writeGpr s i v).eear = s.eear := rfl
@[simp] theorem writeGpr_dmmu (i : BitVec 5) (v : Ea) : (writeGpr s i v).dmmu = s.dmmu := rfl
@[simp] theorem writeGpr_immu (i : BitVec 5) (v : Ea) : (writeGpr s i v).immu = s.immu := rfl
@[simp] theorem writeGpr_mem (i : BitVec 5) (v : Ea) : (writeGpr s i v).mem = s.mem := rfl
@[simp] theorem writeGpr_bus (i : BitVec 5) (v : Ea) : (writeGpr s i v).bus = s.bus := rfl
@[simp] theorem writeGpr_inbox (i : BitVec 5) (v : Ea) : (writeGpr s i v).inbox = s.inbox := rfl
@[simp] theorem writeGpr_draws (i : BitVec 5) (v : Ea) : (writeGpr s i v).draws = s.draws := rfl

/-! ### advance -/

@[simp] theorem advance_cfg : (advance s).cfg = s.cfg := rfl
@[simp] theorem advance_gpr : (advance s).gpr = s.gpr := rfl
@[simp] theorem advance_pc : (advance s).pc = truncEa s.cfg.eaBits (match s.delaySlot with | some d => d.target | none => s.pc + 4) := rfl
@[simp] theorem advance_delaySlot : (advance s).delaySlot = none := rfl
@[simp] theorem advance_sr : (advance s).sr = s.sr := rfl
@[simp] theorem advance_esr : (advance s).esr = s.esr := rfl
@[simp] theorem advance_epcr : (advance s).epcr = s.epcr := rfl
@[simp] theorem advance_eear : (advance s).eear = s.eear := rfl
@[simp] theorem advance_dmmu : (advance s).dmmu = s.dmmu := rfl
@[simp] theorem advance_immu : (advance s).immu = s.immu := rfl
@[simp] theorem advance_mem : (advance s).mem = s.mem := rfl
@[simp] theorem advance_bus : (advance s).bus = s.bus := rfl
@[simp] theorem advance_inbox : (advance s).inbox = s.inbox := rfl
@[simp] theorem advance_draws : (advance s).draws = s.draws := rfl

/-! ### countDraw -/

@[simp] theorem countDraw_cfg : (countDraw s).cfg = s.cfg := rfl
@[simp] theorem countDraw_gpr : (countDraw s).gpr = s.gpr := rfl
@[simp] theorem countDraw_pc : (countDraw s).pc = s.pc := rfl
@[simp] theorem countDraw_delaySlot : (countDraw s).delaySlot = s.delaySlot := rfl
@[simp] theorem countDraw_sr : (countDraw s).sr = s.sr := rfl
@[simp] theorem countDraw_esr : (countDraw s).esr = s.esr := rfl
@[simp] theorem countDraw_epcr : (countDraw s).epcr = s.epcr := rfl
@[simp] theorem countDraw_eear : (countDraw s).eear = s.eear := rfl
@[simp] theorem countDraw_dmmu : (countDraw s).dmmu = s.dmmu := rfl
@[simp] theorem countDraw_immu : (countDraw s).immu = s.immu := rfl
@[simp] theorem countDraw_mem : (countDraw s).mem = s.mem := rfl
@[simp] theorem countDraw_bus : (countDraw s).bus = s.bus := rfl
@[simp] theorem countDraw_inbox : (countDraw s).inbox = s.inbox := rfl
@[simp] theorem countDraw_draws : (countDraw s).draws = s.draws + 1 := rfl

/-! ### takeException -/

@[simp] theorem takeException_cfg (o : BitVec 12) (ea : Ea) : (takeException o ea s).cfg = s.cfg := rfl
@[simp] theorem takeException_gpr (o : BitVec 12) (ea : Ea) : (takeException o ea s).gpr = s.gpr := rfl
@[simp] theorem takeException_pc (o : BitVec 12) (ea : Ea) : (takeException o ea s).pc = truncEa s.cfg.eaBits (s.cfg.vectorBase ++ o) := rfl
@[simp] theorem takeException_delaySlot (o : BitVec 12) (ea : Ea) : (takeException o ea s).delaySlot = none := rfl
@[simp] theorem takeException_sr (o : BitVec 12) (ea : Ea) : (takeException o ea s).sr = { s.sr with mode := .supervisor, dme := false, ime := false, ie := false, dsx := s.delaySlot.isSome } := rfl
@[simp] theorem takeException_esr (o : BitVec 12) (ea : Ea) : (takeException o ea s).esr = s.sr := rfl
@[simp] theorem takeException_epcr (o : BitVec 12) (ea : Ea) : (takeException o ea s).epcr = truncEa s.cfg.eaBits (match s.delaySlot with | some d => d.jump | none => s.pc) := rfl
@[simp] theorem takeException_eear (o : BitVec 12) (ea : Ea) : (takeException o ea s).eear = truncEa s.cfg.eaBits ea := rfl
@[simp] theorem takeException_dmmu (o : BitVec 12) (ea : Ea) : (takeException o ea s).dmmu = s.dmmu := rfl
@[simp] theorem takeException_immu (o : BitVec 12) (ea : Ea) : (takeException o ea s).immu = s.immu := rfl
@[simp] theorem takeException_mem (o : BitVec 12) (ea : Ea) : (takeException o ea s).mem = s.mem := rfl
@[simp] theorem takeException_bus (o : BitVec 12) (ea : Ea) : (takeException o ea s).bus = s.bus := rfl
@[simp] theorem takeException_inbox (o : BitVec 12) (ea : Ea) : (takeException o ea s).inbox = s.inbox := rfl
@[simp] theorem takeException_draws (o : BitVec 12) (ea : Ea) : (takeException o ea s).draws = s.draws := rfl

/-! ### leaveException -/

@[simp] theorem leaveException_cfg : (leaveException s).cfg = s.cfg := rfl
@[simp] theorem leaveException_gpr : (leaveException s).gpr = s.gpr := rfl
@[simp] theorem leaveException_pc : (leaveException s).pc = truncEa s.cfg.eaBits s.epcr := rfl
@[simp] theorem leaveException_delaySlot : (leaveException s).delaySlot = none := rfl
@[simp] theorem leaveException_sr : (leaveException s).sr = s.esr := rfl
@[simp] theorem leaveException_esr : (leaveException s).esr = s.esr := rfl
@[simp] theorem leaveException_epcr : (leaveException s).epcr = s.epcr := rfl
@[simp] theorem leaveException_eear : (leaveException s).eear = s.eear := rfl
@[simp] theorem leaveException_dmmu : (leaveException s).dmmu = s.dmmu := rfl
@[simp] theorem leaveException_immu : (leaveException s).immu = s.immu := rfl
@[simp] theorem leaveException_mem : (leaveException s).mem = s.mem := rfl
@[simp] theorem leaveException_bus : (leaveException s).bus = s.bus := rfl
@[simp] theorem leaveException_inbox : (leaveException s).inbox = s.inbox := rfl
@[simp] theorem leaveException_draws : (leaveException s).draws = s.draws := rfl

@[simp] theorem raiseMmu_eq (e : MmuException) (ea : Ea) : raiseMmu e ea s = takeException e.offset ea s := rfl

end Sys2Proof.Machine
end

