-- ==== Sys2Proof/Laws/Translate.lean ====
section
/-! SUPPORT. What the match, the search, the install and the two translations can do, each said once. -/

namespace Sys2Proof.Machine

section Match
variable {P : Type} {c : Config} {mc : MmuConfig} {m : Mmu P} {cid : BitVec 4} {e : PageEa}

theorem mem_fourIndices (y : BitVec 2) : y ∈ fourIndices := by revert y; decide

theorem mem_tlbHits {y : BitVec 2} :
    y ∈ tlbHits c mc m cid e ↔
      y.toNat < mc.ways ∧ tlbMatches c (m.entry y (tlbIndex mc e)).mr cid e = true := by
  simp [tlbHits, mem_fourIndices]

theorem mem_atbHits {i : BitVec 2} :
    i ∈ atbHits c mc m cid e ↔ i.toNat < mc.atbEntries ∧ atbMatches c (fileGet m.atb i).mr cid e = true := by
  simp [atbHits, mem_fourIndices]

theorem fourIndices_nodup : fourIndices.Nodup := by decide

/-- A filter of the four indices whose members are exactly y is [y]. -/
theorem filter_fourIndices_eq_singleton {p : BitVec 2 → Bool} {y : BitVec 2} (h : ∀ z, p z = true ↔ z = y) :
    fourIndices.filter p = [y] := by
  have hp : p = fun z => z == y := by
    funext z
    rw [Bool.eq_iff_iff]
    simp [h z]
  subst hp
  revert y
  decide

/-- A TLB hit: the entry is an implemented one of the address's set, it matches, and no other way does. -/
theorem lookup_tlb {y : BitVec 2} {k : BitVec 7} (h : lookup c mc m cid e = .hit (.tlb y k)) :
    k = tlbIndex mc e ∧ tlbHits c mc m cid e = [y] := by
  unfold lookup at h
  split at h
  · next y' h' => cases h; exact ⟨rfl, h'⟩
  · cases h
  · split at h <;> cases h

/-- An ATB hit: no TLB entry matches (R121), the entry matches and no other does. -/
theorem lookup_atb {i : BitVec 2} (h : lookup c mc m cid e = .hit (.atb i)) :
    tlbHits c mc m cid e = [] ∧ atbHits c mc m cid e = [i] := by
  unfold lookup at h
  split at h
  · cases h
  · cases h
  · next h0 =>
    split at h
    · next i' h' => cases h; exact ⟨h0, h'⟩
    · cases h
    · cases h

theorem lookup_miss_iff :
    lookup c mc m cid e = .miss ↔ tlbHits c mc m cid e = [] ∧ atbHits c mc m cid e = [] := by
  unfold lookup
  split
  · next h => simp [h]
  · next h => simp [h]
  · next h =>
    split
    · next h' => simp [h']
    · next h' => simp [h']
    · next h' => simp [h, h']

theorem tlbIndex_lt (h : 1 ≤ mc.sets) : (tlbIndex mc e).toNat < mc.sets := by
  unfold tlbIndex
  split
  · exact Nat.lt_of_le_of_lt (by simpa using Nat.mod_le _ _) (Nat.mod_lt _ h)
  · exact Nat.lt_of_le_of_lt (by simpa using Nat.mod_le _ _) (Nat.mod_lt _ h)

/-- What a lookup finds is implemented (R26). -/
theorem lookup_implemented {r : EntryRef} (hs : 1 ≤ mc.sets) (h : lookup c mc m cid e = .hit r) :
    r.implemented mc := by
  cases r with
  | tlb y k =>
    obtain ⟨rfl, h2⟩ := lookup_tlb h
    have : y ∈ tlbHits c mc m cid e := by simp [h2]
    exact ⟨(mem_tlbHits.1 this).1, tlbIndex_lt hs⟩
  | atb i =>
    have : i ∈ atbHits c mc m cid e := by simp [(lookup_atb h).2]
    exact (mem_atbHits.1 this).1

theorem victim_lt {n : Nat} {free : BitVec 8} (hn : n ≠ 0) : (victim n free).toNat < n :=
  Nat.lt_of_le_of_lt (by simpa [victim] using Nat.mod_le _ _) (Nat.mod_lt _ (Nat.pos_of_ne_zero hn))

end Match

section Search

/-- A PTE that a search finds is the word at its address, aligned and inside physical memory where the first
base is; it is valid (R90) and last (R91). -/
theorem walk_found {c : Config} {mem : Memory} {path : List (PageLevel × Nat)} {base : Nat} {pte : Pte}
    {level : PageLevel} {pa : Nat} (h : walk c mem base path = .found pte level pa) (hb : 4 ∣ base) :
    4 ∣ pa ∧ pa + 4 ≤ 2 ^ c.paBits ∧ pte = unpackPte c.layout.pte (physRead32 c mem pa) ∧ pte.ppi ≠ 0 ∧
      pte.l = true ∧ level ∈ path.map Prod.fst := by
  induction path generalizing base with
  | nil => cases h
  | cons p rest ih =>
    obtain ⟨lv, ix⟩ := p
    simp only [walk] at h
    split at h
    · cases h
    · next hlt =>
      split at h
      · cases h
      · next hppi =>
        split at h
        · next hl =>
          simp only [Search.found.injEq] at h
          obtain ⟨rfl, rfl, rfl⟩ := h
          exact ⟨by omega, by omega, rfl, hppi, hl, by simp⟩
        · obtain ⟨h1, h2, h3, h4, h5, h6⟩ := ih h (by omega)
          exact ⟨h1, h2, h3, h4, h5, by simp [h6]⟩

theorem ptBase_dvd (c : Config) (ptbp : BitVec 22) (cid : BitVec 4) : 4 ∣ ptBase c ptbp cid := by
  unfold ptBase
  split <;> omega

end Search

section Install
variable {P : Type} {c : Config} {x : Side} {m m' : Mmu P} {cid : BitVec 4} {e : PageEa} {pte : Pte}
  {level : PageLevel} {pa : Nat} {free : BitVec 64} {r : EntryRef}

/-- Everything an install can do: one TLB entry or one ATB entry is written (R113). -/
theorem install_cases (h : install c x m cid e pte level pa free = some (m', r)) :
    ((c.mmu x).ways ≠ 0 ∧ (level = .l2 ∨ level = .l1) ∧
      (m', r) = installTlb c (c.mmu x) (ppnWidths c.layout x).1 m cid e pte (decide (level = .l1)) pa free) ∨
    ((c.mmu x).atbEntries ≠ 0 ∧ (level = .l1 ∨ level = .l0) ∧
      (m', r) = installAtb c (c.mmu x) (ppnWidths c.layout x).2 m cid e pte (decide (level = .l0)) pa free) := by
  unfold install at h
  cases level <;> simp only at h
  · split at h
    · cases h
    · next h0 => exact .inr ⟨h0, .inr rfl, (Option.some.inj h).symm⟩
  · split at h
    · split at h
      · cases h
      · next h0 => exact .inr ⟨h0, .inl rfl, (Option.some.inj h).symm⟩
    · next hw =>
      split at h
      · exact .inl ⟨hw, .inr rfl, (Option.some.inj h).symm⟩
      · next h0 =>
        split at h
        · exact .inr ⟨h0, .inl rfl, (Option.some.inj h).symm⟩
        · exact .inl ⟨hw, .inr rfl, (Option.some.inj h).symm⟩
  · split at h
    · cases h
    · next hw => exact .inl ⟨hw, .inl rfl, (Option.some.inj h).symm⟩

/-- What an install writes is implemented (R26, R113). -/
theorem install_implemented (hs : 1 ≤ (c.mmu x).sets)
    (h : install c x m cid e pte level pa free = some (m', r)) : r.implemented (c.mmu x) := by
  rcases install_cases h with ⟨hw, -, h⟩ | ⟨ha, -, h⟩
  · simp only [installTlb, Prod.mk.injEq] at h
    obtain ⟨-, rfl⟩ := h
    exact ⟨victim_lt hw, tlbIndex_lt hs⟩
  · simp only [installAtb, Prod.mk.injEq] at h
    obtain ⟨-, rfl⟩ := h
    exact victim_lt ha

end Install

section Xlat
variable {P : Type} {c : Config} {x : Side} {store : Bool} {ok : P → Bool} {mem : Memory} {cid : BitVec 4}
  {ea : Ea} {m m' : Mmu P} {draws k : Nat} {pa : Pa} {at' : Attrs} {f : Failure} {r : EntryRef} {e : PageEa}

/-- A permitted access through an entry (R140 steps 5 and 6). -/
theorem useEntry_done (h : useEntry c x store ok m draws e r = .done m' k pa at') :
    ok (m.trOf r).prot = true ∧ k = draws + 1 ∧
      m' = ((m.owe r true store).setTr r ((m.trOf r).accessed store)).redrawLru (c.mmu x).ways
        (tlbIndex (c.mmu x) e) (Config.freeBits draws) ∧
      pa = formPa c (m.levelOf r) (m.trOf r).ppn e ∧ at' = (m.trOf r).attrs := by
  unfold useEntry at h
  simp only at h
  split at h
  · next hok => cases h; exact ⟨hok, rfl, rfl, rfl, rfl⟩
  · cases h

/-- A prohibited access through an entry (R127, R130). -/
theorem useEntry_raise (h : useEntry c x store ok m draws e r = .raise m' k f) :
    ok (m.trOf r).prot = false ∧ k = draws + 1 ∧ f = .pageFault ∧
      m' = (m.owe r ((Config.freeBits draws).getLsbD 0) (store && (Config.freeBits draws).getLsbD 1)).setTr r
        ((m.trOf r).denied store (Config.freeBits draws)) := by
  unfold useEntry at h
  simp only at h
  split at h
  · cases h
  · next hok => cases h; exact ⟨by simpa using hok, rfl, rfl, rfl⟩

theorem useEntry_ne_stop {q : Refusal} : useEntry c x store ok m draws e r ≠ .stop q := by
  unfold useEntry
  simp only
  split <;> simp

/-- Everything a translation can do (R140, R141): stop; raise without touching the MMU; use an entry that
matched; or use an entry that a reload has just installed. -/
theorem translate_cases :
    (∃ q, translate c x store ok mem cid ea m draws = .stop q) ∨
    (lookup c (c.mmu x) m cid (pageEa c.eaBits ea) = .miss ∧
      ∃ f, translate c x store ok mem cid ea m draws = .raise m draws f) ∨
    (∃ r, lookup c (c.mmu x) m cid (pageEa c.eaBits ea) = .hit r ∧
      translate c x store ok mem cid ea m draws = useEntry c x store ok m draws (pageEa c.eaBits ea) r) ∨
    (∃ pte level pa m1 r, lookup c (c.mmu x) m cid (pageEa c.eaBits ea) = .miss ∧ (c.mmu x).hwReload = true ∧
      search c mem m.ptbp cid (pageEa c.eaBits ea) = .found pte level pa ∧
      install c x m cid (pageEa c.eaBits ea) pte level pa (Config.freeBits draws) = some (m1, r) ∧
      translate c x store ok mem cid ea m draws =
        useEntry c x store ok m1 (draws + 1) (pageEa c.eaBits ea) r) := by
  unfold translate
  simp only
  split
  · exact .inl ⟨_, rfl⟩
  · next r h => exact .inr (.inr (.inl ⟨r, h, rfl⟩))
  · next hm =>
    split
    · next hw =>
      split
      · exact .inr (.inl ⟨hm, _, rfl⟩)
      · exact .inl ⟨_, rfl⟩
      · next pte level pa hs =>
        split
        · exact .inl ⟨_, rfl⟩
        · next m1 r hi => exact .inr (.inr (.inr ⟨pte, level, pa, m1, r, hm, hw, hs, hi, rfl⟩))
    · exact .inr (.inl ⟨hm, _, rfl⟩)

/-- A property of one half that an install, an owed update, a change of the history bits of an implemented entry and a
redraw of LRU fields keep is kept by every translation. -/
theorem translate_keeps (Q : Mmu P → Prop) (hs : 1 ≤ (c.mmu x).sets)
    (hinstall : ∀ m1 e pte level pa free m2 r, Q m1 → search c mem m1.ptbp cid e = .found pte level pa →
      install c x m1 cid e pte level pa free = some (m2, r) → Q m2)
    (howe : ∀ m1 r a d, Q m1 → r.implemented (c.mmu x) → Q (m1.owe r a d))
    (haccessed : ∀ m1 r, Q m1 → r.implemented (c.mmu x) → Q (m1.setTr r ((m1.trOf r).accessed store)))
    (hdenied : ∀ m1 r free, Q m1 → r.implemented (c.mmu x) → Q (m1.setTr r ((m1.trOf r).denied store free)))
    (hlru : ∀ m1 e free, Q m1 → Q (m1.redrawLru (c.mmu x).ways (tlbIndex (c.mmu x) e) free)) (hm : Q m) :
    (∀ m' k pa at', translate c x store ok mem cid ea m draws = .done m' k pa at' → Q m') ∧
    (∀ m' k f, translate c x store ok mem cid ea m draws = .raise m' k f → Q m') := by
  have huse : ∀ m1 d r, Q m1 → r.implemented (c.mmu x) →
      (∀ m' k pa at', useEntry c x store ok m1 d (pageEa c.eaBits ea) r = .done m' k pa at' → Q m') ∧
      (∀ m' k f, useEntry c x store ok m1 d (pageEa c.eaBits ea) r = .raise m' k f → Q m') := by
    intro m1 d r h1 hr
    refine ⟨fun m' k pa at' h => ?_, fun m' k f h => ?_⟩
    · obtain ⟨-, -, rfl, -, -⟩ := useEntry_done h
      exact hlru _ _ _ (by simpa using haccessed _ _ (howe _ r true store h1 hr) hr)
    · obtain ⟨-, -, -, rfl⟩ := useEntry_raise h
      have := hdenied _ _ (Config.freeBits d) (howe _ r ((Config.freeBits d).getLsbD 0) (store && (Config.freeBits d).getLsbD 1) h1 hr) hr
      simpa using this
  rcases translate_cases (c := c) (x := x) (store := store) (ok := ok) (mem := mem) (cid := cid) (ea := ea)
      (m := m) (draws := draws) with
    ⟨q, h⟩ | ⟨-, f, h⟩ | ⟨r, hl, h⟩ | ⟨pte, level, pa, m1, r, -, -, hsr, hi, h⟩
  · rw [h]; exact ⟨by simp, by simp⟩
  · rw [h]
    refine ⟨by simp, fun m' k f h => ?_⟩
    simp only [Xlat.raise.injEq] at h
    exact h.1 ▸ hm
  · rw [h]; exact huse _ _ _ hm (lookup_implemented hs hl)
  · rw [h]; exact huse _ _ _ (hinstall _ _ _ _ _ _ _ _ hm hsr hi) (install_implemented hs hi)

end Xlat

section Access
variable {s t : State} {ea : Ea} {store : Bool} {pa : Pa} {at' : Attrs} {q : Refusal}

/-- A data access that goes through (R140, R142): the state changes in the data MMU and the free values only. -/
theorem dTranslate_ok (h : dTranslate store ea s = .ok (pa, at') t) :
    (s.sr.dme = true ∧ ∃ m k, t = { s with dmmu := m, draws := k } ∧
      translate s.cfg .d store (dPermits store s.sr.mode) s.mem (seenCid s.cfg s.sr.cid) ea s.dmmu s.draws =
        .done m k pa at') ∨
    (s.sr.dme = false ∧ t = countDraw s ∧ pa = truncPa s.cfg ((truncEa s.cfg.eaBits ea).setWidth 35)) := by
  unfold dTranslate at h
  split at h
  · next hon =>
    split at h
    · next m k pa' a' hx =>
      simp only [Access.ok.injEq, Prod.mk.injEq] at h
      obtain ⟨⟨rfl, rfl⟩, rfl⟩ := h
      exact .inl ⟨hon, m, k, rfl, hx⟩
    · cases h
    · cases h
  · next hoff =>
    simp only [untranslated, Access.ok.injEq, Prod.mk.injEq] at h
    obtain ⟨⟨rfl, -⟩, rfl⟩ := h
    exact .inr ⟨by simpa using hoff, rfl, rfl⟩

/-- A data access that an exception ends (R221, R222). -/
theorem dTranslate_trap (h : dTranslate store ea s = .trap t) :
    s.sr.dme = true ∧ ∃ m k f, t = raiseMmu (Failure.data f) ea { s with dmmu := m, draws := k } ∧
      translate s.cfg .d store (dPermits store s.sr.mode) s.mem (seenCid s.cfg s.sr.cid) ea s.dmmu s.draws =
        .raise m k f := by
  unfold dTranslate at h
  split at h
  · next hon =>
    split at h
    · cases h
    · next m k f hx => cases h; exact ⟨hon, m, k, f, rfl, hx⟩
    · cases h
  · cases h

/-- A fetch access that goes through (R141, R142). -/
theorem iTranslate_ok (h : iTranslate ea s = .ok (pa, at') t) :
    (s.sr.ime = true ∧ ∃ m k, t = { s with immu := m, draws := k } ∧
      translate s.cfg .i false (iPermits s.sr.mode) s.mem (seenCid s.cfg s.sr.cid) ea s.immu s.draws =
        .done m k pa at') ∨
    (s.sr.ime = false ∧ t = countDraw s ∧ pa = truncPa s.cfg ((truncEa s.cfg.eaBits ea).setWidth 35)) := by
  unfold iTranslate at h
  split at h
  · next hon =>
    split at h
    · next m k pa' a' hx =>
      simp only [Access.ok.injEq, Prod.mk.injEq] at h
      obtain ⟨⟨rfl, rfl⟩, rfl⟩ := h
      exact .inl ⟨hon, m, k, rfl, hx⟩
    · cases h
    · cases h
  · next hoff =>
    simp only [untranslated, Access.ok.injEq, Prod.mk.injEq] at h
    obtain ⟨⟨rfl, -⟩, rfl⟩ := h
    exact .inr ⟨by simpa using hoff, rfl, rfl⟩

/-- A fetch access that an exception ends (R221, R222). -/
theorem iTranslate_trap (h : iTranslate ea s = .trap t) :
    s.sr.ime = true ∧ ∃ m k f, t = raiseMmu (Failure.insn f) ea { s with immu := m, draws := k } ∧
      translate s.cfg .i false (iPermits s.sr.mode) s.mem (seenCid s.cfg s.sr.cid) ea s.immu s.draws =
        .raise m k f := by
  unfold iTranslate at h
  split at h
  · next hon =>
    split at h
    · cases h
    · next m k f hx => cases h; exact ⟨hon, m, k, f, rfl, hx⟩
    · cases h
  · cases h

/-- A fetch that goes through: the translation's state, with the access on the bus record. -/
theorem fetchInsn_ok {bytes : List Byte} (h : fetchInsn s = .ok bytes t) :
    (truncEa s.cfg.eaBits s.pc).extractLsb' 0 2 = 0 ∧
      ∃ pa at' u, iTranslate (truncEa s.cfg.eaBits s.pc) s = .ok (pa, at') u ∧
        bytes = readBytes u.cfg u.mem pa.toNat 4 ∧
        t = { u with bus := [{ kind := .fetch, ea := truncEa s.cfg.eaBits s.pc, pa := pa, attrs := at', data := bytes }] } := by
  unfold fetchInsn at h
  simp only at h
  split at h
  · next hal =>
    split at h
    · next pa a' u hx => cases h; exact ⟨hal, pa, a', u, hx, rfl, rfl⟩
    · cases h
    · cases h
  · cases h

/-- A fetch that an exception ends. -/
theorem fetchInsn_trap (h : fetchInsn s = .trap t) : iTranslate (truncEa s.cfg.eaBits s.pc) s = .trap t := by
  unfold fetchInsn at h
  simp only at h
  split at h
  · split at h
    · cases h
    · next u hx => cases h; exact hx
    · cases h
  · cases h

end Access

end Sys2Proof.Machine
end

