-- ==== Sys2Proof/Laws/Step.lean ====
section
/-! SUPPORT. What the two instructions, an input and a step can do, each said once. -/

namespace Sys2Proof.Machine

section SprWrite
variable (r : Spr) (v : Ea) (s : State)

/-- A register write changes the two halves of the MMU and the free values only (R200). -/
theorem sprStore_eq : sprStore r v s =
    { s with dmmu := (sprStore r v s).dmmu, immu := (sprStore r v s).immu, draws := (sprStore r v s).draws } := by
  unfold sprStore
  split <;> rfl

theorem sprWrite_eq : sprWrite r v s =
    { s with dmmu := (sprWrite r v s).dmmu, immu := (sprWrite r v s).immu, draws := (sprWrite r v s).draws } := by
  unfold sprWrite
  split
  · exact sprStore_eq r v s
  · rfl

@[simp] theorem sprWrite_cfg : (sprWrite r v s).cfg = s.cfg := by rw [sprWrite_eq]
@[simp] theorem sprWrite_gpr : (sprWrite r v s).gpr = s.gpr := by rw [sprWrite_eq]
@[simp] theorem sprWrite_pc : (sprWrite r v s).pc = s.pc := by rw [sprWrite_eq]
@[simp] theorem sprWrite_delaySlot : (sprWrite r v s).delaySlot = s.delaySlot := by rw [sprWrite_eq]
@[simp] theorem sprWrite_sr : (sprWrite r v s).sr = s.sr := by rw [sprWrite_eq]
@[simp] theorem sprWrite_esr : (sprWrite r v s).esr = s.esr := by rw [sprWrite_eq]
@[simp] theorem sprWrite_epcr : (sprWrite r v s).epcr = s.epcr := by rw [sprWrite_eq]
@[simp] theorem sprWrite_eear : (sprWrite r v s).eear = s.eear := by rw [sprWrite_eq]
@[simp] theorem sprWrite_mem : (sprWrite r v s).mem = s.mem := by rw [sprWrite_eq]
@[simp] theorem sprWrite_bus : (sprWrite r v s).bus = s.bus := by rw [sprWrite_eq]
@[simp] theorem sprWrite_inbox : (sprWrite r v s).inbox = s.inbox := by rw [sprWrite_eq]

/-- A write of a register that the implementation lacks is ignored (D22). -/
theorem sprWrite_unimplemented (h : r.implemented s.cfg = false) : sprWrite r v s = s := by
  simp [sprWrite, h]

theorem sprWrite_implemented (h : r.implemented s.cfg = true) : sprWrite r v s = sprStore r v s := by
  simp [sprWrite, h]

end SprWrite

section Exec
variable {s t : State} {d a b : BitVec 5} {k : BitVec 16} {r : Spr}

/-- Everything `l.mfspr` can come to as a next state (R181, R183). -/
theorem execMfspr_next (h : execMfspr d a k s = .next t) :
    ∃ r, sprOf s.cfg (sprAddress s a k) = some r ∧
      ((s.sr.mode = .supervisor ∧ t = advance (writeGpr (countDraw s) d (sprRead r s))) ∨
       (s.sr.mode = .user ∧ ∃ v, s.cfg.userSprAccess = .raise v ∧ t = takeException v (drawn s) (countDraw s))) := by
  unfold execMfspr at h
  split at h
  · cases h
  · next r hr =>
    refine ⟨r, hr, ?_⟩
    split at h
    · next hm =>
      unfold userSprAccess at h
      split at h
      · cases h
      · next v hv => cases h; exact .inr ⟨hm, v, hv, rfl⟩
    · next hm => cases h; exact .inl ⟨hm, rfl⟩

/-- Everything `l.mtspr` can come to as a next state (R182, R183). -/
theorem execMtspr_next (h : execMtspr a b k s = .next t) :
    ∃ r, sprOf s.cfg (sprAddress s a k) = some r ∧ (∀ x, r ≠ .mmucfgr x) ∧
      ((s.sr.mode = .supervisor ∧ t = advance (sprWrite r (readGpr s b) s)) ∨
       (s.sr.mode = .user ∧ ∃ v, s.cfg.userSprAccess = .raise v ∧ t = takeException v (drawn s) (countDraw s))) := by
  unfold execMtspr at h
  split at h
  · cases h
  · cases h
  · next r hne hr =>
    refine ⟨r, hr, fun x hx => hne x hx, ?_⟩
    split at h
    · next hm =>
      unfold userSprAccess at h
      split at h
      · cases h
      · next v hv => cases h; exact .inr ⟨hm, v, hv, rfl⟩
    · next hm => cases h; exact .inl ⟨hm, rfl⟩

theorem execMfspr_supervisor (hr : sprOf s.cfg (sprAddress s a k) = some r) (hm : s.sr.mode = .supervisor) :
    execMfspr d a k s = .next (advance (writeGpr (countDraw s) d (sprRead r s))) := by
  simp [execMfspr, hr, hm]

theorem execMtspr_supervisor (hr : sprOf s.cfg (sprAddress s a k) = some r) (hx : ∀ x, r ≠ .mmucfgr x)
    (hm : s.sr.mode = .supervisor) : execMtspr a b k s = .next (advance (sprWrite r (readGpr s b) s)) := by
  unfold execMtspr
  rw [hr]
  cases r <;> simp_all

theorem execMfspr_user (hr : sprOf s.cfg (sprAddress s a k) = some r) (hm : s.sr.mode = .user) :
    execMfspr d a k s = userSprAccess s := by
  simp [execMfspr, hr, hm]

theorem execMtspr_user (hr : sprOf s.cfg (sprAddress s a k) = some r) (hx : ∀ x, r ≠ .mmucfgr x)
    (hm : s.sr.mode = .user) : execMtspr a b k s = userSprAccess s := by
  unfold execMtspr
  rw [hr]
  cases r <;> simp_all

end Exec

section Inputs
variable {s t : State}

/-- An access in one page is one translation (R140). -/
theorem translateAccess_onePage {store : Bool} {ea : Ea} {n : Nat} (h : inOnePage ea n = true) :
    translateAccess store ea n s =
      match dTranslate store ea s with
      | .stop r => .stop r
      | .trap t => .trap t
      | .ok (pa, at') t => .ok [{ ea := truncEa s.cfg.eaBits ea, pa := pa, attrs := at', size := n }] t := by
  rcases hd : dTranslate store ea s with _ | _ | ⟨_, _⟩ <;> simp [translateAccess, h, translateParts, hd]

/-- A property of states that every translation keeps, done or raised, is kept by the translation of the parts of an
access; after it raises, the property `R` that a raise establishes holds. -/
theorem translateParts_keeps {store : Bool} (Q R : State → Prop)
    (hok : ∀ ea p u v, Q u → dTranslate store ea u = .ok p v → Q v)
    (htrap : ∀ ea u v, Q u → dTranslate store ea u = .trap v → R v) (l : List (Ea × Nat)) (hs : Q s) :
    (∀ parts u, translateParts store l s = .ok parts u → Q u) ∧
    ∀ u, translateParts store l s = .trap u → R u := by
  induction l generalizing s with
  | nil =>
    refine ⟨fun parts u h => ?_, fun u h => ?_⟩
    · simp only [translateParts, Access.ok.injEq] at h
      exact h.2 ▸ hs
    · simp [translateParts] at h
  | cons q l ih =>
    simp only [translateParts]
    split
    · simp
    · next v hv => simpa using htrap _ _ _ hs hv
    · next pa at' v hv =>
      have hq := hok _ _ _ _ hs hv
      split
      · simp
      · next w hw => simpa using (ih hq).2 w hw
      · next parts w hw => simpa using (ih hq).1 parts w hw

/-- The same for a whole data access; a free value may be taken first. -/
theorem translateAccess_keeps {store : Bool} {ea : Ea} {n : Nat} (Q R : State → Prop) (hdraw : ∀ u, Q u → Q (countDraw u))
    (hok : ∀ ea p u v, Q u → dTranslate store ea u = .ok p v → Q v)
    (htrap : ∀ ea u v, Q u → dTranslate store ea u = .trap v → R v) (hs : Q s) :
    (∀ parts u, translateAccess store ea n s = .ok parts u → Q u) ∧
    ∀ u, translateAccess store ea n s = .trap u → R u := by
  unfold translateAccess
  split
  · exact translateParts_keeps Q R hok htrap _ hs
  · exact translateParts_keeps Q R hok htrap _ (hdraw _ hs)

/-- The translation of a data access changes nothing but the data MMU and the count of free values. -/
theorem translateAccess_ok {store : Bool} {ea : Ea} {n : Nat} {parts : List Part}
    (h : translateAccess store ea n s = .ok parts t) : t = { s with dmmu := t.dmmu, draws := t.draws } := by
  refine (translateAccess_keeps (fun u => u = { s with dmmu := u.dmmu, draws := u.draws }) (fun _ => True)
    (fun u hu => by rw [hu]; rfl) (fun ea p u v hu hv => ?_) (fun _ _ _ _ _ => trivial) rfl).1 parts t h
  rcases dTranslate_ok hv with ⟨-, m, k, rfl, -⟩ | ⟨-, rfl, -⟩
  · rw [hu]
  · rw [hu]; rfl

/-- A data access that raises takes the exception of the part that failed, and changes besides nothing but the data
MMU and the count of free values (R222). -/
theorem translateAccess_trap {store : Bool} {ea : Ea} {n : Nat} (h : translateAccess store ea n s = .trap t) :
    ∃ m k f ea', t = raiseMmu (Failure.data f) ea' { s with dmmu := m, draws := k } := by
  refine (translateAccess_keeps (fun u => u = { s with dmmu := u.dmmu, draws := u.draws })
    (fun u => ∃ m k f ea', u = raiseMmu (Failure.data f) ea' { s with dmmu := m, draws := k })
    (fun u hu => by rw [hu]; rfl) (fun ea p u v hu hv => ?_) (fun ea u v hu hv => ?_) rfl).2 t h
  · rcases dTranslate_ok hv with ⟨-, m, k, rfl, -⟩ | ⟨-, rfl, -⟩
    · rw [hu]
    · rw [hu]; rfl
  · obtain ⟨-, m, k, f, rfl, -⟩ := dTranslate_trap hv
    exact ⟨m, k, f, ea, by rw [hu]⟩

/-- Everything the data access of a load or a store can come to as a next state (R230, R140). -/
theorem dataAccess_next {store : Bool} {ea : Ea} {n : Nat} {act : List Part → State → State}
    (h : dataAccess store ea n act s = .next t) :
    fetchInsn s = .trap t ∨
    ∃ bytes u, fetchInsn s = .ok bytes u ∧
      (translateAccess store ea n u = .trap t ∨
       ∃ parts w, translateAccess store ea n u = .ok parts w ∧ t = advance (act parts w)) := by
  unfold dataAccess at h
  split at h
  · cases h
  · next u hu => cases h; exact .inl hu
  · next bytes u hu =>
    refine .inr ⟨bytes, u, hu, ?_⟩
    split at h
    · cases h
    · next w hw => cases h; exact .inl hw
    · next parts w hw => cases h; exact .inr ⟨parts, w, hw, rfl⟩

theorem dataAccess_no_fault {store : Bool} {ea : Ea} {n : Nat} {act : List Part → State → State} {f : Fault} :
    dataAccess store ea n act s ≠ .fault f := by
  unfold dataAccess
  split
  · simp
  · simp
  · split <;> simp

/-- Everything an instruction outside the opcode table that makes no data access can come to as a next state. -/
theorem inputInsn_next {act : CoreAct} (h : inputInsn act s = .next t) :
    fetchInsn s = .trap t ∨
    ∃ bytes u, fetchInsn s = .ok bytes u ∧ t = coreAct act (if act.sequential then advance u else u) := by
  unfold inputInsn at h
  split at h
  · cases h
  · next u hu => cases h; exact .inl hu
  · next bytes u hu => cases h; exact .inr ⟨bytes, u, hu, rfl⟩

theorem inputInsn_no_fault {act : CoreAct} {f : Fault} : inputInsn act s ≠ .fault f := by
  unfold inputInsn
  split <;> simp

/-- What the core does to its registers leaves memory, both halves of the MMU, the configuration and the inbox. -/
theorem coreAct_eq (act : CoreAct) : coreAct act s =
    { s with gpr := (coreAct act s).gpr, pc := (coreAct act s).pc, delaySlot := (coreAct act s).delaySlot,
             sr := (coreAct act s).sr } := by
  cases act <;> rfl

/-- A load changes the bus record and at most one general register. -/
theorem loadAct_eq (dest : Option (BitVec 5 × Ea)) (parts : List Part) : loadAct dest parts s =
    { s with gpr := (loadAct dest parts s).gpr, bus := loadBus s.cfg s.mem parts } := by
  rcases dest with _ | ⟨r, v⟩ <;> rfl

/-- The parts of a store keep the canonical form of memory. -/
theorem wf_storeMem (c : Config) (l : List (Part × List Byte)) {m : Memory} (h : m.wf = true) :
    (storeMem c m l).wf = true := by
  induction l generalizing m with
  | nil => exact h
  | cons q l ih => exact ih (wf_writeBytes c h _ _)

theorem storeMem_bounded (c : Config) (l : List (Part × List Byte)) {m : Memory}
    (h : ∀ x ∈ m, x.1 < 2 ^ c.paBits) : ∀ x ∈ storeMem c m l, x.1 < 2 ^ c.paBits := by
  induction l generalizing m with
  | nil => exact h
  | cons q l ih => exact ih (writeBytes_bounded c h _ _)

/-- Everything the first half of a history update can do (R131): nothing, or an update that was owed is in progress. -/
theorem readHist_cases {P : Type} {c : Config} {mem : Memory} {k : Nat} {a d : Bool} {m : Mmu P} :
    m.readHist c mem k a d = m ∨
    ∃ o, m.owed[k]? = some o ∧ isPagePte c.layout.pte (physRead32 c mem o.pa.toNat) = true ∧
      m.readHist c mem k a d =
        { m with
          owed := m.owed.set k { o with a := o.a && !a, d := o.d && !d }
          hist := m.hist ++
            [{ pa := o.pa, word := physRead32 c mem o.pa.toNat, a := o.a && a, d := o.d && d }] } := by
  unfold Mmu.readHist
  split
  · next o ho =>
    simp only
    split
    · next hp =>
      rw [Bool.and_eq_true] at hp
      exact .inr ⟨o, ho, hp.2, rfl⟩
    · exact .inl rfl
  · exact .inl rfl

/-- Everything the reload agent can come to as a next state (R112 to R114). -/
theorem inputReload_next {x : Side} {ea : Ea} (h : inputReload x ea s = .next t) :
    ((s.cfg.mmu x).hwReload = false ∧ t = s) ∨
    ((s.cfg.mmu x).hwReload = true ∧
      ((x = .d ∧ ∃ m, reloadHalf s.cfg .d s.mem (seenCid s.cfg s.sr.cid) ea s.draws s.dmmu = .ok m ∧
          t = { countDraw s with dmmu := m }) ∨
       (x = .i ∧ ∃ m, reloadHalf s.cfg .i s.mem (seenCid s.cfg s.sr.cid) ea s.draws s.immu = .ok m ∧
          t = { countDraw s with immu := m }))) := by
  unfold inputReload at h
  split at h
  · next hw =>
    refine .inr ⟨hw, ?_⟩
    split at h
    · split at h
      · cases h
      · next m hm => cases h; exact .inl ⟨rfl, m, hm, rfl⟩
    · split at h
      · cases h
      · next m hm => cases h; exact .inr ⟨rfl, m, hm, rfl⟩
  · next hw => cases h; exact .inl ⟨by simpa using hw, rfl⟩

theorem reloadHalf_ok {P : Type} {c : Config} {x : Side} {mem : Memory} {cid : BitVec 4} {ea : Ea} {draws : Nat}
    {m m' : Mmu P} (h : reloadHalf c x mem cid ea draws m = .ok m') :
    m' = m ∨ ∃ pte level pa r, search c mem m.ptbp cid (pageEa c.eaBits ea) = .found pte level pa ∧
      install c x m cid (pageEa c.eaBits ea) pte level pa (Config.freeBits draws) = some (m', r) := by
  unfold reloadHalf at h
  simp only at h
  split at h
  · cases h; exact .inl rfl
  · cases h
  · next pte level pa hs =>
    split at h
    · cases h
    · next m1 r hi => cases h; exact .inr ⟨pte, level, pa, r, hs, hi⟩

end Inputs

section Step
variable {s t : State}

/-- Everything a step can come to as a next state: an input of another agent, an exception of the fetch, or the
decoded instruction. -/
theorem step_next (h : step s = .next t) :
    (∃ e rest, s.inbox = e :: rest ∧ runInput e { s with inbox := rest } = .next t) ∨
    (s.inbox = [] ∧ fetchInsn s = .trap t) ∨
    (s.inbox = [] ∧ ∃ bytes u i rest, fetchInsn s = .ok bytes u ∧ decode u.cfg.endian bytes = some (i, rest) ∧
      exec i u = .next t) := by
  unfold step at h
  split at h
  · next e rest he => exact .inl ⟨e, rest, he, h⟩
  · next he =>
    split at h
    · cases h
    · next u hu => cases h; exact .inr (.inl ⟨he, hu⟩)
    · next bytes u hu =>
      split at h
      · cases h
      · next i rest hd => exact .inr (.inr ⟨he, bytes, u, i, rest, hu, hd, h⟩)

end Step

end Sys2Proof.Machine
end

