-- ==== Sys2Proof/Tests/Slice0.lean ====
section
/-! SUPPORT. Own tests: the well-formedness checks refuse ill-formed terms; words of 95_test_vectors.md decode; a few
vectors of 95_test_vectors.md as one step; and for every statement with hypotheses a concrete case that meets them. -/

namespace Sys2Proof.Tests

open Sys2Proof Sys2Proof.Machine

/-! One declaration at a time: each `decide +kernel` waits for the declarations before it, on a thread of its own. -/
set_option Elab.async false

/-! ### WellFormed: one ill-formed term for each check -/

theorem test_default_wf : Config.default.wf = true := by decide +kernel

theorem test_wf_refuses_pa_bits_0 : { Config.default with paBits := 0 }.wf = false := by decide +kernel

theorem test_wf_refuses_pa_bits_36 : { Config.default with paBits := 36 }.wf = false := by decide +kernel

theorem test_wf_refuses_data_half : { Config.default with d.ways := 5 }.wf = false := by decide +kernel

theorem test_wf_refuses_insn_half : { Config.default with i.ways := 5 }.wf = false := by decide +kernel

theorem test_wf_refuses_layout : { Config.default with layout.pte.l := 8 }.wf = false := by decide +kernel

theorem test_wf_refuses_user_access :
    { Config.default with userSprAccess := .raise 0x300 }.wf = false ∧
    { Config.default with userSprAccess := .raise 0x400 }.wf = false ∧
    { Config.default with userSprAccess := .raise 0x900 }.wf = false ∧
    { Config.default with userSprAccess := .raise 0xA00 }.wf = false := by decide +kernel

theorem test_mmu_wf_refuses_ways : { MmuConfig.default with ways := 5 }.wf = false := by decide

theorem test_mmu_wf_refuses_no_set : { MmuConfig.default with sets := 0 }.wf = false := by decide

theorem test_mmu_wf_refuses_sets : { MmuConfig.default with sets := 129, tlbIndex := .other 0 }.wf = false := by decide

theorem test_mmu_wf_refuses_default_index_of_3_sets : { MmuConfig.default with sets := 3 }.wf = false := by decide

theorem test_mmu_wf_refuses_atb : { MmuConfig.default with atbEntries := 5 }.wf = false := by decide

theorem test_mmu_wf_refuses_reload_without_control :
    { MmuConfig.default with hwReload := true, crImpl := false }.wf = false := by decide

theorem test_mmu_wf_refuses_reload_without_base :
    { MmuConfig.default with hwReload := true, ptbpImpl := false }.wf = false := by decide

theorem test_mmu_wf_refuses_reload_without_protection :
    { MmuConfig.default with hwReload := true, prImpl := false }.wf = false := by decide

theorem test_layout_wf_refuses_overlaps :
    { Layout.default with dcr.tf := 31 }.wf = false ∧ { Layout.default with icr.tf := 10 }.wf = false ∧
    { Layout.default with dpr := .replicate 7 ⟨0, 1, 2, 3⟩ }.wf = false ∧
    { Layout.default with ipr := .replicate 7 ⟨0, 1⟩ }.wf = false ∧
    { Layout.default with mr.pl1 := 0 }.wf = false ∧ { Layout.default with amr.ps := 4 }.wf = false ∧
    { Layout.default with dtr.a := 6 }.wf = false ∧ { Layout.default with itr.a := 6 }.wf = false ∧
    { Layout.default with datr.a := 6 }.wf = false ∧ { Layout.default with iatr.a := 6 }.wf = false ∧
    { Layout.default with pte.ppi := 7 }.wf = false := by decide +kernel

theorem test_layout_wf_refuses_bit_32 : { Layout.default with mr.vpn := 14 }.wf = false := by decide +kernel

theorem test_layout_wf_refuses_wide_ppn :
    { Layout.default with itr.ppn := 9, itr.ppnWidth := 23 }.wf = false ∧
    { Layout.default with iatr.ppn := 9, iatr.ppnWidth := 23 }.wf = false := by decide +kernel

/-! ### Decoding: words of 95_test_vectors.md section 10.1 -/

theorem test_decode_mfspr : decodeWord 0xB4A20000 = some (.mfspr 5 2 0) := by decide

theorem test_decode_mfspr_aa2 : decodeWord 0xB4C00AA2 = some (.mfspr 6 0 0x0AA2) := by decide

theorem test_decode_mtspr : decodeWord 0xC0201A00 = some (.mtspr 0 3 0x0A00) := by decide

theorem test_decode_mtspr_split_k : decodeWord 0xC0401A01 = some (.mtspr 0 3 0x1201) := by decide

theorem test_decode_mtspr_low_k : decodeWord 0xC0021800 = some (.mtspr 2 3 0) := by decide

theorem test_decode_refuses_other_opcode : decodeWord 0x18600000 = none := by decide

theorem test_decode_little_endian :
    decode .little [0x00, 0x0A, 0xA0, 0xB4] = some (.mfspr 5 0 0x0A00, []) := by decide

theorem test_decode_refuses_three_bytes : decode .big [0xB4, 0xA0, 0x0A] = none := by decide

/-! ### A small machine -/

/-- A translate register of zeros. -/
def zeroTr {P : Type} (p : P) : TransReg P where
  attrs := ⟨false, false, false, false⟩
  a := false
  d := false
  prot := p
  ppn := 0

/-- One half of the MMU with every register 0, so no entry valid. -/
def zeroMmu {P : Type} (p : P) : Mmu P where
  tf := false
  ptbp := 0
  pr := groupsOf fun _ => p
  tlb := fileOf 9 fun _ => { mr := ⟨false, false, 0, 0, 0⟩, tr := zeroTr p, origin := none }
  atb := fileOf 2 fun _ => { mr := ⟨false, 0, false, 0⟩, tr := zeroTr p, origin := none }
  owed := []
  hist := []

/-- A machine in supervisor mode, MMUs off, every register 0 and nothing listed in memory. -/
def small (c : Config) : State where
  cfg := c
  gpr := fileOf 5 fun _ => 0
  pc := 0
  delaySlot := none
  sr := ⟨.supervisor, false, false, 0, false, false⟩
  esr := ⟨.supervisor, false, false, 0, false, false⟩
  epcr := 0
  eear := 0
  dmmu := zeroMmu ⟨false, false, false, false⟩
  immu := zeroMmu ⟨false, false⟩
  mem := []
  bus := []
  inbox := []
  draws := 0

/-- The same with both MMUs on, a mode and a context. -/
def running (c : Config) (mode : Mode) (cid : BitVec 4) : State :=
  { small c with sr := ⟨mode, true, true, cid, false, false⟩ }

/-- General register 3 holds v. -/
def withR3 (s : State) (v : Ea) : State := { s with gpr := fileSet s.gpr 3 v }

/-- A DTLB entry from its two register words. -/
def withDtlb (s : State) (y : BitVec 2) (k : BitVec 7) (mr tr : Word) : State :=
  { s with dmmu := s.dmmu.setEntry y k ⟨mrOfWord s.cfg mr, dtrOfWord s.cfg.layout tr, none⟩ }

/-- An ITLB entry from its two register words. -/
def withItlb (s : State) (y : BitVec 2) (k : BitVec 7) (mr tr : Word) : State :=
  { s with immu := s.immu.setEntry y k ⟨mrOfWord s.cfg mr, itrOfWord s.cfg.layout tr, none⟩ }

/-- A DATB entry from its two register words. -/
def withDatb (s : State) (i : BitVec 2) (mr tr : Word) : State :=
  { s with dmmu := s.dmmu.setAtb i ⟨amrOfWord s.cfg mr, datrOfWord s.cfg.layout tr, none⟩ }

/-- An IATB entry from its two register words. -/
def withIatb (s : State) (i : BitVec 2) (mr tr : Word) : State :=
  { s with immu := s.immu.setAtb i ⟨amrOfWord s.cfg mr, iatrOfWord s.cfg.layout tr, none⟩ }

/-- Section 5 of 95_test_vectors.md: two ways, 64 sets, no ATB, software reload. -/
def cfg5 : Config := { Config.default with d.ways := 2, d.sets := 64, d.atbEntries := 0 }

/-- The DTLB entry of section 5. -/
def state5 (mode : Mode) (cid : BitVec 4) : State := withDtlb (running cfg5 mode cid) 0 34 0x1234400D 0x01578342

/-- Section 6: one way, two ATB entries. -/
def cfg6 : Config := { Config.default with d.ways := 1, d.sets := 64, d.atbEntries := 2 }

/-- Section 7: one ITLB way and no IATB. -/
def cfg7 : Config := { Config.default with i.ways := 1, i.sets := 64, i.atbEntries := 0 }

/-- Section 8: section 5 with hardware reload. -/
def cfg8 : Config := { cfg5 with d.hwReload := true, i.hwReload := true }

/-- Neither half has the flush bit. -/
def noFlush : Config := { Config.default with d.tfImpl := false, i.tfImpl := false }

/-- The tables of section 8 that its first row reads, with DMMUCR and DMMUPR as there. -/
def state8 : State :=
  { running cfg8 .supervisor 0 with
    mem := physWrite32 cfg8 (physWrite32 cfg8 [] 0x10048 0x2440) 0x12688 0x2AF282
    dmmu := { zeroMmu ⟨false, false, false, false⟩ with ptbp := 0x40, pr := unpackDpr Layout.default.dpr 0xF73 } }

/-- The physical address and the attributes of a translation that succeeds. -/
def paOf : Access (Pa × Attrs) → Option (Pa × Attrs)
  | .ok p _ => some p
  | _ => none

/-- The state after a translation, raised or not. -/
def stateOf : Access (Pa × Attrs) → Option State
  | .ok _ s => some s
  | .trap s => some s
  | .stop _ => none

/-- The access is done. -/
def isOk {α : Type} : Access α → Bool
  | .ok _ _ => true
  | _ => false

/-- The access has raised. -/
def isTrap {α : Type} : Access α → Bool
  | .trap _ => true
  | _ => false

theorem exists_ok {α : Type} {o : Access α} (h : isOk o = true) : ∃ a s, o = .ok a s := by
  cases o <;> simp [isOk] at h ⊢

theorem exists_trap {α : Type} {o : Access α} (h : isTrap o = true) : ∃ s, o = .trap s := by
  cases o <;> simp [isTrap] at h ⊢

/-- The translation is done, or has raised. -/
def isDone {P : Type} : Xlat P → Option Bool
  | .done _ _ _ _ => some true
  | .raise _ _ _ => some false
  | .stop _ => none

theorem exists_done {P : Type} {o : Xlat P} (h : isDone o = some true) : ∃ m k pa at', o = .done m k pa at' := by
  cases o <;> simp [isDone] at h ⊢

theorem exists_raise {P : Type} {o : Xlat P} (h : isDone o = some false) : ∃ m k f, o = .raise m k f := by
  cases o <;> simp [isDone] at h ⊢

/-- The next state of a step. -/
def nextOf : Host.Outcome State Fault Refusal → Option State
  | .next s => some s
  | _ => none

/-! ### Vectors of 95_test_vectors.md, one step each -/

/-- Section 10.3: K 0x0801 names DMMUPR, whose 28 named bits are delivered. -/
theorem test_mfspr_reads_dmmupr :
    sprOf cfg8 (sprAddress state8 1 0x0801) = some (.mmupr .d) ∧ sprView state8 (.mmupr .d) = (0xF73, 0x0FFFFFFF) ∧
    (nextOf (exec (.mfspr 1 1 0x0801) state8)).map State.pc = some 4 := by decide +kernel

/-- Section 10.1 and D20: outside supervisor mode the default refuses. -/
theorem test_mfspr_user_refused :
    nextOf (exec (.mfspr 5 0 0x0A22) { small cfg5 with sr := ⟨.user, false, false, 0, false, false⟩ }) = none := by
  decide +kernel

/-- Section 10.3: all ones written to DTLBW0MR34. -/
theorem test_mtspr_match_register :
    (nextOf (exec (.mtspr 0 3 0x0A22) (withR3 (small cfg5) 0xFFFFFFFF))).map
      (fun t => (t.dmmu.entry 0 34).mr) = some ⟨true, true, 15, 3, 0x7FFFF⟩ := by decide +kernel

/-- Section 9 row 1: DTLBEIR clears V of the entry that matches; row 3 of another set leaves it. -/
theorem test_mtspr_invalidate :
    ((nextOf (exec (.mtspr 0 3 0x0802) (withR3 (state5 .supervisor 7) 0x12345000))).map
      (fun t => (t.dmmu.entry 0 34).mr.v) = some false) ∧
    ((nextOf (exec (.mtspr 0 3 0x0802) (withR3 (state5 .supervisor 7) 0x12347000))).map
      (fun t => (t.dmmu.entry 0 34).mr.v) = some true) := by decide +kernel

/-- Section 5 row 1. -/
theorem test_dtlb_load :
    paOf (dTranslate false 0x12345678 (state5 .user 3)) = some (0x001579678, ⟨false, true, false, false⟩) ∧
    (stateOf (dTranslate false 0x12345678 (state5 .user 3))).map (fun t => (t.dmmu.entry 0 34).tr) =
      some (dtrOfWord Layout.default 0x01578352) := by decide +kernel

/-- Section 5 row 2: a user store without UWE. -/
theorem test_dtlb_store_prohibited :
    (stateOf (dTranslate true 0x12345678 (state5 .user 3))).map (fun t => (t.pc, t.eear, t.sr.mode)) =
      some (0x300, 0x12345678, .supervisor) := by decide +kernel

/-- Section 5 row 5: another context. -/
theorem test_dtlb_miss_context :
    (stateOf (dTranslate false 0x12345678 (state5 .supervisor 4))).map (fun t => (t.pc, t.eear)) =
      some (0x900, 0x12345678) := by decide +kernel

/-- Section 5.2: a level 1 page, the low 11 bits of the PPN dropped. -/
theorem test_dtlb_level1 :
    (paOf (dTranslate false 0x40001234
      (withDtlb (running cfg5 .supervisor 0) 0 0 0x40000003 0x035783C4))).map Prod.fst = some 0x003001234 := by
  decide +kernel

/-- Section 6 rows 5 and 6: the TLB entry is used, its prohibition too. -/
theorem test_tlb_before_atb :
    (let s := withDtlb (withDatb (running cfg6 .supervisor 0) 0 0x80000001 0x800000C0) 0 17 0x80122001 0xA100
     ((paOf (dTranslate false 0x80123456 s)).map Prod.fst, (paOf (dTranslate true 0x80125456 s)).map Prod.fst,
       (stateOf (dTranslate true 0x80123456 s)).map State.pc)) = (some 0x00000B456, some 0x400125456, some 0x300) := by
  decide +kernel

/-- Section 7 rows 1 and 3. -/
theorem test_itlb_fetch :
    (let s := withItlb (running cfg7 .supervisor 0) 0 1 0x00002001 0x00020040
     ((paOf (iTranslate 0x2100 s)).map Prod.fst, (stateOf (iTranslate 0x4100 s)).map State.pc)) =
      (some 0x000020100, some 0xA00) := by decide +kernel

/-- Program P5 step 4: a permitted fetch of an instruction outside the opcode table; ITLBW0TR1 becomes 0x00020050. -/
theorem test_fetch_sets_accessed :
    (nextOf (step { withItlb (running cfg7 .supervisor 0) 0 1 0x00002001 0x00020040 with
        pc := 0x2100, inbox := [.insn .proceed] })).map
      (fun t => ((t.immu.entry 0 1).tr, t.pc, t.bus.map BusAccess.pa)) =
      some (itrOfWord Layout.default 0x00020050, 0x2104, [0x000020100]) := by decide +kernel

/-- R144: an access that ends at the end of its page, and one that goes on in the next. -/
theorem test_page_parts :
    inOnePage 0x1FFC 4 = true ∧ pageParts 4 0x1FFC 4 = [(0x1FFC, 4)] ∧ inOnePage 0x1FFE 4 = false ∧
    pageParts 4 0x1FFE 4 = [(0x1FFE, 2), (0x2000, 2)] := by decide +kernel

/-- R131 with U20: the word of an owed update has become a pointer (L = 0), which gets no history bit. -/
theorem test_history_leaves_pointer :
    { zeroMmu (⟨false, false⟩ : IProt) with owed := [⟨0x12688, true, false⟩] }.readHist cfg8
      (physWrite32 cfg8 [] 0x12688 0x2440) 0 true true =
    { zeroMmu (⟨false, false⟩ : IProt) with owed := [⟨0x12688, true, false⟩] } := by decide +kernel

/-- R131: a store through a reloaded entry owes A and D to its PTE, which an invalidate of the entry leaves owed (U29). -/
theorem test_history_owed :
    (let s := state5 .supervisor 3
     let s := { s with
       dmmu := s.dmmu.setEntry 0 34 { s.dmmu.entry 0 34 with origin := some 0x12688 }, gpr := fileSet s.gpr 3 0x12345678 }
     (stateOf (dTranslate true 0x12345678 s)).bind fun t =>
       (nextOf (exec (.mtspr 0 3 0x0802) t)).map fun u => ((u.dmmu.entry 0 34).mr.v, u.dmmu.owed)) =
      some (false, [⟨0x12688, true, true⟩]) := by decide +kernel

/-- Section 8 rows 1 and 4. -/
theorem test_search :
    search cfg8 state8.mem 0x40 0 0x12345678 =
      .found ⟨⟨false, true, false, false⟩, false, false, 2, true, 0xABC⟩ .l2 0x12688 ∧
    search cfg8 state8.mem 0x40 0 0x13000000 = .noPte := by decide +kernel

/-! ### Witnesses: for each statement with hypotheses, a case that meets them together -/

/-- With x[0] = 0 the operands `r0, K` name the register at address K. -/
theorem operands_r0 {s : State} (h : fileGet s.gpr 0 = 0) (k : BitVec 16) :
    (readGpr s 0 ||| k.setWidth 64).setWidth 16 = k := by
  have h0 : readGpr s 0 = 0 := by rw [readGpr, h]; cases s.cfg.eaBits <;> rfl
  rw [h0]
  simp

theorem names_r0 {s : State} (h : fileGet s.gpr 0 = 0) (x : Side) (n : Nat) : Names s 0 (sprAt x n) x n :=
  operands_r0 h _

theorem small_operands (c : Config) (k : BitVec 16) : (readGpr (small c) 0 ||| k.setWidth 64).setWidth 16 = k :=
  operands_r0 (by simp [small]) k

theorem small_names (c : Config) (x : Side) (n : Nat) : Names (small c) 0 (sprAt x n) x n :=
  names_r0 (by simp [small]) x n

theorem withR3_names (c : Config) (v : Ea) (x : Side) (n : Nat) : Names (withR3 (small c) v) 0 (sprAt x n) x n :=
  names_r0 (by rw [withR3, fileGet_fileSet_of_ne _ _ (by decide)]; simp [small]) x n

theorem zeroMmu_fits {P : Type} (c : Config) (x : Side) (p : P) : (zeroMmu p).Fits c x := by
  constructor <;> simp [zeroMmu, Mmu.entry, zeroTr]

theorem small_inv {c : Config} (h : c.wf = true) : (small c).Inv where
  cfg := h
  memWf := rfl
  memBound := by simp [small]
  gpr := by intro i; simp [small, FitsEa, truncEa]; cases c.eaBits <;> rfl
  pc := by simp [small, FitsEa, truncEa]; cases c.eaBits <;> rfl
  epcr := by simp [small, FitsEa, truncEa]; cases c.eaBits <;> rfl
  eear := by simp [small, FitsEa, truncEa]; cases c.eaBits <;> rfl
  dmmu := zeroMmu_fits _ _ _
  immu := zeroMmu_fits _ _ _

theorem witness_EncodeInvertsDecode : ∃ i, decodeWord 0xC3FFFFFF = some i := ⟨.mtspr 31 31 0xFFFF, by decide⟩

theorem witness_OtherOpcodesRefused :
    (small cfg5).inbox = [] ∧ ∃ u, fetchInsn (small cfg5) = .ok [0, 0, 0, 0] u ∧
      (wordOfBytes u.cfg.endian 0 0 0 0).extractLsb' 26 6 ≠ 0x2D#6 ∧
      (wordOfBytes u.cfg.endian 0 0 0 0).extractLsb' 26 6 ≠ 0x30#6 :=
  ⟨rfl, _, rfl, by decide, by decide⟩

/-- The instruction `l.mfspr r5,r0,0x0A00` lies at address 0. -/
def atWord : State := { small cfg5 with mem := [(0, 0xB4), (1, 0xA0), (2, 0x0A)] }

theorem witness_StepRunsDecodedInstruction_trap :
    (running cfg5 .supervisor 0).inbox = [] ∧
    (truncEa (running cfg5 .supervisor 0).cfg.eaBits (running cfg5 .supervisor 0).pc).extractLsb' 0 2 = 0 ∧
    ∃ t, iTranslate (truncEa (running cfg5 .supervisor 0).cfg.eaBits (running cfg5 .supervisor 0).pc)
      (running cfg5 .supervisor 0) = .trap t :=
  ⟨rfl, by decide, exists_trap (by decide +kernel)⟩

theorem witness_StepRunsDecodedInstruction :
    atWord.inbox = [] ∧ (truncEa atWord.cfg.eaBits atWord.pc).extractLsb' 0 2 = 0 ∧
    ∃ u pa at', iTranslate (truncEa atWord.cfg.eaBits atWord.pc) atWord = .ok (pa, at') u ∧
      decode u.cfg.endian (readBytes u.cfg u.mem pa.toNat 4) = some (.mfspr 5 0 0x0A00, []) :=
  ⟨rfl, by decide, _, _, _, rfl, by decide⟩

/-- Numbers that the lists leave out; addresses of other groups; the configuration registers, present and absent. -/
theorem witness_AddressesOutsideRefused :
    (∀ n ∈ [3, 12, 511, 1536, 2047], n < 2048 ∧ ¬ListedNumber n ∧ Names (small cfg5) 0 (sprAt .i n) .i n) ∧
    (∀ k ∈ [0x0000#16, 0x0005#16, 0x07FF#16, 0x1800#16, 0xFFFF#16],
      (readGpr (small cfg5) 0 ||| k.setWidth 64).setWidth 16 = k ∧ k.extractLsb' 11 5 ≠ 1#5 ∧
      k.extractLsb' 11 5 ≠ 2#5 ∧ k ≠ 3#16 ∧ k ≠ 4#16) ∧
    ∀ k ∈ [3#16, 4#16], (readGpr (small cfg5) 0 ||| k.setWidth 64).setWidth 16 = k ∧ cfg5.cfgrImpl = true ∧
      (readGpr (small { cfg5 with cfgrImpl := false }) 0 ||| k.setWidth 64).setWidth 16 = k ∧
      k.extractLsb' 11 5 ≠ 1#5 ∧ k.extractLsb' 11 5 ≠ 2#5 := by
  refine ⟨fun n h => ⟨?_, ?_, small_names _ _ _⟩, fun k h => ⟨small_operands _ k, ?_⟩,
    fun k h => ⟨small_operands _ k, rfl, small_operands _ k, ?_⟩⟩
  · revert n
    simp
  · revert n
    simp [ListedNumber]
  · simp only [List.mem_cons, List.not_mem_nil, or_false] at h
    rcases h with rfl | rfl | rfl | rfl | rfl <;> decide
  · simp only [List.mem_cons, List.not_mem_nil, or_false] at h
    rcases h with rfl | rfl <;> decide

/-- For MfsprCompletes and MtsprCompletes: the ends of the lists. -/
theorem witness_Completes :
    (small cfg5).sr.mode = .supervisor ∧
    ∀ n ∈ [0, 2, 4, 11, 512, 1535], ListedNumber n ∧ Names (small cfg5) 0 (sprAt .d n) .d n := by
  refine ⟨rfl, fun n h => ⟨?_, small_names _ _ _⟩⟩
  revert n
  simp [ListedNumber]

/-- For MfsprReadsTlbMatch and MtsprWritesTlb: the last register of each half. -/
theorem witness_TlbMatch :
    (small Config.default).Inv ∧ (small Config.default).sr.mode = .supervisor ∧
    (3#2).toNat < Config.default.d.ways ∧ (127#7).toNat < Config.default.d.sets ∧
    (3#2).toNat < Config.default.i.ways ∧ (127#7).toNat < Config.default.i.sets ∧
    Names (small Config.default) 0 (sprAt .d 1407) .d (512 + 256 * (3#2).toNat + (127#7).toNat) ∧
    Names (small Config.default) 0 (sprAt .i 1407) .i (512 + 256 * (3#2).toNat + (127#7).toNat) :=
  ⟨small_inv test_default_wf, rfl, by decide, by decide, by decide, by decide, small_names _ .d 1407,
    small_names _ .i 1407⟩

/-- For MfsprReadsTlbTranslate and MtsprWritesTlb. -/
theorem witness_TlbTranslate :
    (small Config.default).Inv ∧ (small Config.default).sr.mode = .supervisor ∧
    (3#2).toNat < Config.default.d.ways ∧ (127#7).toNat < Config.default.d.sets ∧
    (3#2).toNat < Config.default.i.ways ∧ (127#7).toNat < Config.default.i.sets ∧
    Names (small Config.default) 0 (sprAt .d 1535) .d (640 + 256 * (3#2).toNat + (127#7).toNat) ∧
    Names (small Config.default) 0 (sprAt .i 1535) .i (640 + 256 * (3#2).toNat + (127#7).toNat) :=
  ⟨small_inv test_default_wf, rfl, by decide, by decide, by decide, by decide, small_names _ .d 1535,
    small_names _ .i 1535⟩

/-- For MfsprReadsAtb and MtsprWritesAtb. -/
theorem witness_Atb :
    (small Config.default).Inv ∧ (small Config.default).sr.mode = .supervisor ∧
    (3#2).toNat < Config.default.d.atbEntries ∧ (3#2).toNat < Config.default.i.atbEntries ∧
    Names (small Config.default) 0 (sprAt .d 7) .d (4 + (3#2).toNat) ∧
    Names (small Config.default) 0 (sprAt .d 11) .d (8 + (3#2).toNat) ∧
    Names (small Config.default) 0 (sprAt .i 7) .i (4 + (3#2).toNat) ∧
    Names (small Config.default) 0 (sprAt .i 11) .i (8 + (3#2).toNat) :=
  ⟨small_inv test_default_wf, rfl, by decide, by decide, small_names _ .d 7, small_names _ .d 11,
    small_names _ .i 7, small_names _ .i 11⟩

/-- For MfsprReadsControl, MfsprReadsProtection and MtsprWritesProtection. -/
theorem witness_ControlAndProtection :
    Config.default.wf = true ∧ (small Config.default).sr.mode = .supervisor ∧
    Config.default.d.crImpl = true ∧ Config.default.d.tfImpl = true ∧ Config.default.d.ptbpImpl = true ∧
    Config.default.i.crImpl = true ∧ Config.default.i.tfImpl = true ∧ Config.default.i.ptbpImpl = true ∧
    Config.default.d.prImpl = true ∧ Config.default.i.prImpl = true ∧
    Names (small Config.default) 0 (sprAt .d 0) .d 0 ∧ Names (small Config.default) 0 (sprAt .i 0) .i 0 ∧
    Names (small Config.default) 0 (sprAt .d 1) .d 1 ∧ Names (small Config.default) 0 (sprAt .i 1) .i 1 :=
  ⟨test_default_wf, rfl, rfl, rfl, rfl, rfl, rfl, rfl, rfl, rfl, small_names _ _ _, small_names _ _ _,
    small_names _ _ _, small_names _ _ _⟩

theorem witness_MfsprReadsConfiguration :
    (small Config.default).cfg.wf = true ∧ (small Config.default).cfg.cfgrImpl = true ∧
    (small Config.default).sr.mode = .supervisor ∧
    (readGpr (small Config.default) 0 ||| (3#16).setWidth 64).setWidth 16 = 3#16 ∧
    (readGpr (small Config.default) 0 ||| (4#16).setWidth 64).setWidth 16 = 4#16 ∧
    Config.default.d.ways ≠ 0 ∧ Config.default.d.sets = 2 ^ 7 ∧ Config.default.i.ways ≠ 0 ∧
    Config.default.i.sets = 2 ^ 7 :=
  ⟨test_default_wf, rfl, rfl, by decide +kernel, by decide +kernel, by decide, rfl, by decide, rfl⟩

/-- The value asks for no flush (PTBP 0x40), in both halves; and one with the flush bit set where xTF is absent. -/
theorem witness_MtsprWritesPtbp :
    (withR3 (small Config.default) 0x10000).sr.mode = .supervisor ∧
    Config.default.d.crImpl = true ∧ Config.default.i.crImpl = true ∧
    Names (withR3 (small Config.default) 0x10000) 0 (sprAt .d 0) .d 0 ∧
    Names (withR3 (small Config.default) 0x10000) 0 (sprAt .i 0) .i 0 ∧
    getBit ((readGpr (withR3 (small Config.default) 0x10000) 3).setWidth 32) Config.default.layout.dcr.tf = false ∧
    getBit ((readGpr (withR3 (small Config.default) 0x10000) 3).setWidth 32) Config.default.layout.icr.tf = false ∧
    (withR3 (small noFlush) 1).sr.mode = .supervisor ∧ noFlush.d.crImpl = true ∧ noFlush.i.crImpl = true ∧
    noFlush.d.tfImpl = false ∧ noFlush.i.tfImpl = false ∧
    Names (withR3 (small noFlush) 1) 0 (sprAt .d 0) .d 0 ∧ Names (withR3 (small noFlush) 1) 0 (sprAt .i 0) .i 0 ∧
    getBit ((readGpr (withR3 (small noFlush) 1) 3).setWidth 32) noFlush.layout.dcr.tf = true :=
  ⟨rfl, rfl, rfl, withR3_names _ _ _ _, withR3_names _ _ _ _, by decide +kernel, by decide +kernel, rfl, rfl, rfl, rfl,
    rfl, withR3_names _ _ _ _, withR3_names _ _ _ _, by decide +kernel⟩

/-- The value asks for a flush, in both halves. -/
theorem witness_MtsprFlushes :
    (withR3 (small Config.default) 1).cfg.wf = true ∧ (withR3 (small Config.default) 1).sr.mode = .supervisor ∧
    Config.default.d.crImpl = true ∧ Config.default.d.tfImpl = true ∧
    Config.default.i.crImpl = true ∧ Config.default.i.tfImpl = true ∧
    Names (withR3 (small Config.default) 1) 0 (sprAt .d 0) .d 0 ∧
    Names (withR3 (small Config.default) 1) 0 (sprAt .i 0) .i 0 ∧
    getBit ((readGpr (withR3 (small Config.default) 1) 3).setWidth 32) Config.default.layout.dcr.tf = true ∧
    getBit ((readGpr (withR3 (small Config.default) 1) 3).setWidth 32) Config.default.layout.icr.tf = true :=
  ⟨test_default_wf, rfl, rfl, rfl, rfl, rfl, withR3_names _ _ _ _, withR3_names _ _ _ _, by decide +kernel,
    by decide +kernel⟩

theorem witness_MtsprInvalidates :
    (small Config.default).sr.mode = .supervisor ∧ Config.default.d.eirImpl = true ∧
    Config.default.i.eirImpl = true ∧ Names (small Config.default) 0 (sprAt .d 2) .d 2 ∧
    Names (small Config.default) 0 (sprAt .i 2) .i 2 :=
  ⟨rfl, rfl, rfl, small_names _ _ _, small_names _ _ _⟩

/-- DTLBW2MR0 of a machine with two ways. -/
theorem witness_MtsprUnimplementedIgnored :
    (small cfg5).sr.mode = .supervisor ∧ ListedNumber 1024 ∧ Names (small cfg5) 0 (sprAt .d 1024) .d 1024 ∧
    sprOf cfg5 (sprAt .d 1024) = some (.tlbmr .d 2 0) ∧ (Spr.tlbmr .d 2 0).implemented cfg5 = false :=
  ⟨rfl, by simp [ListedNumber], small_names _ _ _, by decide, by decide⟩

theorem witness_UserAccessRefused :
    (running cfg5 .user 0).sr.mode = .user ∧ (running cfg5 .user 0).cfg.userSprAccess = .refuse ∧
    (∀ n ∈ [0, 2, 4, 11, 512, 1535], ListedNumber n ∧ Names (running cfg5 .user 0) 0 (sprAt .i n) .i n) ∧
    (running cfg5 .user 0).cfg.cfgrImpl = true ∧
    ∀ k ∈ [3#16, 4#16], (readGpr (running cfg5 .user 0) 0 ||| k.setWidth 64).setWidth 16 = k := by
  refine ⟨rfl, rfl, fun n h => ⟨?_, names_r0 (by simp [running, small]) _ _⟩, rfl,
    fun k _ => operands_r0 (by simp [running, small]) k⟩
  revert n
  simp [ListedNumber]

/-- USER_SPR_ACCESS names the exception at vector offset 0x700. -/
def raising : Config := { Config.default with userSprAccess := .raise 0x700 }

theorem witness_UserAccessRaises :
    (running raising .user 0).sr.mode = .user ∧ (running raising .user 0).cfg.userSprAccess = .raise 0x700 ∧
    (running raising .user 0).delaySlot = none ∧ (running raising .user 0).cfg.wf = true ∧
    (∀ n ∈ [0, 2, 4, 11, 512, 1535], ListedNumber n ∧ Names (running raising .user 0) 0 (sprAt .d n) .d n) ∧
    (running raising .user 0).cfg.cfgrImpl = true ∧
    ∀ k ∈ [3#16, 4#16], (readGpr (running raising .user 0) 0 ||| k.setWidth 64).setWidth 16 = k := by
  refine ⟨rfl, rfl, rfl, by decide +kernel, fun n h => ⟨?_, names_r0 (by simp [running, small]) _ _⟩, rfl,
    fun k _ => operands_r0 (by simp [running, small]) k⟩
  revert n
  simp [ListedNumber]

/-- One state of each outcome, and a partner with another DTLB entry. -/
theorem witness_UserModeLearnsNothing :
    (running raising .user 0).sr.mode = .user ∧
    SameButMmu (running raising .user 0) (withDtlb (running raising .user 0) 0 0 1 1) ∧
    (∃ t, exec (.mfspr 1 0 0x0A00) (running raising .user 0) = .next t) ∧
    (running cfg5 .user 0).sr.mode = .user ∧
    SameButMmu (running cfg5 .user 0) (withDtlb (running cfg5 .user 0) 0 0 1 1) ∧
    exec (.mfspr 1 0 0x0A00) (running cfg5 .user 0) = .refused .userSprAccess :=
  ⟨rfl, rfl, ⟨_, rfl⟩, rfl, rfl, rfl⟩

theorem witness_DtlbHitTranslates :
    let s := state5 .supervisor 3
    let t := s.dmmu.entry 0 (tlbIndex s.cfg.d (pageEa s.cfg.eaBits 0x12345678))
    s.cfg.eaBits = .ea32 ∧ s.sr.dme = true ∧ (0#2).toNat < s.cfg.d.ways ∧
    tlbMatches s.cfg t.mr (seenCid s.cfg s.sr.cid) (pageEa s.cfg.eaBits 0x12345678) = true ∧ t.mr.pl1 = false ∧
    OnlyWay s.cfg .d s.dmmu (seenCid s.cfg s.sr.cid) (pageEa s.cfg.eaBits 0x12345678) 0 ∧
    dPermits true s.sr.mode t.tr.prot = true := by
  unfold OnlyWay
  decide +kernel

theorem witness_DtlbLevel1HitTranslates :
    let s := withDtlb (running cfg5 .supervisor 0) 1 0 0x40000003 0x035783C4
    let t := s.dmmu.entry 1 (tlbIndex s.cfg.d (pageEa s.cfg.eaBits 0x40001234))
    s.cfg.eaBits = .ea32 ∧ s.sr.dme = true ∧ (1#2).toNat < s.cfg.d.ways ∧
    tlbMatches s.cfg t.mr (seenCid s.cfg s.sr.cid) (pageEa s.cfg.eaBits 0x40001234) = true ∧ t.mr.pl1 = true ∧
    OnlyWay s.cfg .d s.dmmu (seenCid s.cfg s.sr.cid) (pageEa s.cfg.eaBits 0x40001234) 1 ∧
    dPermits true s.sr.mode t.tr.prot = true := by
  unfold OnlyWay
  decide +kernel

/-- A 64-bit machine with one way in each half, which holds a page of the address in set 0. -/
def tlb64 (pl1 : Bool) : State :=
  let half : MmuConfig := { MmuConfig.default with ways := 1, sets := 1 }
  let s := running { Config.default with eaBits := .ea64, d := half, i := half } .supervisor 0
  let mr : TlbMatch := ⟨true, pl1, 0, 0, tlbTag s.cfg pl1 (pageEa .ea64 0x812345678) 0⟩
  { s with
    dmmu := s.dmmu.setEntry 0 0 ⟨mr, zeroTr ⟨true, true, true, true⟩, none⟩
    immu := s.immu.setEntry 0 0 ⟨mr, zeroTr ⟨true, true⟩, none⟩ }

theorem tlb64_matches (pl1 : Bool) :
    tlbMatches (tlb64 pl1).cfg ((tlb64 pl1).dmmu.entry 0 0).mr 0 (pageEa .ea64 0x812345678) = true ∧
    tlbMatches (tlb64 pl1).cfg ((tlb64 pl1).immu.entry 0 0).mr 0 (pageEa .ea64 0x812345678) = true := by
  simp [tlbMatches, tlbTagMatches, tlbTag, tlb64, running, small]

/-- Every address selects set 0. -/
theorem tlb64_index (pl1 : Bool) (e : PageEa) :
    tlbIndex (tlb64 pl1).cfg.d e = 0 ∧ tlbIndex (tlb64 pl1).cfg.i e = 0 := by
  simp [tlb64, running, small, tlbIndex, MmuConfig.default, Nat.mod_one]

/-- For DtlbHitTranslates, DtlbLevel1HitTranslates and ItlbHitTranslates with a 64-bit EA, a page of either level. -/
theorem witness_TlbHit64 (pl1 : Bool) :
    let s := tlb64 pl1
    let e := pageEa s.cfg.eaBits 0x812345678
    let cid := seenCid s.cfg s.sr.cid
    (s.sr.dme = true ∧ s.sr.ime = true ∧ (0#2).toNat < s.cfg.d.ways ∧ (0#2).toNat < s.cfg.i.ways ∧
      (s.dmmu.entry 0 (tlbIndex s.cfg.d e)).mr.pl1 = pl1 ∧ (s.immu.entry 0 (tlbIndex s.cfg.i e)).mr.pl1 = pl1 ∧
      OnlyWay s.cfg .d s.dmmu cid e 0 ∧ OnlyWay s.cfg .i s.immu cid e 0 ∧
      dPermits true s.sr.mode (s.dmmu.entry 0 (tlbIndex s.cfg.d e)).tr.prot = true ∧
      iPermits s.sr.mode (s.immu.entry 0 (tlbIndex s.cfg.i e)).tr.prot = true) ∧
    tlbMatches s.cfg (s.dmmu.entry 0 (tlbIndex s.cfg.d e)).mr cid e = true ∧
    tlbMatches s.cfg (s.immu.entry 0 (tlbIndex s.cfg.i e)).mr cid e = true := by
  intro s e cid
  refine ⟨?_, ?_⟩
  · unfold OnlyWay
    revert pl1
    decide +kernel
  · rw [(tlb64_index pl1 e).1, (tlb64_index pl1 e).2]
    exact tlb64_matches pl1

/-- A 64-bit machine with one ATB entry in each half for the 32 GByte page of the address (PS = 1). -/
def atb64 : State :=
  let s := running { Config.default with eaBits := .ea64 } .supervisor 0
  let mr : AtbMatch := ⟨true, 0, true, atbTag s.cfg true (pageEa .ea64 0x812345678)⟩
  { s with
    dmmu := s.dmmu.setAtb 3 ⟨mr, zeroTr ⟨true, true, true, true⟩, none⟩
    immu := s.immu.setAtb 3 ⟨mr, zeroTr ⟨true, true⟩, none⟩ }

theorem atb64_matches : atbMatches atb64.cfg ⟨true, 0, true, atbTag atb64.cfg true (pageEa .ea64 0x812345678)⟩ 0
    (pageEa .ea64 0x812345678) = true := by
  simp [atbMatches, atbTagMatches, atb64, running, small]

/-- A 16 MByte page through a DATB and an IATB entry. -/
theorem witness_AtbHitTranslates_level1 :
    let s := withIatb (withDatb (running cfg6 .supervisor 0) 1 0x80000001 0x800000C0) 1 0x80000001 0x800000C0
    let e := pageEa s.cfg.eaBits 0x80123456
    let cid := seenCid s.cfg s.sr.cid
    s.cfg.eaBits = .ea32 ∧ s.cfg.atbVpn = .level1Top ∧ s.sr.dme = true ∧ s.sr.ime = true ∧
    (1#2).toNat < s.cfg.d.atbEntries ∧ (1#2).toNat < s.cfg.i.atbEntries ∧
    NoWay s.cfg .d s.dmmu cid e ∧ NoWay s.cfg .i s.immu cid e ∧
    atbMatches s.cfg (fileGet s.dmmu.atb 1).mr cid e = true ∧ atbMatches s.cfg (fileGet s.immu.atb 1).mr cid e = true ∧
    OnlyAtb s.cfg .d s.dmmu cid e 1 ∧ OnlyAtb s.cfg .i s.immu cid e 1 ∧
    dPermits true s.sr.mode (fileGet s.dmmu.atb 1).tr.prot = true ∧
    iPermits s.sr.mode (fileGet s.immu.atb 1).tr.prot = true := by
  unfold NoWay OnlyAtb
  decide +kernel

/-- A 32 GByte page. -/
theorem witness_AtbHitTranslates_level0 :
    let e := pageEa atb64.cfg.eaBits 0x812345678
    let cid := seenCid atb64.cfg atb64.sr.cid
    (atb64.sr.dme = true ∧ atb64.sr.ime = true ∧ (3#2).toNat < atb64.cfg.d.atbEntries ∧
      (3#2).toNat < atb64.cfg.i.atbEntries ∧ NoWay atb64.cfg .d atb64.dmmu cid e ∧
      NoWay atb64.cfg .i atb64.immu cid e ∧ OnlyAtb atb64.cfg .d atb64.dmmu cid e 3 ∧
      OnlyAtb atb64.cfg .i atb64.immu cid e 3 ∧
      dPermits true atb64.sr.mode (fileGet atb64.dmmu.atb 3).tr.prot = true ∧
      iPermits atb64.sr.mode (fileGet atb64.immu.atb 3).tr.prot = true) ∧
    atbMatches atb64.cfg (fileGet atb64.dmmu.atb 3).mr cid e = true ∧
    atbMatches atb64.cfg (fileGet atb64.immu.atb 3).mr cid e = true := by
  refine ⟨?_, atb64_matches, atb64_matches⟩
  unfold NoWay OnlyAtb
  decide +kernel

theorem witness_ItlbHitTranslates :
    (let s := withItlb (running cfg7 .supervisor 0) 0 1 0x00002001 0x00020040
     let t := s.immu.entry 0 (tlbIndex s.cfg.i (pageEa s.cfg.eaBits 0x2100))
     s.cfg.eaBits = .ea32 ∧ s.sr.ime = true ∧ (0#2).toNat < s.cfg.i.ways ∧ t.mr.pl1 = false ∧
     tlbMatches s.cfg t.mr (seenCid s.cfg s.sr.cid) (pageEa s.cfg.eaBits 0x2100) = true ∧
     OnlyWay s.cfg .i s.immu (seenCid s.cfg s.sr.cid) (pageEa s.cfg.eaBits 0x2100) 0 ∧
     iPermits s.sr.mode t.tr.prot = true) ∧
    (let s := withItlb (running cfg7 .supervisor 0) 0 0 0x40000003 0x03578040
     let t := s.immu.entry 0 (tlbIndex s.cfg.i (pageEa s.cfg.eaBits 0x40001234))
     s.sr.ime = true ∧ (0#2).toNat < s.cfg.i.ways ∧ t.mr.pl1 = true ∧
     tlbMatches s.cfg t.mr (seenCid s.cfg s.sr.cid) (pageEa s.cfg.eaBits 0x40001234) = true ∧
     OnlyWay s.cfg .i s.immu (seenCid s.cfg s.sr.cid) (pageEa s.cfg.eaBits 0x40001234) 0 ∧
     iPermits s.sr.mode t.tr.prot = true) := by
  unfold OnlyWay
  decide +kernel

/-- Two ways of each half match EA 0x2100. -/
def twoWays : State :=
  withItlb (withItlb (withDtlb (withDtlb (running Config.default .supervisor 0) 0 1 0x2001 0) 3 1 0x2001 0)
    0 1 0x2001 0) 3 1 0x2001 0

/-- Two ATB entries of each half match EA 0x80123456, and no way does. -/
def twoAtbs : State :=
  withIatb (withIatb (withDatb (withDatb (running Config.default .supervisor 0) 0 0x80000001 0) 3 0x80000001 0)
    0 0x80000001 0) 3 0x80000001 0

theorem witness_TwoMatchesRefused_ways :
    let s := twoWays
    let e := pageEa s.cfg.eaBits 0x2100
    let cid := seenCid s.cfg s.sr.cid
    (0#2 ≠ 3#2) ∧ s.sr.dme = true ∧ s.sr.ime = true ∧ (3#2).toNat < s.cfg.d.ways ∧ (3#2).toNat < s.cfg.i.ways ∧
    tlbMatches s.cfg (s.dmmu.entry 0 (tlbIndex s.cfg.d e)).mr cid e = true ∧
    tlbMatches s.cfg (s.dmmu.entry 3 (tlbIndex s.cfg.d e)).mr cid e = true ∧
    tlbMatches s.cfg (s.immu.entry 0 (tlbIndex s.cfg.i e)).mr cid e = true ∧
    tlbMatches s.cfg (s.immu.entry 3 (tlbIndex s.cfg.i e)).mr cid e = true := by decide +kernel

theorem witness_TwoMatchesRefused_atbs :
    let s := twoAtbs
    let e := pageEa s.cfg.eaBits 0x80123456
    let cid := seenCid s.cfg s.sr.cid
    s.sr.dme = true ∧ s.sr.ime = true ∧ NoWay s.cfg .d s.dmmu cid e ∧ NoWay s.cfg .i s.immu cid e ∧
    (3#2).toNat < s.cfg.d.atbEntries ∧ (3#2).toNat < s.cfg.i.atbEntries ∧
    atbMatches s.cfg (fileGet s.dmmu.atb 0).mr cid e = true ∧ atbMatches s.cfg (fileGet s.dmmu.atb 3).mr cid e = true ∧
    atbMatches s.cfg (fileGet s.immu.atb 0).mr cid e = true ∧
    atbMatches s.cfg (fileGet s.immu.atb 3).mr cid e = true := by
  unfold NoWay
  decide +kernel

/-- A permitted load and a prohibited store through one TLB entry, and an access that two match. -/
theorem witness_TlbBeforeAtb :
    let s := state5 .user 3
    let e := pageEa cfg5.eaBits 0x12345678
    (0#2).toNat < (cfg5.mmu .d).ways ∧
    tlbMatches cfg5 (s.dmmu.entry 0 (tlbIndex (cfg5.mmu .d) e)).mr 3 e = true ∧
    (∃ m k pa at', translate cfg5 .d false DProt.ure [] 3 0x12345678 s.dmmu 0 = .done m k pa at') ∧
    (∃ m k f, translate cfg5 .d true DProt.uwe [] 3 0x12345678 s.dmmu 0 = .raise m k f) ∧
    (3#2).toNat < (Config.default.mmu .d).ways ∧
    tlbMatches Config.default (twoWays.dmmu.entry 3 (tlbIndex (Config.default.mmu .d) 0x2100)).mr 0 0x2100 = true ∧
    translate Config.default .d false DProt.sre [] 0 0x2100 twoWays.dmmu 0 = .stop .multipleMatch :=
  ⟨by decide, by decide +kernel, exists_done (by decide +kernel), exists_raise (by decide +kernel), by decide,
    by decide +kernel, by decide +kernel⟩

theorem witness_MissRaisesTlbMiss :
    let s := running Config.default .supervisor 0
    let e := pageEa s.cfg.eaBits 0xFFFFFFFF
    s.sr.dme = true ∧ s.cfg.d.hwReload = false ∧ s.sr.ime = true ∧ s.cfg.i.hwReload = false ∧
    NoWay s.cfg .d s.dmmu (seenCid s.cfg s.sr.cid) e ∧ NoAtb s.cfg .d s.dmmu (seenCid s.cfg s.sr.cid) e ∧
    NoWay s.cfg .i s.immu (seenCid s.cfg s.sr.cid) e ∧ NoAtb s.cfg .i s.immu (seenCid s.cfg s.sr.cid) e := by
  unfold NoWay NoAtb
  decide +kernel

theorem witness_HardwareReloadNeverMisses :
    (cfg8.mmu .d).hwReload = true ∧
    ∃ m k f, translate cfg8 .d false DProt.sre [] 0 0x13000000 state8.dmmu 0 = .raise m k f :=
  ⟨rfl, exists_raise (by decide +kernel)⟩

theorem witness_ProhibitedAccessFaults :
    let s := state5 .user 3
    let e := pageEa s.cfg.eaBits 0x12345678
    let t := s.dmmu.entry 0 (tlbIndex s.cfg.d e)
    s.sr.dme = true ∧ (0#2).toNat < s.cfg.d.ways ∧ tlbMatches s.cfg t.mr (seenCid s.cfg s.sr.cid) e = true ∧
    OnlyWay s.cfg .d s.dmmu (seenCid s.cfg s.sr.cid) e 0 ∧ dPermits true s.sr.mode t.tr.prot = false := by
  unfold OnlyWay
  decide +kernel

/-- A user store and a user fetch through ATB entries that permit the supervisor only. -/
theorem witness_Prohibited_atb :
    let s := withIatb (withDatb (running cfg6 .user 0) 1 0x80000001 0x800000C0) 1 0x80000001 0x80000040
    let e := pageEa s.cfg.eaBits 0x80123456
    let cid := seenCid s.cfg s.sr.cid
    s.sr.dme = true ∧ s.sr.ime = true ∧ (1#2).toNat < s.cfg.d.atbEntries ∧ (1#2).toNat < s.cfg.i.atbEntries ∧
    NoWay s.cfg .d s.dmmu cid e ∧ NoWay s.cfg .i s.immu cid e ∧
    atbMatches s.cfg (fileGet s.dmmu.atb 1).mr cid e = true ∧ atbMatches s.cfg (fileGet s.immu.atb 1).mr cid e = true ∧
    OnlyAtb s.cfg .d s.dmmu cid e 1 ∧ OnlyAtb s.cfg .i s.immu cid e 1 ∧
    dPermits true s.sr.mode (fileGet s.dmmu.atb 1).tr.prot = false ∧
    iPermits s.sr.mode (fileGet s.immu.atb 1).tr.prot = false := by
  unfold NoWay OnlyAtb
  decide +kernel

theorem witness_ProhibitedFetchFaults :
    let s := withItlb (running cfg7 .user 0) 0 1 0x00002001 0x00020040
    let e := pageEa s.cfg.eaBits 0x2100
    let t := s.immu.entry 0 (tlbIndex s.cfg.i e)
    s.sr.ime = true ∧ (0#2).toNat < s.cfg.i.ways ∧ tlbMatches s.cfg t.mr (seenCid s.cfg s.sr.cid) e = true ∧
    OnlyWay s.cfg .i s.immu (seenCid s.cfg s.sr.cid) e 0 ∧ iPermits s.sr.mode t.tr.prot = false := by
  unfold OnlyWay
  decide +kernel

theorem witness_OffMmuIsIdentity : (small cfg5).sr.dme = false ∧ (small cfg5).sr.ime = false := ⟨rfl, rfl⟩

/-- For OnlyStoresDirty and HistoryNeverCleared: a load that is done and one that raises. -/
theorem witness_History :
    (state5 .user 3).cfg.wf = true ∧ (state5 .user 3).cfg.d.hwReload = false ∧
    (state5 .user 3).cfg.i.hwReload = false ∧ (∃ p u, dTranslate false 0x12345678 (state5 .user 3) = .ok p u) ∧
    ∃ u, dTranslate false 0x12346678 (state5 .user 3) = .trap u :=
  ⟨by decide +kernel, rfl, rfl, exists_ok (by decide +kernel), exists_trap (by decide +kernel)⟩

/-- For HistoryNeverCleared: with hardware reload, a load through an entry that matches. -/
theorem witness_HistoryNeverCleared :
    let s := withDtlb (running cfg8 .user 3) 0 34 0x1234400D 0x01578342
    s.cfg.wf = true ∧ s.cfg.d.hwReload = true ∧
    lookup s.cfg s.cfg.d s.dmmu (seenCid s.cfg s.sr.cid) (pageEa s.cfg.eaBits 0x12345678) ≠ .miss ∧
    isOk (dTranslate false 0x12345678 s) = true := by decide +kernel

theorem witness_SearchFollowsTables :
    Config.default.ptBase = .kilobytes ∧ Config.default.eaBits = .ea32 ∧
    { Config.default with eaBits := .ea64 }.ptBase = .kilobytes := ⟨rfl, rfl, rfl⟩

theorem witness_NoPteRaisesPageFault :
    let s := running cfg8 .supervisor 0
    let e := pageEa s.cfg.eaBits 0x13000000
    s.sr.dme = true ∧ s.cfg.d.hwReload = true ∧ s.sr.ime = true ∧ s.cfg.i.hwReload = true ∧
    NoWay s.cfg .d s.dmmu (seenCid s.cfg s.sr.cid) e ∧ NoAtb s.cfg .d s.dmmu (seenCid s.cfg s.sr.cid) e ∧
    NoWay s.cfg .i s.immu (seenCid s.cfg s.sr.cid) e ∧ NoAtb s.cfg .i s.immu (seenCid s.cfg s.sr.cid) e ∧
    search s.cfg s.mem s.dmmu.ptbp (seenCid s.cfg s.sr.cid) e = .noPte ∧
    search s.cfg s.mem s.immu.ptbp (seenCid s.cfg s.sr.cid) e = .noPte := by
  unfold NoWay NoAtb
  decide +kernel

/-- For InstalledEntryIsTheMatch and InstallCopiesPte: a level 2 page in the TLB. -/
theorem witness_Install :
    cfg8.wf = true ∧ PageLevel.l2 ∈ (searchPath cfg8.eaBits 0x12345678).map Prod.fst ∧
    lookup cfg8 (cfg8.mmu .d) state8.dmmu 0 0x12345678 = .miss ∧
    ∃ m r, install cfg8 .d state8.dmmu 0 0x12345678
      ⟨⟨false, true, false, false⟩, false, false, 2, true, 0xABC⟩ .l2 0x12688 (Config.freeBits 0) = some (m, r) :=
  ⟨by decide +kernel, by decide, by decide +kernel, _, _, rfl⟩

/-- A level 1 page in the ATB of a machine without ways, and a level 0 page of a 64-bit machine. -/
theorem witness_Install_atb :
    let c1 : Config := { cfg8 with d.ways := 0, d.atbEntries := 2 }
    let c0 : Config := { cfg8 with eaBits := .ea64, d.atbEntries := 4 }
    (c1.wf = true ∧ PageLevel.l1 ∈ (searchPath c1.eaBits 0x40123456).map Prod.fst ∧
      lookup c1 (c1.mmu .d) state8.dmmu 0 0x40123456 = .miss ∧ c0.wf = true ∧
      PageLevel.l0 ∈ (searchPath c0.eaBits 0x812345678).map Prod.fst ∧
      lookup c0 (c0.mmu .d) state8.dmmu 0 0x812345678 = .miss) ∧
    (∃ m r, install c1 .d state8.dmmu 0 0x40123456
      ⟨⟨false, false, true, false⟩, false, false, 3, true, 0x1800⟩ .l1 0x10100 (Config.freeBits 0) = some (m, r)) ∧
    ∃ m r, install c0 .d state8.dmmu 0 0x812345678
      ⟨⟨false, false, false, false⟩, false, false, 2, true, 0⟩ .l0 0x10004 (Config.freeBits 0) = some (m, r) := by
  intro c1 c0
  exact ⟨by decide +kernel, ⟨_, _, rfl⟩, _, _, rfl⟩

/-- Section 8 row 1: group 2 permits a user load and prohibits a user store; its instruction half with groups that permit a
supervisor fetch and prohibit a user fetch. -/
theorem witness_ReloadTranslates_level2 :
    let s := { state8 with
      sr := ⟨.user, true, true, 0, false, false⟩
      immu := { zeroMmu (⟨false, false⟩ : IProt) with ptbp := 0x40, pr := unpackIpr Layout.default.ipr 0x4 } }
    let e := pageEa s.cfg.eaBits 0x12345678
    let cid := seenCid s.cfg s.sr.cid
    s.cfg.wf = true ∧ s.sr.dme = true ∧ s.sr.ime = true ∧ s.cfg.d.hwReload = true ∧ s.cfg.i.hwReload = true ∧
    s.cfg.d.ways ≠ 0 ∧ s.cfg.i.ways ≠ 0 ∧
    NoWay s.cfg .d s.dmmu cid e ∧ NoAtb s.cfg .d s.dmmu cid e ∧ NoWay s.cfg .i s.immu cid e ∧
    NoAtb s.cfg .i s.immu cid e ∧
    search s.cfg s.mem s.dmmu.ptbp cid e =
      .found ⟨⟨false, true, false, false⟩, false, false, 2, true, 0xABC⟩ .l2 0x12688 ∧
    search s.cfg s.mem s.immu.ptbp cid e =
      .found ⟨⟨false, true, false, false⟩, false, false, 2, true, 0xABC⟩ .l2 0x12688 ∧
    dPermits false s.sr.mode (groupGet s.dmmu.pr 2) = true ∧ dPermits true s.sr.mode (groupGet s.dmmu.pr 2) = false ∧
    iPermits .supervisor (groupGet s.immu.pr 2) = true ∧ iPermits .user (groupGet s.immu.pr 2) = false := by
  unfold NoWay NoAtb
  decide +kernel

/-- Section 8.3: a level 1 page of group 3; and a level 0 page of a 64-bit machine. -/
theorem witness_ReloadTranslates_upper :
    (let s := { state8 with mem := physWrite32 cfg8 [] 0x10100 0x6002C4 }
     let e := pageEa s.cfg.eaBits 0x40123456
     let cid := seenCid s.cfg s.sr.cid
     s.sr.dme = true ∧ HasPlace s.cfg.d .l1 ∧ NoWay s.cfg .d s.dmmu cid e ∧ NoAtb s.cfg .d s.dmmu cid e ∧
     search s.cfg s.mem s.dmmu.ptbp cid e =
       .found ⟨⟨false, false, true, false⟩, false, false, 3, true, 0x1800⟩ .l1 0x10100) ∧
    (let s := { state8 with
       cfg := { cfg8 with eaBits := .ea64, d.atbEntries := 4 }, mem := physWrite32 cfg8 [] 0x10004 0x280 }
     let e := pageEa s.cfg.eaBits 0x812345678
     let cid := seenCid s.cfg s.sr.cid
     s.sr.dme = true ∧ HasPlace s.cfg.d .l0 ∧ NoWay s.cfg .d s.dmmu cid e ∧ NoAtb s.cfg .d s.dmmu cid e ∧
     search s.cfg s.mem s.dmmu.ptbp cid e =
       .found ⟨⟨false, false, false, false⟩, false, false, 2, true, 0⟩ .l0 0x10004) := by
  unfold NoWay NoAtb HasPlace
  decide +kernel

/-- The reload agent's own step: software reload, no PTE, a page, a page without a place, and a search without a meaning. -/
theorem witness_ReloadTranslates_agent :
    cfg5.d.hwReload = false ∧ cfg5.i.hwReload = false ∧ state8.cfg.wf = true ∧ state8.cfg.d.hwReload = true ∧
    search cfg8 state8.mem state8.dmmu.ptbp (seenCid cfg8 0) (pageEa cfg8.eaBits 0x13000000) = .noPte ∧
    search cfg8 state8.mem state8.dmmu.ptbp (seenCid cfg8 0) (pageEa cfg8.eaBits 0x12345678) =
      .found ⟨⟨false, true, false, false⟩, false, false, 2, true, 0xABC⟩ .l2 0x12688 ∧
    HasPlace cfg8.d .l2 ∧ ¬HasPlace { cfg8.d with ways := 0 } .l2 ∧
    search cfg8 (physWrite32 cfg8 (physWrite32 cfg8 [] 0x10048 0x2440) 0x12688 0x2440) 0x40 0 0x12345678 =
      .stop .malformedTable := by
  unfold HasPlace
  decide +kernel

theorem witness_OtherContextsNeverMatch :
    (∀ y n, ((state5 .supervisor 4).dmmu.entry y n).mr.v = true →
      ((state5 .supervisor 4).dmmu.entry y n).mr.cid ≠ 4) ∧
    (∃ y n, ((state5 .supervisor 4).dmmu.entry y n).mr.v = true) ∧
    ∀ i, (fileGet (state5 .supervisor 4).dmmu.atb i).mr.v = true →
      (fileGet (state5 .supervisor 4).dmmu.atb i).mr.cid ≠ 4 := by
  refine ⟨fun y n => ?_, ⟨0, 34, by decide +kernel⟩, by decide +kernel⟩
  rw [state5, withDtlb, entry_setEntry]
  split
  · intro _
    decide +kernel
  · simp [running, small, zeroMmu, Mmu.entry]

/-- Outside and inside a delay slot. -/
theorem witness_ExceptionEntrySavesState :
    (small cfg5).delaySlot = none ∧ { small cfg5 with delaySlot := some ⟨0, 0x100⟩ }.delaySlot = some ⟨0, 0x100⟩ :=
  ⟨rfl, rfl⟩

/-- Outside a delay slot, and in that of a jump at 0x100. -/
theorem witness_ReturnRestarts :
    ((small cfg5).delaySlot = none ∧ FitsEa (small cfg5).cfg (small cfg5).pc) ∧
    { small cfg5 with delaySlot := some ⟨0x100, 0x200⟩ }.delaySlot = some ⟨0x100, 0x200⟩ ∧ FitsEa cfg5 0x100 :=
  ⟨⟨rfl, (small_inv (c := cfg5) (by decide +kernel)).pc⟩, rfl, by unfold FitsEa; decide⟩

/-- A fetch that raises, and one that goes through. -/
theorem witness_FetchComesFirst :
    (∃ t, fetchInsn { running cfg5 .supervisor 0 with inbox := [] } = .trap t) ∧
    ∃ b u, fetchInsn { small cfg5 with inbox := [] } = .ok b u :=
  ⟨exists_trap (by decide +kernel), _, _, rfl⟩

/-- The data MMU is on and the instruction MMU off. -/
def dataOn : State := { small cfg5 with sr := ⟨.supervisor, true, false, 0, false, false⟩ }

/-- The state after its fetch. -/
def fetched : State :=
  match fetchInsn { dataOn with inbox := [] } with
  | .ok _ u => u
  | _ => dataOn

/-- Where the first address of an access raises, the access does, whichever parts are translated. -/
theorem accessParts_trap {store : Bool} {ea : Ea} {n : Nat} {s t : State} (hn : inOnePage ea (n + 1) = false)
    (h : dTranslate store ea (countDraw s) = .trap t) : translateAccess store ea (n + 1) s = .trap t := by
  simp only [translateAccess, hn, Bool.false_eq_true, if_false, accessParts, pageParts]
  split <;> simp [translateParts, h]

/-- With the data MMU off every part of an access is translated. -/
theorem translateParts_off (store : Bool) (l : List (Ea × Nat)) {s : State} (h : s.sr.dme = false) :
    ∃ parts w, translateParts store l s = .ok parts w := by
  induction l generalizing s with
  | nil => exact ⟨_, _, rfl⟩
  | cons q l ih =>
    obtain ⟨parts, w, hw⟩ := ih (s := countDraw s) h
    simp [translateParts, dTranslate, h, untranslated, hw]

/-- An access in one page, and one across pages. -/
theorem witness_FailedAccessLeavesMemory :
    fetchInsn { dataOn with inbox := [] } = .ok [0, 0, 0, 0] fetched ∧ inOnePage 0x1FFF 1 = true ∧
      (∃ t, dTranslate false 0x1FFF fetched = .trap t) ∧ inOnePage 0x1FFC [1, 2, 3, (4 : Byte)].length = true ∧
      (∃ t, dTranslate true 0x1FFC fetched = .trap t) ∧
      (∃ t, translateAccess false 0x1FFF (1 + 1) fetched = .trap t) ∧
      ∃ t, translateAccess true 0x1FFE [1, 2, 3, (4 : Byte)].length fetched = .trap t := by
  refine ⟨rfl, by decide, exists_trap (by decide +kernel), by decide, exists_trap (by decide +kernel), ?_, ?_⟩
  · obtain ⟨t, ht⟩ := exists_trap (o := dTranslate false 0x1FFF (countDraw fetched)) (by decide +kernel)
    exact ⟨t, accessParts_trap (by decide) ht⟩
  · obtain ⟨t, ht⟩ := exists_trap (o := dTranslate true 0x1FFE (countDraw fetched)) (by decide +kernel)
    exact ⟨t, accessParts_trap (n := 3) (by decide) ht⟩

/-- A store in one page, and one across pages. -/
theorem witness_StoreWritesItsBytes :
    (small cfg5).Inv ∧ 13 ≤ (small cfg5).cfg.paBits ∧
    ∃ b u, fetchInsn { small cfg5 with inbox := [] } = .ok b u ∧
      inOnePage 0x1FFC [1, 2, 3, (4 : Byte)].length = true ∧
      (∃ pa at' w, dTranslate true 0x1FFC u = .ok (pa, at') w) ∧
      ∃ parts w, translateAccess true 0x1FFE [1, 2, 3, (4 : Byte)].length u = .ok parts w :=
  ⟨small_inv (by decide +kernel), by decide, _, _, rfl, by decide, ⟨_, _, _, rfl⟩, translateParts_off _ _ rfl⟩

/-- A load in one page, and one across pages. -/
theorem witness_LoadDeliversBytes :
    ∃ b u, fetchInsn { small cfg5 with inbox := [] } = .ok b u ∧ inOnePage 0x1FFC 4 = true ∧
      (∃ pa at' w, dTranslate false 0x1FFC u = .ok (pa, at') w) ∧
      ∃ parts w, translateAccess false 0x1FFE 4 u = .ok parts w :=
  ⟨_, _, rfl, by decide, ⟨_, _, _, rfl⟩, translateParts_off _ _ rfl⟩

theorem witness_TlbsNotCoherent :
    (∃ t, step { small cfg5 with inbox := [.foreignWrite 0x10 [1]] } = .next t) ∧
    (∃ t, step { small cfg8 with inbox := [.historyWrite .d 0] } = .next t) ∧
    cfg5.wf = true ∧ cfg5.d.hwReload = false ∧ cfg5.i.hwReload = false ∧
    ∃ t, step { small cfg5 with inbox := [.store 0x1FFC [1, 2, 3, 4]] } = .next t :=
  ⟨⟨_, rfl⟩, ⟨_, rfl⟩, by decide +kernel, rfl, rfl, _, rfl⟩

/-- Updates of the PTE at 0x12688 are owed in each half, of A alone, of D alone and of both; no entry is valid any more. -/
def owing (word : Word) : State :=
  let owed : List HistOwed := [⟨0x12688, true, false⟩, ⟨0x12688, false, true⟩, ⟨0x12688, true, true⟩]
  { small cfg8 with
    mem := physWrite32 cfg8 [] 0x12688 word
    dmmu := { zeroMmu ⟨false, false, false, false⟩ with owed := owed }
    immu := { zeroMmu ⟨false, false⟩ with owed := owed } }

theorem fits_owed {P : Type} {c : Config} {x : Side} {m : Mmu P} {owed : List HistOwed} (h : m.Fits c x)
    (ho : ∀ o ∈ owed, WordAt c o.pa) : ({ m with owed := owed } : Mmu P).Fits c x :=
  ⟨h.tlbCid, h.atbCid, h.tlbPpn, h.atbPpn, h.tlbOrigin, h.atbOrigin, ho, h.hist⟩

theorem owing_inv {word : Word} (hw : (physWrite32 cfg8 [] 0x12688 word).wf = true)
    (hb : ∀ x ∈ physWrite32 cfg8 [] 0x12688 word, x.1 < 2 ^ cfg8.paBits) : (owing word).Inv := by
  have h := small_inv (c := cfg8) (by decide +kernel)
  have ho : ∀ o ∈ [HistOwed.mk 0x12688 true false, ⟨0x12688, false, true⟩, ⟨0x12688, true, true⟩], WordAt cfg8 o.pa := by
    unfold WordAt
    decide
  exact ⟨h.cfg, hw, hb, h.gpr, h.pc, h.epcr, h.eear, fits_owed h.dmmu ho, fits_owed h.immu ho⟩

/-- The word is the PTE of a page, a pointer (L = 0), and an invalid PTE (PPI = 0). -/
theorem witness_HistoryReachesPte :
    ((owing 0x2AF282).Inv ∧ (owing 0x2440).Inv ∧ (owing 0x200).Inv) ∧
    (owing 0x2AF282).cfg.d.hwReload = true ∧ (owing 0x2AF282).cfg.i.hwReload = true ∧
    (∀ w, (owing w).dmmu.owed[0]? = some ⟨0x12688, true, false⟩ ∧ (owing w).immu.owed[1]? = some ⟨0x12688, false, true⟩ ∧
      (owing w).dmmu.owed[2]? = some ⟨0x12688, true, true⟩) ∧
    (let p := fun w => unpackPte cfg8.layout.pte (physRead32 cfg8 (owing w).mem 0x12688)
     (p 0x2AF282).l = true ∧ (p 0x2AF282).ppi ≠ 0 ∧ (p 0x2440).l = false ∧ (p 0x200).ppi = 0) :=
  ⟨⟨owing_inv (by decide +kernel) (by decide +kernel), owing_inv (by decide +kernel) (by decide +kernel),
    owing_inv (by decide +kernel) (by decide +kernel)⟩, rfl, rfl, fun _ => ⟨rfl, rfl, rfl⟩, by decide +kernel⟩

/-- For SoftwareReloadNeverWritesMemory, StepKeepsInvariant and AbsentEntriesNeverChange: a step that is next. -/
theorem witness_Step :
    (small cfg5).Inv ∧ (∃ t, step { small cfg5 with inbox := [.store 0x1FFC [1, 2, 3, 4]] } = .next t) ∧
    atWord.inbox = [] ∧ atWord.cfg.wf = true ∧ atWord.cfg.d.hwReload = false ∧ atWord.cfg.i.hwReload = false ∧
    (∃ t, step atWord = .next t) ∧ ¬(EntryRef.tlb 2 0).implemented cfg5.d ∧ ¬(EntryRef.tlb 0 127).implemented cfg5.d ∧
    ¬(EntryRef.atb 0).implemented cfg5.d ∧ ¬(EntryRef.tlb 0 127).implemented cfg8.d := by
  refine ⟨small_inv (by decide +kernel), ⟨_, rfl⟩, rfl, by decide +kernel, rfl, rfl, ⟨_, rfl⟩, ?_, ?_, ?_, ?_⟩ <;>
    simp [EntryRef.implemented, cfg5, cfg8]

theorem witness_StepKeepsInvariant :
    { small cfg5 with inbox := [.store 0x1FFC [1, 2, 3, 4]] }.Inv ∧
    ∃ t, step { small cfg5 with inbox := [.store 0x1FFC [1, 2, 3, 4]] } = .next t :=
  have h := small_inv (c := cfg5) (by decide +kernel)
  ⟨⟨h.cfg, h.memWf, h.memBound, h.gpr, h.pc, h.epcr, h.eear, h.dmmu, h.immu⟩, _, rfl⟩

theorem witness_OnlyForeignWritesFault :
    step { small cfg5 with inbox := [.foreignWrite (2 ^ 35) [1]] } = .fault .noSuchAddress := by rfl

theorem witness_UserModeLeftByExceptionOnly :
    let s := { atWord with cfg := raising, sr := ⟨.user, false, false, 0, false, false⟩ }
    s.inbox = [] ∧ s.sr.mode = .user ∧ ∃ t, step s = .next t ∧ t.sr.mode = .supervisor :=
  ⟨rfl, rfl, _, rfl, rfl⟩

/-- A user-mode load and a user-mode store that raise DTLB Miss. -/
theorem witness_UserModeLeft_access :
    let s := { small cfg5 with sr := ⟨.user, true, false, 0, false, false⟩ }
    s.sr.mode = .user ∧
    (nextOf (step { s with inbox := [.load 0x1FFC 4 none] })).map (fun t => t.sr.mode) = some .supervisor ∧
    (nextOf (step { s with inbox := [.store 0x1FFC [1, 2, 3, 4]] })).map (fun t => t.sr.mode) = some .supervisor := by
  decide +kernel

end Sys2Proof.Tests
end

section
/-! PROOFS. The invariant (O56): what keeps `Mmu.Fits`, then what keeps `State.Inv`, up to a whole step. -/

namespace Sys2Proof.Machine

/-! ### What `Mmu.Fits` asks of one entry -/

section Fits
variable {P : Type} {c : Config} {x : Side} {m : Mmu P}

/-- The part of `Mmu.Fits` that speaks of one TLB entry, whose PPN field has `width` bits. -/
structure TlbEntry.Fits (c : Config) (width : Nat) (e : TlbEntry P) : Prop where
  cid : c.cidImpl = false → e.mr.cid = 0
  ppn : e.tr.ppn.toNat < 2 ^ width
  origin : ∀ pa, e.origin = some pa → WordAt c pa

/-- The part of `Mmu.Fits` that speaks of one ATB entry. -/
structure AtbEntry.Fits (c : Config) (width : Nat) (e : AtbEntry P) : Prop where
  cid : c.cidImpl = false → e.mr.cid = 0
  ppn : e.tr.ppn.toNat < 2 ^ width
  origin : ∀ pa, e.origin = some pa → WordAt c pa

theorem Mmu.fits_iff : m.Fits c x ↔
    (∀ y k, (m.entry y k).Fits c (ppnWidths c.layout x).1) ∧
    (∀ i, (fileGet m.atb i).Fits c (ppnWidths c.layout x).2) ∧
    (∀ o ∈ m.owed, WordAt c o.pa) ∧ (∀ h ∈ m.hist, WordAt c h.pa) := by
  constructor
  · intro h
    exact ⟨fun y k => ⟨fun hc => h.tlbCid hc y k, h.tlbPpn y k, h.tlbOrigin y k⟩,
      fun i => ⟨fun hc => h.atbCid hc i, h.atbPpn i, h.atbOrigin i⟩, h.owed, h.hist⟩
  · rintro ⟨htlb, hatb, howed, hhist⟩
    exact ⟨fun hc y k => (htlb y k).cid hc, fun hc i => (hatb i).cid hc, fun y k => (htlb y k).ppn,
      fun i => (hatb i).ppn, fun y k => (htlb y k).origin, fun i => (hatb i).origin, howed, hhist⟩

theorem Mmu.Fits.tlbEntry (h : m.Fits c x) (y : BitVec 2) (k : BitVec 7) :
    (m.entry y k).Fits c (ppnWidths c.layout x).1 := (Mmu.fits_iff.1 h).1 y k

theorem Mmu.Fits.atbEntry (h : m.Fits c x) (i : BitVec 2) : (fileGet m.atb i).Fits c (ppnWidths c.layout x).2 :=
  (Mmu.fits_iff.1 h).2.1 i

/-! ### Every update of one half keeps `Mmu.Fits` -/

theorem Mmu.Fits.setEntry (h : m.Fits c x) (y : BitVec 2) (k : BitVec 7) {e : TlbEntry P}
    (he : e.Fits c (ppnWidths c.layout x).1) : (m.setEntry y k e).Fits c x := by
  refine Mmu.fits_iff.2 ⟨fun y' k' => ?_, h.atbEntry, h.owed, h.hist⟩
  rw [entry_setEntry]
  split
  · exact he
  · exact h.tlbEntry y' k'

theorem Mmu.Fits.setAtb (h : m.Fits c x) (i : BitVec 2) {e : AtbEntry P}
    (he : e.Fits c (ppnWidths c.layout x).2) : (m.setAtb i e).Fits c x := by
  refine Mmu.fits_iff.2 ⟨h.tlbEntry, fun j => ?_, h.owed, h.hist⟩
  rw [atb_setAtb]
  split
  · exact he
  · exact h.atbEntry j

theorem Mmu.Fits.mapTlb (h : m.Fits c x) {f : BitVec 2 → BitVec 7 → TlbEntry P → TlbEntry P}
    (hf : ∀ y k e, e.Fits c (ppnWidths c.layout x).1 → (f y k e).Fits c (ppnWidths c.layout x).1) :
    (m.mapTlb f).Fits c x := by
  refine Mmu.fits_iff.2 ⟨fun y k => ?_, ?_, ?_, ?_⟩
  · rw [entry_mapTlb]
    exact hf y k _ (h.tlbEntry y k)
  · simpa using h.atbEntry
  · simpa using h.owed
  · simpa using h.hist

/-- A change of V and LRU in TLB entries matters to no clause. -/
theorem TlbEntry.Fits.setMr {width : Nat} {e : TlbEntry P} (h : e.Fits c width) {mr : TlbMatch}
    (hcid : mr.cid = e.mr.cid) : TlbEntry.Fits c width { e with mr := mr } :=
  ⟨fun hc => hcid.trans (h.cid hc), h.ppn, h.origin⟩

theorem Mmu.Fits.redrawLru (h : m.Fits c x) (ways : Nat) (set : BitVec 7) (free : BitVec 64) :
    (m.redrawLru ways set free).Fits c x :=
  h.mapTlb fun y k e he => by
    split
    · exact he.setMr rfl
    · exact he

theorem Mmu.Fits.flush (h : m.Fits c x) (mc : MmuConfig) : (m.flush mc).Fits c x :=
  h.mapTlb fun y k e he => by
    split
    · exact he.setMr rfl
    · exact he

theorem Mmu.Fits.invalidate (h : m.Fits c x) (mc : MmuConfig) (e : PageEa) (free : BitVec 64) :
    (m.invalidate c mc e free).Fits c x :=
  h.mapTlb fun y k t ht => by
    split
    · exact ht.setMr rfl
    · exact ht

/-- The control and protection registers are in no clause. -/
theorem Mmu.Fits.setControl (h : m.Fits c x) (tf : Bool) (ptbp : BitVec 22) (pr : Vector P 7) :
    Mmu.Fits c x { m with tf := tf, ptbp := ptbp, pr := pr } :=
  ⟨h.tlbCid, h.atbCid, h.tlbPpn, h.atbPpn, h.tlbOrigin, h.atbOrigin, h.owed, h.hist⟩

theorem Mmu.Fits.writeCr (h : m.Fits c x) (mc : MmuConfig) (p : CrPos) (w : Word) : (m.writeCr mc p w).Fits c x := by
  have hptbp : (if mc.ptbpImpl then { m with ptbp := getField 22 w p.ptbp } else m).Fits c x := by
    split
    · exact h.setControl _ _ _
    · exact h
  unfold Mmu.writeCr
  simp only
  split
  · exact (hptbp.flush mc).setControl _ _ _
  · exact hptbp

theorem Mmu.Fits.setTr (h : m.Fits c x) (r : EntryRef) {t : TransReg P} (ht : t.ppn = (m.trOf r).ppn) :
    (m.setTr r t).Fits c x := by
  cases r with
  | tlb y k =>
    have he := h.tlbEntry y k
    exact h.setEntry y k ⟨he.cid, ht.symm ▸ he.ppn, he.origin⟩
  | atb i =>
    have he := h.atbEntry i
    exact h.setAtb i ⟨he.cid, ht.symm ▸ he.ppn, he.origin⟩

theorem Mmu.Fits.originOf (h : m.Fits c x) {r : EntryRef} {pa : Pa} (hr : m.originOf r = some pa) : WordAt c pa := by
  cases r with
  | tlb y k => exact h.tlbOrigin y k pa hr
  | atb i => exact h.atbOrigin i pa hr

/-- An update that is owed goes to the PTE a reload found (R131). -/
theorem Mmu.Fits.owe (h : m.Fits c x) (r : EntryRef) (a d : Bool) : (m.owe r a d).Fits c x := by
  unfold Mmu.owe
  split
  · next pa hpa =>
    split
    · refine Mmu.fits_iff.2 ⟨h.tlbEntry, h.atbEntry, fun o ho => ?_, h.hist⟩
      rcases List.mem_append.1 ho with ho | ho
      · exact h.owed o ho
      · obtain rfl := List.mem_singleton.1 ho
        exact h.originOf hpa
    · exact h
  · exact h

theorem Mmu.Fits.readHist (h : m.Fits c x) (mem : Memory) (k : Nat) (a d : Bool) :
    (m.readHist c mem k a d).Fits c x := by
  rcases readHist_cases (c := c) (mem := mem) (k := k) (a := a) (d := d) (m := m) with heq | ⟨o, ho, -, heq⟩
  · rw [heq]; exact h
  · rw [heq]
    have hpa : WordAt c o.pa := h.owed o (List.mem_of_getElem? ho)
    refine Mmu.fits_iff.2 ⟨h.tlbEntry, h.atbEntry, fun o' ho' => ?_, fun l hl => ?_⟩
    · rcases List.mem_or_eq_of_mem_set ho' with ho' | rfl
      · exact h.owed o' ho'
      · exact hpa
    · rcases List.mem_append.1 hl with hl | hl
      · exact h.hist l hl
      · obtain rfl := List.mem_singleton.1 hl
        exact hpa

theorem Mmu.Fits.eraseHist (h : m.Fits c x) (k : Nat) : Mmu.Fits c x { m with hist := m.hist.eraseIdx k } :=
  Mmu.fits_iff.2 ⟨h.tlbEntry, h.atbEntry, h.owed, fun l hl => h.hist l (List.mem_of_mem_eraseIdx hl)⟩

/-! ### Writes of the match and translate registers (R195, R196) -/

theorem mrOfWord_cid (w : Word) (hc : c.cidImpl = false) : (mrOfWord c w).cid = 0 := by simp [mrOfWord, hc]

theorem amrOfWord_cid (w : Word) (hc : c.cidImpl = false) : (amrOfWord c w).cid = 0 := by simp [amrOfWord, hc]

theorem unpackTr_ppn_lt (p : TrPos) (prot : P) (w : Word) : (unpackTr p prot w).ppn.toNat < 2 ^ p.ppnWidth :=
  cutPpn_lt _ _

theorem Mmu.Fits.writeTlbMr (h : m.Fits c x) (y : BitVec 2) (k : BitVec 7) (w : Word) :
    (m.writeTlbMr y k (mrOfWord c w)).Fits c x :=
  h.setEntry y k ⟨mrOfWord_cid w, (h.tlbEntry y k).ppn, fun _ ho => nomatch ho⟩

theorem Mmu.Fits.writeAtbMr (h : m.Fits c x) (i : BitVec 2) (w : Word) :
    (m.writeAtbMr i (amrOfWord c w)).Fits c x :=
  h.setAtb i ⟨amrOfWord_cid w, (h.atbEntry i).ppn, fun _ ho => nomatch ho⟩

theorem Mmu.Fits.writeTlbTr (h : m.Fits c x) (y : BitVec 2) (k : BitVec 7) {t : TransReg P}
    (ht : t.ppn.toNat < 2 ^ (ppnWidths c.layout x).1) : (m.writeTlbTr y k t).Fits c x :=
  h.setEntry y k ⟨(h.tlbEntry y k).cid, ht, (h.tlbEntry y k).origin⟩

theorem Mmu.Fits.writeAtbTr (h : m.Fits c x) (i : BitVec 2) {t : TransReg P}
    (ht : t.ppn.toNat < 2 ^ (ppnWidths c.layout x).2) : (m.writeAtbTr i t).Fits c x :=
  h.setAtb i ⟨(h.atbEntry i).cid, ht, (h.atbEntry i).origin⟩

end Fits

/-! ### Reloads and translations keep `Mmu.Fits` -/

theorem Config.wf_paBits_le {c : Config} (h : c.wf = true) : c.paBits ≤ 35 := by
  simp only [Config.wf, Bool.and_eq_true, decide_eq_true_eq] at h
  omega

theorem MmuConfig.wf_sets_pos {mc : MmuConfig} (h : mc.wf = true) : 1 ≤ mc.sets := by
  simp only [MmuConfig.wf, Bool.and_eq_true, decide_eq_true_eq] at h
  omega

theorem Config.wf_mmu {c : Config} (h : c.wf = true) (x : Side) : (c.mmu x).wf = true := by
  simp only [Config.wf, Bool.and_eq_true] at h
  cases x <;> simp [Config.mmu, h]

/-- The context that the MMU sees is 0 where the field is hardwired (R39, R48). -/
theorem seenCid_hardwired {c : Config} (cid : BitVec 4) (hc : c.cidImpl = false) : seenCid c cid = 0 := by
  simp [seenCid, hc]

/-- The PTE that a search finds is an aligned word of physical memory, and its address fits 35 bits. -/
theorem search_found_wordAt {c : Config} {mem : Memory} {ptbp : BitVec 22} {cid : BitVec 4} {e : PageEa} {pte : Pte}
    {level : PageLevel} {pa : Nat} (hwf : c.wf = true) (h : search c mem ptbp cid e = .found pte level pa) :
    WordAt c (BitVec.ofNat 35 pa) := by
  obtain ⟨hdvd, hle, -⟩ := walk_found h (ptBase_dvd c ptbp cid)
  have hpow : 2 ^ c.paBits ≤ 2 ^ 35 := Nat.pow_le_pow_right (by omega) (Config.wf_paBits_le hwf)
  have hpa : (BitVec.ofNat 35 pa).toNat = pa := by
    rw [BitVec.toNat_ofNat]
    exact Nat.mod_eq_of_lt (by omega)
  exact ⟨hpa.symm ▸ hdvd, hpa.symm ▸ hle⟩

section Reload
variable {P : Type} {c : Config} {x : Side} {m m' : Mmu P} {mem : Memory} {cid : BitVec 4} {e : PageEa}

theorem Mmu.Fits.install (h : m.Fits c x) (hcid : c.cidImpl = false → cid = 0) {pte : Pte} {level : PageLevel}
    {pa : Nat} (hpa : WordAt c (BitVec.ofNat 35 pa)) {free : BitVec 64} {r : EntryRef}
    (hi : Machine.install c x m cid e pte level pa free = some (m', r)) : m'.Fits c x := by
  have horigin : ∀ q, some (BitVec.ofNat 35 pa) = some q → WordAt c q := fun q hq => Option.some.inj hq ▸ hpa
  rcases install_cases hi with ⟨-, -, heq⟩ | ⟨-, -, heq⟩
  · obtain ⟨rfl, -⟩ := Prod.mk.inj heq
    exact h.setEntry _ _ ⟨hcid, cutPpn_lt _ _, horigin⟩
  · obtain ⟨rfl, -⟩ := Prod.mk.inj heq
    exact h.setAtb _ ⟨hcid, cutPpn_lt _ _, horigin⟩

theorem Mmu.Fits.reloadHalf (h : m.Fits c x) (hwf : c.wf = true) (hcid : c.cidImpl = false → cid = 0) {ea : Ea}
    {draws : Nat} (hr : Machine.reloadHalf c x mem cid ea draws m = .ok m') : m'.Fits c x := by
  rcases reloadHalf_ok hr with rfl | ⟨pte, level, pa, r, hs, hi⟩
  · exact h
  · exact h.install hcid (search_found_wordAt hwf hs) hi

theorem Mmu.Fits.translate (h : m.Fits c x) (hwf : c.wf = true) (hcid : c.cidImpl = false → cid = 0) {store : Bool}
    {ok : P → Bool} {ea : Ea} {draws : Nat} :
    (∀ m' k pa at', Machine.translate c x store ok mem cid ea m draws = .done m' k pa at' → m'.Fits c x) ∧
    (∀ m' k f, Machine.translate c x store ok mem cid ea m draws = .raise m' k f → m'.Fits c x) :=
  translate_keeps (Mmu.Fits c x) (MmuConfig.wf_sets_pos (Config.wf_mmu hwf x))
    (fun _ _ _ _ _ _ _ _ h1 hs hi => h1.install hcid (search_found_wordAt hwf hs) hi)
    (fun _ r a d h1 _ => h1.owe r a d)
    (fun _ r h1 _ => h1.setTr r rfl)
    (fun _ r _ h1 _ => h1.setTr r rfl)
    (fun _ _ _ h1 => h1.redrawLru _ _ _) h

end Reload

/-! ### Every update of the state keeps the invariant -/

/-- The invariant of a machine that implements c: no update of the state changes c. -/
def State.InvFor (c : Config) (s : State) : Prop := s.Inv ∧ s.cfg = c

@[simp] theorem fitsEa_truncEa (c : Config) (v : Ea) : FitsEa c (truncEa c.eaBits v) := by
  unfold FitsEa truncEa
  cases c.eaBits
  · apply BitVec.eq_of_toNat_eq
    simp
  · rfl

section Keeps
variable {c : Config} {s t : State}

theorem State.InvFor.wf (h : s.InvFor c) : s.cfg.wf = true := h.1.cfg

theorem State.InvFor.setMem (h : s.InvFor c) {mem : Memory} (hwf : mem.wf = true)
    (hbound : ∀ cell ∈ mem, cell.1 < 2 ^ s.cfg.paBits) : State.InvFor c { s with mem := mem } :=
  ⟨{ h.1 with memWf := hwf, memBound := hbound }, h.2⟩

theorem State.InvFor.setDmmu (h : s.InvFor c) {m : Mmu DProt} (hm : m.Fits s.cfg .d) (draws : Nat) :
    State.InvFor c { s with dmmu := m, draws := draws } :=
  ⟨{ h.1 with dmmu := hm }, h.2⟩

theorem State.InvFor.setImmu (h : s.InvFor c) {m : Mmu IProt} (hm : m.Fits s.cfg .i) (draws : Nat) :
    State.InvFor c { s with immu := m, draws := draws } :=
  ⟨{ h.1 with immu := hm }, h.2⟩

/-- The bus record, the inbox and the count of free values are in no clause. -/
theorem State.InvFor.setOutside (h : s.InvFor c) (bus : List BusAccess) (inbox : List Input) (draws : Nat) :
    State.InvFor c { s with bus := bus, inbox := inbox, draws := draws } :=
  ⟨{ h.1 with }, h.2⟩

theorem State.InvFor.countDraw (h : s.InvFor c) : (countDraw s).InvFor c := h.setOutside _ _ _

theorem State.InvFor.writeGpr (h : s.InvFor c) (i : BitVec 5) (v : Ea) : (writeGpr s i v).InvFor c := by
  refine ⟨{ h.1 with gpr := fun j => ?_ }, h.2⟩
  rw [writeGpr_gpr, fileGet_fileSet]
  split
  · exact fitsEa_truncEa _ _
  · exact h.1.gpr j

theorem State.InvFor.advance (h : s.InvFor c) : (advance s).InvFor c :=
  ⟨{ h.1 with pc := fitsEa_truncEa _ _ }, h.2⟩

theorem State.InvFor.takeException (h : s.InvFor c) (offset : BitVec 12) (ea : Ea) :
    (takeException offset ea s).InvFor c :=
  ⟨{ h.1 with pc := fitsEa_truncEa _ _, epcr := fitsEa_truncEa _ _, eear := fitsEa_truncEa _ _ }, h.2⟩

theorem State.InvFor.raiseMmu (h : s.InvFor c) (e : MmuException) (ea : Ea) : (raiseMmu e ea s).InvFor c :=
  h.takeException e.offset ea

theorem State.InvFor.coreAct (h : s.InvFor c) (act : CoreAct) : (coreAct act s).InvFor c := by
  cases act with
  | proceed => exact h
  | setGpr r v => exact h.writeGpr r v
  | setSr sr => exact ⟨{ h.1 with }, h.2⟩
  | jump pc slot => exact ⟨{ h.1 with pc := fitsEa_truncEa _ _ }, h.2⟩
  | returnFromException => exact ⟨{ h.1 with pc := fitsEa_truncEa _ _ }, h.2⟩

/-! ### The two instructions -/

/-- A register of the data half and one of the instruction half are written alike; only the lemmas cited differ. -/
theorem State.InvFor.sprStore (h : s.InvFor c) (r : Spr) (v : Ea) : (sprStore r v s).InvFor c := by
  have hd := h.1.dmmu
  have hi := h.1.immu
  cases r with
  | mmucr x =>
    cases x
    · exact h.setDmmu (hd.writeCr _ _ _) _
    · exact h.setImmu (hi.writeCr _ _ _) _
  | mmupr x =>
    cases x
    · exact h.setDmmu (hd.setControl _ _ _) _
    · exact h.setImmu (hi.setControl _ _ _) _
  | tlbeir x =>
    cases x
    · exact h.setDmmu (hd.invalidate _ _ _) _
    · exact h.setImmu (hi.invalidate _ _ _) _
  | atbmr x i =>
    cases x
    · exact h.setDmmu (hd.writeAtbMr i _) _
    · exact h.setImmu (hi.writeAtbMr i _) _
  | atbtr x i =>
    cases x
    · exact h.setDmmu (hd.writeAtbTr i (unpackTr_ppn_lt _ _ _)) _
    · exact h.setImmu (hi.writeAtbTr i (unpackTr_ppn_lt _ _ _)) _
  | tlbmr x y k =>
    cases x
    · exact h.setDmmu (hd.writeTlbMr y k _) _
    · exact h.setImmu (hi.writeTlbMr y k _) _
  | tlbtr x y k =>
    cases x
    · exact h.setDmmu (hd.writeTlbTr y k (unpackTr_ppn_lt _ _ _)) _
    · exact h.setImmu (hi.writeTlbTr y k (unpackTr_ppn_lt _ _ _)) _
  | mmucfgr x => exact h

theorem State.InvFor.sprWrite (h : s.InvFor c) (r : Spr) (v : Ea) : (sprWrite r v s).InvFor c := by
  unfold Machine.sprWrite
  split
  · exact h.sprStore r v
  · exact h

theorem State.InvFor.exec (h : s.InvFor c) {i : Instr} (he : exec i s = .next t) : t.InvFor c := by
  cases i with
  | mfspr d a k =>
    obtain ⟨r, -, ⟨-, rfl⟩ | ⟨-, v, -, rfl⟩⟩ := execMfspr_next he
    · exact (h.countDraw.writeGpr _ _).advance
    · exact h.countDraw.takeException _ _
  | mtspr a b k =>
    obtain ⟨r, -, -, ⟨-, rfl⟩ | ⟨-, v, -, rfl⟩⟩ := execMtspr_next he
    · exact (h.sprWrite _ _).advance
    · exact h.countDraw.takeException _ _

/-! ### Accesses -/

theorem State.InvFor.dTranslate_ok (h : s.InvFor c) {store : Bool} {ea : Ea} {p : Pa × Attrs}
    (hx : dTranslate store ea s = .ok p t) : t.InvFor c := by
  rcases Machine.dTranslate_ok hx with ⟨-, m, k, rfl, hm⟩ | ⟨-, rfl, -⟩
  · exact h.setDmmu ((h.1.dmmu.translate h.wf (seenCid_hardwired _)).1 _ _ _ _ hm) k
  · exact h.countDraw

theorem State.InvFor.dTranslate_trap (h : s.InvFor c) {store : Bool} {ea : Ea}
    (hx : dTranslate store ea s = .trap t) : t.InvFor c := by
  obtain ⟨-, m, k, f, rfl, hm⟩ := Machine.dTranslate_trap hx
  exact (h.setDmmu ((h.1.dmmu.translate h.wf (seenCid_hardwired _)).2 _ _ _ hm) k).raiseMmu _ _

theorem State.InvFor.iTranslate_ok (h : s.InvFor c) {ea : Ea} {p : Pa × Attrs} (hx : iTranslate ea s = .ok p t) :
    t.InvFor c := by
  rcases Machine.iTranslate_ok hx with ⟨-, m, k, rfl, hm⟩ | ⟨-, rfl, -⟩
  · exact h.setImmu ((h.1.immu.translate h.wf (seenCid_hardwired _)).1 _ _ _ _ hm) k
  · exact h.countDraw

theorem State.InvFor.iTranslate_trap (h : s.InvFor c) {ea : Ea} (hx : iTranslate ea s = .trap t) : t.InvFor c := by
  obtain ⟨-, m, k, f, rfl, hm⟩ := Machine.iTranslate_trap hx
  exact (h.setImmu ((h.1.immu.translate h.wf (seenCid_hardwired _)).2 _ _ _ hm) k).raiseMmu _ _

theorem State.InvFor.fetchInsn_ok (h : s.InvFor c) {bytes : List Byte} (hx : fetchInsn s = .ok bytes t) :
    t.InvFor c := by
  obtain ⟨-, pa, at', u, hu, -, rfl⟩ := Machine.fetchInsn_ok hx
  exact (h.iTranslate_ok hu).setOutside _ _ _

theorem State.InvFor.fetchInsn_trap (h : s.InvFor c) (hx : fetchInsn s = .trap t) : t.InvFor c :=
  h.iTranslate_trap (Machine.fetchInsn_trap hx)

theorem State.InvFor.translateAccess (h : s.InvFor c) {store : Bool} {ea : Ea} {n : Nat} :
    (∀ parts u, translateAccess store ea n s = .ok parts u → u.InvFor c) ∧
    ∀ u, translateAccess store ea n s = .trap u → u.InvFor c :=
  translateAccess_keeps (State.InvFor c) (State.InvFor c) (fun _ hu => hu.countDraw)
    (fun _ _ _ _ hu hx => hu.dTranslate_ok hx) (fun _ _ _ hu hx => hu.dTranslate_trap hx) h

theorem State.InvFor.dataAccess (h : s.InvFor c) {store : Bool} {ea : Ea} {n : Nat}
    {act : List Part → State → State} (hact : ∀ parts u, u.InvFor c → (act parts u).InvFor c)
    (hx : dataAccess store ea n act s = .next t) : t.InvFor c := by
  rcases dataAccess_next hx with hf | ⟨bytes, u, hf, ha | ⟨parts, w, ha, rfl⟩⟩
  · exact h.fetchInsn_trap hf
  · exact (h.fetchInsn_ok hf).translateAccess.2 t ha
  · exact (hact parts w ((h.fetchInsn_ok hf).translateAccess.1 parts w ha)).advance

theorem State.InvFor.loadAct (h : s.InvFor c) (dest : Option (BitVec 5 × Ea)) (parts : List Part) :
    (loadAct dest parts s).InvFor c := by
  have hbus := h.setOutside (loadBus s.cfg s.mem parts) s.inbox s.draws
  cases dest with
  | none => exact hbus
  | some d => exact hbus.writeGpr d.1 d.2

theorem State.InvFor.storeAct (h : s.InvFor c) (bytes : List Byte) (parts : List Part) :
    (storeAct bytes parts s).InvFor c :=
  (h.setMem (wf_storeMem _ _ h.1.memWf) (storeMem_bounded _ _ h.1.memBound)).setOutside _ _ _

/-! ### The other agents, and the step -/

theorem State.InvFor.inputReload (h : s.InvFor c) {x : Side} {ea : Ea} (hx : inputReload x ea s = .next t) :
    t.InvFor c := by
  rcases inputReload_next hx with ⟨-, rfl⟩ | ⟨-, ⟨-, m, hm, rfl⟩ | ⟨-, m, hm, rfl⟩⟩
  · exact h
  · exact h.setDmmu (h.1.dmmu.reloadHalf h.wf (seenCid_hardwired _) hm) _
  · exact h.setImmu (h.1.immu.reloadHalf h.wf (seenCid_hardwired _) hm) _

theorem State.InvFor.inputHistoryRead (h : s.InvFor c) (x : Side) (k : Nat) (a d : Bool) :
    (inputHistoryRead x k a d s).InvFor c := by
  unfold Machine.inputHistoryRead
  split
  · cases x with
    | d => exact h.setDmmu (h.1.dmmu.readHist _ k a d) _
    | i => exact h.setImmu (h.1.immu.readHist _ k a d) _
  · exact h

theorem State.InvFor.histMem (h : s.InvFor c) (l : Option HistLatch) :
    State.InvFor c { s with mem := histMem s.cfg s.mem l } := by
  cases l with
  | none => exact h
  | some l => exact h.setMem (wf_physWrite32 _ h.1.memWf _ _) (physWrite32_bounded _ h.1.memBound _ _)

theorem State.InvFor.inputHistoryWrite (h : s.InvFor c) (x : Side) (k : Nat) :
    (inputHistoryWrite x k s).InvFor c := by
  unfold Machine.inputHistoryWrite
  split
  · cases x with
    | d => exact (h.histMem _).setDmmu (h.1.dmmu.eraseHist k) _
    | i => exact (h.histMem _).setImmu (h.1.immu.eraseHist k) _
  · exact h

theorem State.InvFor.inputForeignWrite (h : s.InvFor c) {a : Nat} {bytes : List Byte}
    (hx : inputForeignWrite a bytes s = .next t) : t.InvFor c := by
  unfold Machine.inputForeignWrite at hx
  split at hx
  · cases hx
    exact h.setMem (wf_writeBytes _ h.1.memWf _ _) (writeBytes_bounded _ h.1.memBound _ _)
  · cases hx

theorem State.InvFor.inputInsn (h : s.InvFor c) {act : CoreAct} (hx : inputInsn act s = .next t) : t.InvFor c := by
  rcases inputInsn_next hx with hf | ⟨bytes, u, hf, rfl⟩
  · exact h.fetchInsn_trap hf
  · have hu := h.fetchInsn_ok hf
    split
    · exact hu.advance.coreAct act
    · exact hu.coreAct act

theorem State.InvFor.runInput (h : s.InvFor c) {e : Input} (hx : runInput e s = .next t) : t.InvFor c := by
  cases e with
  | load ea n dest => exact h.dataAccess (fun parts _ hu => hu.loadAct dest parts) hx
  | store ea bytes => exact h.dataAccess (fun parts _ hu => hu.storeAct bytes parts) hx
  | reload x ea => exact h.inputReload hx
  | historyRead x k a d => cases hx; exact h.inputHistoryRead x k a d
  | historyWrite x k => cases hx; exact h.inputHistoryWrite x k
  | foreignWrite a bytes => exact h.inputForeignWrite hx
  | insn act => exact h.inputInsn hx
  | core act => cases hx; exact h.coreAct act

theorem State.InvFor.step (h : s.InvFor c) (hx : step s = .next t) : t.InvFor c := by
  rcases step_next hx with ⟨e, rest, -, hr⟩ | ⟨-, hf⟩ | ⟨-, bytes, u, i, rest, hf, -, he⟩
  · exact (h.setOutside s.bus rest s.draws).runInput hr
  · exact h.fetchInsn_trap hf
  · exact (h.fetchInsn_ok hf).exec he

end Keeps

/-- Settles O56: `State.InvFor` of the configuration before the step holds of the state after it. -/
theorem stepKeepsInvariant : Obligations.StepKeepsInvariant := by
  intro s t hs hstep
  exact State.InvFor.step (c := s.cfg) ⟨hs, rfl⟩ hstep

end Sys2Proof.Machine
end

section
/-! PROOFS. What a store writes and a load delivers (O50, O51), and which step ends in a fault (O58). -/

namespace Sys2Proof.Machine

/-! ### What the fetch and the translation of a data access leave as it was -/

section Frame
variable {s u w : State} {b : List Byte} {store : Bool} {ea : Ea} {n : Nat}

/-- A fetch that goes through changes the instruction half, the free values and the bus record only. -/
theorem fetchInsn_ok_frame (h : fetchInsn s = .ok b u) :
    u = { s with immu := u.immu, draws := u.draws, bus := u.bus } := by
  obtain ⟨-, pa, at', v, hv, -, rfl⟩ := fetchInsn_ok h
  rcases iTranslate_ok hv with ⟨-, m, k, rfl, -⟩ | ⟨-, rfl, -⟩ <;> rfl

/-- What the rest of a load or a store reads is as it was before its fetch. -/
theorem fetched_access_frame {rest : List Input} {parts : List Part}
    (hf : fetchInsn { s with inbox := rest } = .ok b u) (ha : translateAccess store ea n u = .ok parts w) :
    w.cfg = s.cfg ∧ w.gpr = s.gpr ∧ w.mem = s.mem := by
  rw [translateAccess_ok ha, fetchInsn_ok_frame hf]
  exact ⟨rfl, rfl, rfl⟩

/-- A data access whose fetch and whose translation go through does what it is for, and the next instruction follows. -/
theorem dataAccess_of_ok {act : List Part → State → State} {parts : List Part} (hf : fetchInsn s = .ok b u)
    (ha : translateAccess store ea n u = .ok parts w) :
    dataAccess store ea n act s = .next (advance (act parts w)) := by
  simp only [dataAccess, hf, ha]

theorem translateAccess_of_onePage {pa : Pa} {at' : Attrs} (h : inOnePage ea n = true)
    (hd : dTranslate store ea s = .ok (pa, at') w) :
    translateAccess store ea n s =
      .ok [{ ea := truncEa s.cfg.eaBits ea, pa := pa, attrs := at', size := n }] w := by
  rw [translateAccess_onePage h, hd]

end Frame

/-! ### The parts of an access hold all its bytes (R144) -/

/-- The bytes that the parts of an access hold. -/
def partsSize (parts : List Part) : Nat := (parts.map Part.size).sum

@[simp] theorem partsSize_nil : partsSize [] = 0 := rfl

@[simp] theorem partsSize_cons (p : Part) (parts : List Part) : partsSize (p :: parts) = p.size + partsSize parts := by
  simp [partsSize]

/-- Cutting an access at the page ends loses no byte: what is left after the first page is what the rest holds. -/
theorem pageParts_size (fuel : Nat) (ea : Ea) (n : Nat) : ((pageParts fuel ea n).map Prod.snd).sum = n := by
  induction fuel generalizing ea n with
  | zero => simp [pageParts]
  | succ fuel ih =>
    unfold pageParts
    split
    · simp
    · next hpage =>
      have hcross : 2 ^ 13 < (ea.extractLsb' 0 13).toNat + n := by simpa [inOnePage] using hpage
      simp only [List.map_cons, List.sum_cons, ih]
      omega

theorem translateParts_size {store : Bool} {l : List (Ea × Nat)} {s w : State} {parts : List Part}
    (h : translateParts store l s = .ok parts w) : partsSize parts = (l.map Prod.snd).sum := by
  induction l generalizing s parts with
  | nil => cases h; rfl
  | cons q l ih =>
    simp only [translateParts] at h
    split at h
    · cases h
    · cases h
    · next pa at' v hv =>
      split at h
      · cases h
      · cases h
      · next parts' u hu =>
        cases h
        simp [ih hu]

theorem translateAccess_size {store : Bool} {ea : Ea} {n : Nat} {s w : State} {parts : List Part}
    (h : translateAccess store ea n s = .ok parts w) : partsSize parts = n := by
  unfold translateAccess at h
  split at h
  · simp [translateParts_size h]
  · rw [translateParts_size h, accessParts]
    split
    · simp
    · exact pageParts_size n ea n

/-! ### The address of each byte -/

section ByteAddress
variable {c : Config} {p : Part} {rest parts : List Part} {k : Nat}

/-- A byte of the first part. -/
theorem byteAddress_first (hk : k < p.size) : byteAddress c (p :: rest) k = some (physAddr c (p.pa.toNat + k)) := by
  simp [byteAddress, hk, physAddr]

/-- A byte of a later part. -/
theorem byteAddress_later (c : Config) (p : Part) (rest : List Part) (k : Nat) :
    byteAddress c (p :: rest) (p.size + k) = byteAddress c rest k := by
  simp [byteAddress]

theorem byteAddress_isSome (hk : k < partsSize parts) : ∃ x, byteAddress c parts k = some x := by
  induction parts generalizing k with
  | nil => simp at hk
  | cons p rest ih =>
    by_cases hfirst : k < p.size
    · exact ⟨_, byteAddress_first hfirst⟩
    · obtain ⟨j, rfl⟩ := Nat.exists_eq_add_of_le (Nat.not_lt.1 hfirst)
      rw [byteAddress_later]
      exact ih (by simpa using hk)

end ByteAddress

/-! ### Memory after a store -/

section StoreMem
variable {c : Config} {m : Memory}

/-- Where several bytes of one part fall on one address (R125: addresses count modulo 2^PA_BITS), the last stays. -/
theorem read_writeBytes_last (hm : m.wf = true) {a k : Nat} {bs : List Byte} (hk : k < bs.length)
    (hlast : ∀ j, k < j → j < bs.length → physAddr c (a + j) ≠ physAddr c (a + k)) :
    (writeBytes c m a bs).read (physAddr c (a + k)) = bs[k] := by
  induction bs generalizing m a k with
  | nil => simp at hk
  | cons b bs ih =>
    simp only [writeBytes]
    cases k with
    | zero =>
      rw [read_writeBytes_outside c (wf_write hm _ _), read_write hm]
      · simp
      · intro j hj heq
        refine hlast (j + 1) (by omega) (by simpa using hj) ?_
        rw [heq, Nat.add_right_comm, Nat.add_assoc]
    | succ k =>
      have hshift : ∀ j, a + (j + 1) = a + 1 + j := fun j => by omega
      rw [hshift k]
      refine ih (wf_write hm _ _) (by simpa using hk) fun j hkj hj => ?_
      rw [← hshift j, ← hshift k]
      exact hlast (j + 1) (by omega) (by simpa using hj)

/-- A store leaves every byte that is no byte of its parts alone. -/
theorem read_storeMem_outside (hm : m.wf = true) {parts : List Part} {bytes : List Byte} {x : Nat}
    (hx : ∀ k, k < bytes.length → byteAddress c parts k ≠ some x) :
    (storeMem c m (splitBytes parts bytes)).read x = m.read x := by
  induction parts generalizing m bytes with
  | nil => rfl
  | cons p rest ih =>
    simp only [splitBytes, storeMem]
    rw [ih (wf_writeBytes c hm _ _), read_writeBytes_outside c hm]
    · intro k hk heq
      rw [List.length_take] at hk
      exact hx k (by omega) (by rw [byteAddress_first (by omega), heq])
    · intro k hk
      rw [List.length_drop] at hk
      rw [← byteAddress_later c p]
      exact hx (p.size + k) (by omega)

/-- Where two bytes of a store fall on one address, the later stays; so a byte that no later one falls on is there. -/
theorem read_storeMem_last (hm : m.wf = true) {parts : List Part} {bytes : List Byte} {k x : Nat}
    (hk : k < bytes.length) (hx : byteAddress c parts k = some x)
    (hlast : ∀ j, k < j → j < bytes.length → byteAddress c parts j ≠ some x) :
    (storeMem c m (splitBytes parts bytes)).read x = bytes[k] := by
  induction parts generalizing m bytes k with
  | nil => cases hx
  | cons p rest ih =>
    simp only [splitBytes, storeMem]
    have hlater : ∀ j, k < p.size + j → j < (bytes.drop p.size).length → byteAddress c rest j ≠ some x := by
      intro j hkj hj
      rw [List.length_drop] at hj
      rw [← byteAddress_later c p]
      exact hlast (p.size + j) hkj (by omega)
    by_cases hfirst : k < p.size
    · obtain rfl : physAddr c (p.pa.toNat + k) = x := by simpa [byteAddress_first hfirst] using hx
      have hk' : k < (bytes.take p.size).length := by rw [List.length_take]; omega
      rw [read_storeMem_outside (wf_writeBytes c hm _ _) fun j hj => hlater j (by omega) hj,
        read_writeBytes_last hm hk', List.getElem_take]
      intro j hkj hj heq
      rw [List.length_take] at hj
      exact hlast j hkj (by omega) (by rw [byteAddress_first (by omega), heq])
    · obtain ⟨i, rfl⟩ := Nat.exists_eq_add_of_le (Nat.not_lt.1 hfirst)
      rw [byteAddress_later] at hx
      have hi : i < (bytes.drop p.size).length := by rw [List.length_drop]; omega
      rw [ih (wf_writeBytes c hm _ _) hi hx fun j hij hj => hlater j (by omega) hj, List.getElem_drop]

/-- The bytes of a stretch no longer than physical memory have addresses apart. -/
theorem physAddr_add_inj {a i j n : Nat} (hn : n ≤ 2 ^ c.paBits) (hi : i < n) (hj : j < n)
    (h : physAddr c (a + i) = physAddr c (a + j)) : i = j := by
  have hmod : i ≡ j [MOD 2 ^ c.paBits] := Nat.ModEq.add_left_cancel' a h
  exact hmod.eq_of_lt_of_lt (by omega) (by omega)

end StoreMem

section Store
variable {s u w : State} {b bytes : List Byte} {ea : Ea} {rest : List Input} {parts : List Part}

theorem step_store (hf : fetchInsn { s with inbox := rest } = .ok b u)
    (ha : translateAccess true ea bytes.length u = .ok parts w) :
    step { s with inbox := .store ea bytes :: rest } = .next (advance (storeAct bytes parts w)) :=
  dataAccess_of_ok hf ha

/-- A store whose parts are translated, however many they are. -/
theorem step_store_parts (hm : s.mem.wf = true) (hf : fetchInsn { s with inbox := rest } = .ok b u)
    (ha : translateAccess true ea bytes.length u = .ok parts w) :
    ∃ t, step { s with inbox := .store ea bytes :: rest } = .next t ∧ t.gpr = s.gpr ∧
      (∀ k (hk : k < bytes.length) (x : Nat), byteAddress s.cfg parts k = some x →
        (∀ j, k < j → j < bytes.length → byteAddress s.cfg parts j ≠ some x) → t.mem.read x = bytes[k]) ∧
      (∀ x, (∀ k, k < bytes.length → byteAddress s.cfg parts k ≠ some x) → t.mem.read x = s.mem.read x) := by
  obtain ⟨hcfg, hgpr, hmem⟩ := fetched_access_frame hf ha
  have hread : (advance (storeAct bytes parts w)).mem = storeMem s.cfg s.mem (splitBytes parts bytes) := by
    simp only [advance_mem, storeAct, hcfg, hmem]
  refine ⟨_, step_store hf ha, hgpr, fun k hk x hx hlast => ?_, fun x hx => ?_⟩
  · rw [hread]; exact read_storeMem_last hm hk hx hlast
  · rw [hread]; exact read_storeMem_outside hm hx

end Store

/-- Settles O50. In one page no two bytes meet, physical memory being no smaller than a page; elsewhere the last byte at an
address stays. -/
theorem storeWritesItsBytes : Obligations.StoreWritesItsBytes := by
  intro s u w b bytes ea rest hs hf
  refine ⟨fun pa at' hbits hpage hd => ?_, fun parts ha => ?_⟩
  · obtain ⟨t, hstep, hgpr, hlast, hout⟩ := step_store_parts hs.memWf hf (translateAccess_of_onePage hpage hd)
    have haddr : ∀ k, k < bytes.length → byteAddress s.cfg [⟨truncEa u.cfg.eaBits ea, pa, at', bytes.length⟩] k =
        some (physAddr s.cfg (pa.toNat + k)) := fun k hk => byteAddress_first hk
    have hlen : bytes.length ≤ 2 ^ s.cfg.paBits := by
      have hfit : (ea.extractLsb' 0 13).toNat + bytes.length ≤ 2 ^ 13 := by simpa [inOnePage] using hpage
      have hpow : 2 ^ 13 ≤ 2 ^ s.cfg.paBits := Nat.pow_le_pow_right (by omega) hbits
      omega
    refine ⟨t, hstep, hgpr, fun k hk => hlast k hk _ (haddr k hk) fun j hkj hj heq => ?_, fun x hx => hout x ?_⟩
    · rw [haddr j hj] at heq
      have := physAddr_add_inj hlen hj hk (Option.some.inj heq)
      omega
    · intro k hk heq
      rw [haddr k hk] at heq
      exact hx k hk (Option.some.inj heq).symm
  · obtain ⟨t, hstep, hgpr, hlast, hout⟩ := step_store_parts hs.memWf hf ha
    exact ⟨t, hstep, hgpr, fun k hk => byteAddress_isSome (by rwa [translateAccess_size ha]), hlast, hout⟩

/-! ### What a load delivers -/

@[simp] theorem length_readBytes (c : Config) (m : Memory) (a n : Nat) : (readBytes c m a n).length = n := by
  induction n generalizing a with
  | zero => rfl
  | succ n ih => simp [readBytes, ih]

theorem getElem_readBytes (c : Config) (m : Memory) (a n k : Nat) (hk : k < (readBytes c m a n).length) :
    (readBytes c m a n)[k] = m.read (physAddr c (a + k)) := by
  induction n generalizing a k with
  | zero => simp [readBytes] at hk
  | succ n ih =>
    cases k with
    | zero => simp [readBytes]
    | succ k => simp [readBytes, ih, Nat.add_comm, Nat.add_left_comm]

section LoadAct
variable (dest : Option (BitVec 5 × Ea)) (parts : List Part) (s : State)

@[simp] theorem loadAct_mem : (loadAct dest parts s).mem = s.mem := by rw [loadAct_eq]

@[simp] theorem loadAct_bus : (loadAct dest parts s).bus = loadBus s.cfg s.mem parts := by rw [loadAct_eq]

theorem loadAct_gpr_none : (loadAct none parts s).gpr = s.gpr := rfl

theorem loadAct_gpr_some (r : BitVec 5) (v : Ea) :
    (loadAct (some (r, v)) parts s).gpr = fileSet s.gpr r (truncEa s.cfg.eaBits v) := rfl

end LoadAct

theorem step_load {s u w : State} {b : List Byte} {ea : Ea} {n : Nat} {dest : Option (BitVec 5 × Ea)}
    {rest : List Input} {parts : List Part} (hf : fetchInsn { s with inbox := rest } = .ok b u)
    (ha : translateAccess false ea n u = .ok parts w) :
    step { s with inbox := .load ea n dest :: rest } = .next (advance (loadAct dest parts w)) :=
  dataAccess_of_ok hf ha

/-- Settles O51: the fetch and the translation leave memory and the general registers, so the bytes are those of s. -/
theorem loadDeliversBytes : Obligations.LoadDeliversBytes := by
  intro s u w b ea n dest rest hf
  refine ⟨fun pa at' hpage hd => ?_, fun parts ha => ?_⟩
  · have hcfg : u.cfg = s.cfg := by rw [fetchInsn_ok_frame hf]
    rw [translateAccess_of_onePage hpage hd, hcfg]
  · obtain ⟨hcfg, hgpr, hmem⟩ := fetched_access_frame hf ha
    have hbus : (advance (loadAct dest parts w)).bus = loadBus s.cfg s.mem parts := by
      rw [advance_bus, loadAct_bus, hcfg, hmem]
    refine ⟨_, step_load hf ha, ?_, ?_, ?_, ?_, fun i hi => ?_⟩
    · rw [advance_mem, loadAct_mem, hmem]
    · rintro rfl
      rw [advance_gpr, loadAct_gpr_none, hgpr]
    · rintro r v rfl
      rw [advance_gpr, loadAct_gpr_some, hgpr, hcfg]
    · rw [hbus, loadBus, List.length_map]
    · refine ⟨readBytes s.cfg s.mem parts[i].pa.toNat parts[i].size, ?_, length_readBytes _ _ _ _,
        fun k hk => getElem_readBytes _ _ _ _ _ hk⟩
      rw [hbus, loadBus, List.getElem?_map, List.getElem?_eq_getElem hi, Option.map_some]

/-! ### Which step ends in a fault -/

section Faults
variable {s : State} {f : Fault}

theorem userSprAccess_no_fault : userSprAccess s ≠ .fault f := by
  unfold userSprAccess
  split <;> simp

theorem execMfspr_no_fault {d a : BitVec 5} {k : BitVec 16} : execMfspr d a k s ≠ .fault f := by
  unfold execMfspr
  split
  · simp
  · split
    · exact userSprAccess_no_fault
    · simp

theorem execMtspr_no_fault {a b : BitVec 5} {k : BitVec 16} : execMtspr a b k s ≠ .fault f := by
  unfold execMtspr
  split
  · simp
  · simp
  · split
    · exact userSprAccess_no_fault
    · simp

theorem exec_no_fault (i : Instr) : exec i s ≠ .fault f := by
  cases i with
  | mfspr d a k => exact execMfspr_no_fault
  | mtspr a b k => exact execMtspr_no_fault

theorem inputReload_no_fault {x : Side} {ea : Ea} : inputReload x ea s ≠ .fault f := by
  unfold inputReload
  split
  · cases x with
    | d => simp only; split <;> simp
    | i => simp only; split <;> simp
  · simp

theorem inputForeignWrite_fault {a : Nat} {bytes : List Byte} (h : inputForeignWrite a bytes s = .fault f) :
    2 ^ s.cfg.paBits < a + bytes.length := by
  unfold inputForeignWrite at h
  split at h
  · cases h
  · omega

/-- The one input that can fault is a write of another processor outside the physical address space (R80). -/
theorem runInput_fault {e : Input} (h : runInput e s = .fault f) :
    ∃ a bytes, e = .foreignWrite a bytes ∧ 2 ^ s.cfg.paBits < a + bytes.length := by
  cases e with
  | foreignWrite a bytes => exact ⟨a, bytes, rfl, inputForeignWrite_fault h⟩
  | load ea n dest => exact absurd h dataAccess_no_fault
  | store ea bytes => exact absurd h dataAccess_no_fault
  | reload x ea => exact absurd h inputReload_no_fault
  | insn act => exact absurd h inputInsn_no_fault
  | historyRead x k a d => cases h
  | historyWrite x k => cases h
  | core act => cases h

/-- With no input left, a step is the fetch and the decoded instruction, and neither faults. -/
theorem step_no_fault_of_inbox_nil (hi : s.inbox = []) : step s ≠ .fault f := by
  unfold step
  rw [hi]
  simp only
  split
  · simp
  · simp
  · split
    · simp
    · exact exec_no_fault _

end Faults

/-- Settles O58, by the input that the step runs. -/
theorem onlyForeignWritesFault : Obligations.OnlyForeignWritesFault := by
  intro s f hstep
  cases hi : s.inbox with
  | nil => exact absurd hstep (step_no_fault_of_inbox_nil hi)
  | cons e rest =>
    have hrun : runInput e { s with inbox := rest } = .fault f := by simpa only [step, hi] using hstep
    obtain ⟨a, bytes, rfl, hlt⟩ := runInput_fault hrun
    exact ⟨a, bytes, rest, rfl, hlt⟩

end Sys2Proof.Machine
end

section
/-! PROOFS. What the implementation lacks: no step changes an absent entry (O57), and a write of an absent register is
ignored (O22). -/

namespace Sys2Proof.Machine

/-! ### Every update of one half leaves the absent entries -/

section Half
variable {P : Type} {mc : MmuConfig} {m m' m'' : Mmu P}

/-- The two halves agree in every TLB and ATB entry that an implementation with parameters mc lacks (R26). -/
structure Mmu.SameAbsent (mc : MmuConfig) (m m' : Mmu P) : Prop where
  tlb : ∀ y k, ¬(EntryRef.tlb y k).implemented mc → m'.entry y k = m.entry y k
  atb : ∀ i, ¬(EntryRef.atb i).implemented mc → fileGet m'.atb i = fileGet m.atb i

/-- What leaves both files of entries as they are. -/
theorem Mmu.SameAbsent.of_files_eq (htlb : m'.tlb = m.tlb) (hatb : m'.atb = m.atb) : m.SameAbsent mc m' :=
  ⟨fun y k _ => by simp only [Mmu.entry, htlb], fun i _ => by rw [hatb]⟩

theorem Mmu.SameAbsent.refl (mc : MmuConfig) (m : Mmu P) : m.SameAbsent mc m := .of_files_eq rfl rfl

theorem Mmu.SameAbsent.trans (h : m.SameAbsent mc m') (h' : m'.SameAbsent mc m'') : m.SameAbsent mc m'' :=
  ⟨fun y k hn => (h'.tlb y k hn).trans (h.tlb y k hn), fun i hn => (h'.atb i hn).trans (h.atb i hn)⟩

theorem setEntry_sameAbsent {y : BitVec 2} {k : BitVec 7} (hr : (EntryRef.tlb y k).implemented mc) (e : TlbEntry P) :
    m.SameAbsent mc (m.setEntry y k e) := by
  refine ⟨fun y' k' hn => ?_, fun i _ => rfl⟩
  have hne : ¬(y = y' ∧ k = k') := by
    rintro ⟨rfl, rfl⟩
    exact hn hr
  rw [entry_setEntry, if_neg hne]

theorem setAtb_sameAbsent {i : BitVec 2} (hr : (EntryRef.atb i).implemented mc) (e : AtbEntry P) :
    m.SameAbsent mc (m.setAtb i e) := by
  refine ⟨fun y k _ => rfl, fun j hn => ?_⟩
  have hne : i ≠ j := by
    rintro rfl
    exact hn hr
  rw [atb_setAtb, if_neg hne]

theorem setTr_sameAbsent {r : EntryRef} (hr : r.implemented mc) (t : TransReg P) : m.SameAbsent mc (m.setTr r t) := by
  cases r with
  | tlb y k => exact setEntry_sameAbsent hr _
  | atb i => exact setAtb_sameAbsent hr _

theorem mapTlb_sameAbsent {f : BitVec 2 → BitVec 7 → TlbEntry P → TlbEntry P}
    (hf : ∀ y k e, ¬(EntryRef.tlb y k).implemented mc → f y k e = e) : m.SameAbsent mc (m.mapTlb f) :=
  ⟨fun y k hn => by rw [entry_mapTlb, hf y k _ hn], fun i _ => by rw [mapTlb_atb]⟩

/-- The set that an address selects is one the implementation has, so the ways it has there are implemented. -/
theorem tlb_implemented_of_index (hs : 1 ≤ mc.sets) {e : PageEa} {y : BitVec 2} {k : BitVec 7}
    (hk : k = tlbIndex mc e) (hy : y.toNat < mc.ways) : (EntryRef.tlb y k).implemented mc :=
  ⟨hy, hk ▸ tlbIndex_lt hs⟩

theorem redrawLru_sameAbsent (hs : 1 ≤ mc.sets) (e : PageEa) (free : BitVec 64) :
    m.SameAbsent mc (m.redrawLru mc.ways (tlbIndex mc e) free) :=
  mapTlb_sameAbsent fun _ _ _ hn => if_neg fun ⟨hk, hy⟩ => hn (tlb_implemented_of_index hs hk hy)

theorem invalidate_sameAbsent (hs : 1 ≤ mc.sets) (c : Config) (e : PageEa) (free : BitVec 64) :
    m.SameAbsent mc (m.invalidate c mc e free) :=
  mapTlb_sameAbsent fun _ _ _ hn => if_neg fun ⟨hk, hy, _⟩ => hn (tlb_implemented_of_index hs hk hy)

theorem flush_sameAbsent : m.SameAbsent mc (m.flush mc) := mapTlb_sameAbsent fun _ _ _ hn => if_neg hn

/-- The control and protection registers are no part of an entry. -/
theorem setControl_sameAbsent (tf : Bool) (ptbp : BitVec 22) (pr : Vector P 7) :
    m.SameAbsent mc { m with tf := tf, ptbp := ptbp, pr := pr } := .of_files_eq rfl rfl

theorem writeCr_sameAbsent (p : CrPos) (w : Word) : m.SameAbsent mc (m.writeCr mc p w) := by
  have hptbp : m.SameAbsent mc (if mc.ptbpImpl then { m with ptbp := getField 22 w p.ptbp } else m) := by
    split
    · exact setControl_sameAbsent _ _ _
    · exact .refl mc m
  unfold Mmu.writeCr
  simp only
  split
  · exact (hptbp.trans flush_sameAbsent).trans (setControl_sameAbsent _ _ _)
  · exact hptbp

theorem owe_sameAbsent (r : EntryRef) (a d : Bool) : m.SameAbsent mc (m.owe r a d) :=
  .of_files_eq (owe_tlb ..) (owe_atb ..)

theorem readHist_sameAbsent (c : Config) (mem : Memory) (k : Nat) (a d : Bool) :
    m.SameAbsent mc (m.readHist c mem k a d) := by
  rcases readHist_cases (c := c) (mem := mem) (k := k) (a := a) (d := d) (m := m) with heq | ⟨o, -, -, heq⟩
  · rw [heq]; exact .refl mc m
  · rw [heq]; exact .of_files_eq rfl rfl

theorem eraseHist_sameAbsent (k : Nat) : m.SameAbsent mc { m with hist := m.hist.eraseIdx k } := .of_files_eq rfl rfl

end Half

section Reload
variable {P : Type} {c : Config} {x : Side} {m m' : Mmu P} {mem : Memory} {cid : BitVec 4}

/-- A reload replaces an entry that the implementation has (R113). -/
theorem install_sameAbsent (hs : 1 ≤ (c.mmu x).sets) {e : PageEa} {pte : Pte} {level : PageLevel} {pa : Nat}
    {free : BitVec 64} {r : EntryRef} (h : install c x m cid e pte level pa free = some (m', r)) :
    m.SameAbsent (c.mmu x) m' := by
  have hr := install_implemented hs h
  rcases install_cases h with ⟨-, -, heq⟩ | ⟨-, -, heq⟩
  · obtain ⟨rfl, rfl⟩ := Prod.mk.inj heq
    exact setEntry_sameAbsent hr _
  · obtain ⟨rfl, rfl⟩ := Prod.mk.inj heq
    exact setAtb_sameAbsent hr _

theorem reloadHalf_sameAbsent (hs : 1 ≤ (c.mmu x).sets) {ea : Ea} {draws : Nat}
    (h : reloadHalf c x mem cid ea draws m = .ok m') : m.SameAbsent (c.mmu x) m' := by
  rcases reloadHalf_ok h with rfl | ⟨pte, level, pa, r, -, hi⟩
  · exact .refl _ _
  · exact install_sameAbsent hs hi

theorem translate_sameAbsent (hs : 1 ≤ (c.mmu x).sets) {store : Bool} {ok : P → Bool} {ea : Ea} {draws : Nat} :
    (∀ m' k pa at', translate c x store ok mem cid ea m draws = .done m' k pa at' → m.SameAbsent (c.mmu x) m') ∧
    (∀ m' k f, translate c x store ok mem cid ea m draws = .raise m' k f → m.SameAbsent (c.mmu x) m') :=
  translate_keeps (m.SameAbsent (c.mmu x)) hs
    (fun _ _ _ _ _ _ _ _ h1 _ hi => h1.trans (install_sameAbsent hs hi))
    (fun _ r a d h1 _ => h1.trans (owe_sameAbsent r a d))
    (fun _ _ h1 hr => h1.trans (setTr_sameAbsent hr _))
    (fun _ _ _ h1 hr => h1.trans (setTr_sameAbsent hr _))
    (fun _ e free h1 => h1.trans (redrawLru_sameAbsent hs e free)) (.refl _ m)

end Reload

/-! ### Every update of the state leaves the absent entries -/

/-- State t is of the same well-formed configuration as s₀, and agrees with it in every entry that is absent there. -/
structure State.SameAbsent (s₀ t : State) : Prop where
  wf : t.cfg.wf = true
  cfg : t.cfg = s₀.cfg
  dmmu : s₀.dmmu.SameAbsent t.cfg.d t.dmmu
  immu : s₀.immu.SameAbsent t.cfg.i t.immu

section Keeps
variable {s₀ s t : State}

theorem State.SameAbsent.refl (hwf : s.cfg.wf = true) : s.SameAbsent s := ⟨hwf, rfl, .refl _ _, .refl _ _⟩

theorem State.SameAbsent.sets_pos (h : s₀.SameAbsent s) (x : Side) : 1 ≤ (s.cfg.mmu x).sets :=
  MmuConfig.wf_sets_pos (Config.wf_mmu h.wf x)

/-- What leaves the configuration and both halves of the MMU as they are. -/
theorem State.SameAbsent.of_mmu_eq (h : s₀.SameAbsent s) (hcfg : t.cfg = s.cfg) (hd : t.dmmu = s.dmmu)
    (hi : t.immu = s.immu) : s₀.SameAbsent t :=
  ⟨hcfg ▸ h.wf, hcfg ▸ h.cfg, hcfg ▸ hd ▸ h.dmmu, hcfg ▸ hi ▸ h.immu⟩

theorem State.SameAbsent.setDmmu (h : s₀.SameAbsent s) {m : Mmu DProt} (hm : s.dmmu.SameAbsent s.cfg.d m)
    (draws : Nat) : s₀.SameAbsent { s with dmmu := m, draws := draws } :=
  { h with dmmu := h.dmmu.trans hm }

theorem State.SameAbsent.setImmu (h : s₀.SameAbsent s) {m : Mmu IProt} (hm : s.immu.SameAbsent s.cfg.i m)
    (draws : Nat) : s₀.SameAbsent { s with immu := m, draws := draws } :=
  { h with immu := h.immu.trans hm }

theorem State.SameAbsent.coreAct (h : s₀.SameAbsent s) (act : CoreAct) : s₀.SameAbsent (coreAct act s) := by
  rw [coreAct_eq]
  exact h.of_mmu_eq rfl rfl rfl

/-! ### The two instructions -/

theorem tlb_implemented_of_register {c : Config} {r : Spr} {x : Side} {y : BitVec 2} {k : BitVec 7}
    (hr : r = .tlbmr x y k ∨ r = .tlbtr x y k) (h : r.implemented c = true) :
    (EntryRef.tlb y k).implemented (c.mmu x) := by
  rcases hr with rfl | rfl <;> simpa [Spr.implemented, EntryRef.implemented] using h

theorem atb_implemented_of_register {c : Config} {r : Spr} {x : Side} {i : BitVec 2}
    (hr : r = .atbmr x i ∨ r = .atbtr x i) (h : r.implemented c = true) : (EntryRef.atb i).implemented (c.mmu x) := by
  rcases hr with rfl | rfl <;> simpa [Spr.implemented, EntryRef.implemented] using h

/-- A register that the implementation has is a register of an entry that it has. -/
theorem State.SameAbsent.sprStore (h : s₀.SameAbsent s) {r : Spr} (hr : r.implemented s.cfg = true) (v : Ea) :
    s₀.SameAbsent (sprStore r v s) := by
  cases r with
  | mmucr x =>
    cases x
    · exact h.setDmmu (writeCr_sameAbsent _ _) _
    · exact h.setImmu (writeCr_sameAbsent _ _) _
  | mmupr x =>
    cases x
    · exact h.setDmmu (setControl_sameAbsent _ _ _) _
    · exact h.setImmu (setControl_sameAbsent _ _ _) _
  | tlbeir x =>
    cases x
    · exact h.setDmmu (invalidate_sameAbsent (h.sets_pos .d) _ _ _) _
    · exact h.setImmu (invalidate_sameAbsent (h.sets_pos .i) _ _ _) _
  | atbmr x i =>
    have he := atb_implemented_of_register (.inl rfl) hr
    cases x
    · exact h.setDmmu (setAtb_sameAbsent he _) _
    · exact h.setImmu (setAtb_sameAbsent he _) _
  | atbtr x i =>
    have he := atb_implemented_of_register (.inr rfl) hr
    cases x
    · exact h.setDmmu (setAtb_sameAbsent he _) _
    · exact h.setImmu (setAtb_sameAbsent he _) _
  | tlbmr x y k =>
    have he := tlb_implemented_of_register (.inl rfl) hr
    cases x
    · exact h.setDmmu (setEntry_sameAbsent he _) _
    · exact h.setImmu (setEntry_sameAbsent he _) _
  | tlbtr x y k =>
    have he := tlb_implemented_of_register (.inr rfl) hr
    cases x
    · exact h.setDmmu (setEntry_sameAbsent he _) _
    · exact h.setImmu (setEntry_sameAbsent he _) _
  | mmucfgr x => exact h

/-- A write of a register of an absent entry is ignored (D22), and a write of any other reaches no absent entry. -/
theorem State.SameAbsent.sprWrite (h : s₀.SameAbsent s) (r : Spr) (v : Ea) : s₀.SameAbsent (sprWrite r v s) := by
  cases hr : r.implemented s.cfg with
  | false =>
    rw [sprWrite_unimplemented r v s hr]
    exact h
  | true =>
    rw [sprWrite_implemented r v s hr]
    exact h.sprStore hr v

theorem State.SameAbsent.exec (h : s₀.SameAbsent s) {i : Instr} (he : exec i s = .next t) : s₀.SameAbsent t := by
  cases i with
  | mfspr d a k =>
    obtain ⟨r, -, ⟨-, rfl⟩ | ⟨-, v, -, rfl⟩⟩ := execMfspr_next he
    · exact h.of_mmu_eq rfl rfl rfl
    · exact h.of_mmu_eq rfl rfl rfl
  | mtspr a b k =>
    obtain ⟨r, -, -, ⟨-, rfl⟩ | ⟨-, v, -, rfl⟩⟩ := execMtspr_next he
    · exact (h.sprWrite r (readGpr s b)).of_mmu_eq rfl rfl rfl
    · exact h.of_mmu_eq rfl rfl rfl

/-! ### Accesses -/

theorem State.SameAbsent.dTranslate_ok (h : s₀.SameAbsent s) {store : Bool} {ea : Ea} {p : Pa × Attrs}
    (hx : dTranslate store ea s = .ok p t) : s₀.SameAbsent t := by
  rcases Machine.dTranslate_ok hx with ⟨-, m, k, rfl, hm⟩ | ⟨-, rfl, -⟩
  · exact h.setDmmu ((translate_sameAbsent (h.sets_pos .d)).1 _ _ _ _ hm) _
  · exact h.of_mmu_eq rfl rfl rfl

theorem State.SameAbsent.dTranslate_trap (h : s₀.SameAbsent s) {store : Bool} {ea : Ea}
    (hx : dTranslate store ea s = .trap t) : s₀.SameAbsent t := by
  obtain ⟨-, m, k, f, rfl, hm⟩ := Machine.dTranslate_trap hx
  exact (h.setDmmu ((translate_sameAbsent (h.sets_pos .d)).2 _ _ _ hm) k).of_mmu_eq rfl rfl rfl

theorem State.SameAbsent.fetchInsn_ok (h : s₀.SameAbsent s) {bytes : List Byte} (hx : fetchInsn s = .ok bytes t) :
    s₀.SameAbsent t := by
  obtain ⟨-, pa, at', u, hu, -, rfl⟩ := Machine.fetchInsn_ok hx
  rcases iTranslate_ok hu with ⟨-, m, k, rfl, hm⟩ | ⟨-, rfl, -⟩
  · exact (h.setImmu ((translate_sameAbsent (h.sets_pos .i)).1 _ _ _ _ hm) k).of_mmu_eq rfl rfl rfl
  · exact h.of_mmu_eq rfl rfl rfl

theorem State.SameAbsent.fetchInsn_trap (h : s₀.SameAbsent s) (hx : fetchInsn s = .trap t) : s₀.SameAbsent t := by
  obtain ⟨-, m, k, f, rfl, hm⟩ := iTranslate_trap (Machine.fetchInsn_trap hx)
  exact (h.setImmu ((translate_sameAbsent (h.sets_pos .i)).2 _ _ _ hm) k).of_mmu_eq rfl rfl rfl

theorem State.SameAbsent.translateAccess (h : s₀.SameAbsent s) {store : Bool} {ea : Ea} {n : Nat} :
    (∀ parts u, translateAccess store ea n s = .ok parts u → s₀.SameAbsent u) ∧
    ∀ u, translateAccess store ea n s = .trap u → s₀.SameAbsent u :=
  translateAccess_keeps s₀.SameAbsent s₀.SameAbsent (fun _ hu => hu.of_mmu_eq rfl rfl rfl)
    (fun _ _ _ _ hu hx => hu.dTranslate_ok hx) (fun _ _ _ hu hx => hu.dTranslate_trap hx) h

theorem State.SameAbsent.dataAccess (h : s₀.SameAbsent s) {store : Bool} {ea : Ea} {n : Nat}
    {act : List Part → State → State} (hact : ∀ parts u, s₀.SameAbsent u → s₀.SameAbsent (act parts u))
    (hx : dataAccess store ea n act s = .next t) : s₀.SameAbsent t := by
  rcases dataAccess_next hx with hf | ⟨bytes, u, hf, ha | ⟨parts, w, ha, rfl⟩⟩
  · exact h.fetchInsn_trap hf
  · exact (h.fetchInsn_ok hf).translateAccess.2 t ha
  · have hw := (h.fetchInsn_ok hf).translateAccess.1 parts w ha
    exact (hact parts w hw).of_mmu_eq rfl rfl rfl

theorem State.SameAbsent.storeAct (h : s₀.SameAbsent s) (bytes : List Byte) (parts : List Part) :
    s₀.SameAbsent (storeAct bytes parts s) :=
  h.of_mmu_eq rfl rfl rfl

theorem State.SameAbsent.loadAct (h : s₀.SameAbsent s) (dest : Option (BitVec 5 × Ea)) (parts : List Part) :
    s₀.SameAbsent (loadAct dest parts s) := by
  rw [loadAct_eq]
  exact h.of_mmu_eq rfl rfl rfl

/-! ### The other agents, and the step -/

theorem State.SameAbsent.inputReload (h : s₀.SameAbsent s) {x : Side} {ea : Ea} (hx : inputReload x ea s = .next t) :
    s₀.SameAbsent t := by
  rcases inputReload_next hx with ⟨-, rfl⟩ | ⟨-, ⟨-, m, hm, rfl⟩ | ⟨-, m, hm, rfl⟩⟩
  · exact h
  · exact h.setDmmu (reloadHalf_sameAbsent (h.sets_pos .d) hm) _
  · exact h.setImmu (reloadHalf_sameAbsent (h.sets_pos .i) hm) _

theorem State.SameAbsent.inputHistoryRead (h : s₀.SameAbsent s) (x : Side) (k : Nat) (a d : Bool) :
    s₀.SameAbsent (inputHistoryRead x k a d s) := by
  unfold Machine.inputHistoryRead
  split
  · cases x with
    | d => exact h.setDmmu (readHist_sameAbsent _ _ k a d) _
    | i => exact h.setImmu (readHist_sameAbsent _ _ k a d) _
  · exact h

theorem State.SameAbsent.inputHistoryWrite (h : s₀.SameAbsent s) (x : Side) (k : Nat) :
    s₀.SameAbsent (inputHistoryWrite x k s) := by
  unfold Machine.inputHistoryWrite
  split
  · cases x with
    | d => exact (h.setDmmu (eraseHist_sameAbsent k) s.draws).of_mmu_eq rfl rfl rfl
    | i => exact (h.setImmu (eraseHist_sameAbsent k) s.draws).of_mmu_eq rfl rfl rfl
  · exact h

theorem State.SameAbsent.inputForeignWrite (h : s₀.SameAbsent s) {a : Nat} {bytes : List Byte}
    (hx : inputForeignWrite a bytes s = .next t) : s₀.SameAbsent t := by
  unfold Machine.inputForeignWrite at hx
  split at hx
  · cases hx
    exact h.of_mmu_eq rfl rfl rfl
  · cases hx

theorem State.SameAbsent.inputInsn (h : s₀.SameAbsent s) {act : CoreAct} (hx : inputInsn act s = .next t) :
    s₀.SameAbsent t := by
  rcases inputInsn_next hx with hf | ⟨bytes, u, hf, rfl⟩
  · exact h.fetchInsn_trap hf
  · have hu := h.fetchInsn_ok hf
    split
    · exact (hu.of_mmu_eq (t := advance u) rfl rfl rfl).coreAct act
    · exact hu.coreAct act

theorem State.SameAbsent.runInput (h : s₀.SameAbsent s) {e : Input} (hx : runInput e s = .next t) :
    s₀.SameAbsent t := by
  cases e with
  | load ea n dest => exact h.dataAccess (fun parts _ hu => hu.loadAct dest parts) hx
  | store ea bytes => exact h.dataAccess (fun parts _ hu => hu.storeAct bytes parts) hx
  | reload x ea => exact h.inputReload hx
  | historyRead x k a d => cases hx; exact h.inputHistoryRead x k a d
  | historyWrite x k => cases hx; exact h.inputHistoryWrite x k
  | foreignWrite a bytes => exact h.inputForeignWrite hx
  | insn act => exact h.inputInsn hx
  | core act => cases hx; exact h.coreAct act

theorem State.SameAbsent.step (h : s₀.SameAbsent s) (hx : step s = .next t) : s₀.SameAbsent t := by
  rcases step_next hx with ⟨e, rest, -, hr⟩ | ⟨-, hf⟩ | ⟨-, bytes, u, i, rest, hf, -, he⟩
  · exact (h.of_mmu_eq (t := { s with inbox := rest }) rfl rfl rfl).runInput hr
  · exact h.fetchInsn_trap hf
  · exact (h.fetchInsn_ok hf).exec he

end Keeps

/-- Settles O57: the state agrees with itself in the absent entries, and a step keeps that agreement. -/
theorem absentEntriesNeverChange : Obligations.AbsentEntriesNeverChange := by
  intro s t hwf hstep
  have h : s.SameAbsent t := (State.SameAbsent.refl hwf).step hstep
  obtain ⟨htlbD, hatbD⟩ := h.cfg ▸ h.dmmu
  obtain ⟨htlbI, hatbI⟩ := h.cfg ▸ h.immu
  exact ⟨htlbD, htlbI, hatbD, hatbI⟩

/-! ### A write of an absent register -/

theorem sprOfNumber_ne_mmucfgr (x y : Side) (n : BitVec 11) : sprOfNumber x n ≠ some (.mmucfgr y) := by
  unfold sprOfNumber
  split_ifs <;> simp

/-- An address names a configuration register only where the implementation has it (R47). -/
theorem cfgrImpl_of_sprOf_mmucfgr {c : Config} {addr : BitVec 16} {x : Side} (h : sprOf c addr = some (.mmucfgr x)) :
    c.cfgrImpl = true := by
  unfold sprOf at h
  simp only at h
  split at h
  · exact absurd h (sprOfNumber_ne_mmucfgr _ _ _)
  · split at h
    · exact absurd h (sprOfNumber_ne_mmucfgr _ _ _)
    · split at h
      · next hc => exact hc.1
      · split at h
        · next hc => exact hc.1
        · cases h

/-- Settles O22: an absent register is no configuration register, so the write is done, and does nothing. -/
theorem mtsprUnimplementedIgnored : Obligations.MtsprUnimplementedIgnored := by
  intro s a b k x n r hmode _ hnames hr hun
  have haddr : sprOf s.cfg (sprAddress s a k) = some r := by
    rw [sprAddress, hnames, hr]
  have hne : ∀ y, r ≠ .mmucfgr y := by
    rintro y rfl
    exact Bool.false_ne_true (hun.symm.trans (cfgrImpl_of_sprOf_mmucfgr hr))
  calc exec (.mtspr a b k) s = .next (advance (sprWrite r (readGpr s b) s)) := execMtspr_supervisor haddr hne hmode
    _ = .next (advance s) := by rw [sprWrite_unimplemented _ _ _ hun]

end Sys2Proof.Machine
end

section
/-! PROOFS. What a read of a configuration register delivers (O14). -/

namespace Sys2Proof.Machine

/-- The fields of a configuration register that describe a half with parameters m (R47): NTW where there is a way, NTS
where the number of sets is a power of two. -/
structure DescribesHalf (m : MmuConfig) (v : Word) : Prop where
  ntw : m.ways ≠ 0 → (getField 2 v 0).toNat = m.ways - 1
  nts : ∀ n : Nat, m.sets = 2 ^ n → (getField 3 v 2).toNat = n
  nae : (getField 3 v 5).toNat = m.atbEntries
  cri : getBit v 8 = m.crImpl
  pri : getBit v 9 = m.prImpl
  teiri : getBit v 10 = m.eirImpl
  htr : getBit v 11 = m.hwReload

/-! ### The word of a configuration register, and its named bits -/

section View
variable {m : MmuConfig}

theorem cfgrView_ntw : getField 2 (cfgrView m).1 0 = BitVec.ofNat 2 (m.ways - 1) := by
  simp [cfgrView, getField_putField_self, getField_putField_outside, getField_putBit_outside]

theorem cfgrView_nts :
    getField 3 (cfgrView m).1 2 =
      BitVec.ofNat 3 (([1, 2, 4, 8, 16, 32, 64, 128].findIdx? (· == m.sets)).getD 0) := by
  simp [cfgrView, getField_putField_self, getField_putField_outside, getField_putBit_outside]

theorem cfgrView_nae : getField 3 (cfgrView m).1 5 = BitVec.ofNat 3 m.atbEntries := by
  simp [cfgrView, getField_putField_self, getField_putField_outside, getField_putBit_outside]

/-- The four bits that say what a half has. -/
theorem cfgrView_bits :
    getBit (cfgrView m).1 8 = m.crImpl ∧ getBit (cfgrView m).1 9 = m.prImpl ∧
      getBit (cfgrView m).1 10 = m.eirImpl ∧ getBit (cfgrView m).1 11 = m.hwReload := by
  simp [cfgrView, getBit_putBit_self, getBit_putBit_of_ne, getBit_putField_outside]

/-- NAE and the four bits that follow it are named in every configuration. -/
theorem cfgrView_mask :
    getField 3 (cfgrView m).2 5 = .allOnes 3 ∧ ∀ i, 8 ≤ i → i ≤ 11 → getBit (cfgrView m).2 i = true := by
  have hnae : getField 3 (putField 5 127#7) 5 = 7#3 := by decide
  refine ⟨by simp [cfgrView, getField_putField_outside, hnae], fun i h8 h11 => ?_⟩
  have hbit : getBit (putField 5 (BitVec.allOnes 7)) i = true := by
    rw [getBit, getLsbD_putField _ _ _ (by omega), BitVec.getLsbD_allOnes]
    simp only [Bool.and_eq_true, decide_eq_true_eq]
    omega
  simp only [cfgrView, getBit_or, hbit, Bool.or_true]

/-- NTW is named where there is a way. -/
theorem cfgrView_mask_ntw (hw : m.ways ≠ 0) : getField 2 (cfgrView m).2 0 = .allOnes 2 := by
  simp [cfgrView, hw, getField_putField_self, getField_putField_outside]

/-- NTS is named where the number of sets is a power of two. -/
theorem cfgrView_mask_nts (hs : ([1, 2, 4, 8, 16, 32, 64, 128].findIdx? (· == m.sets)).isSome) :
    getField 3 (cfgrView m).2 2 = .allOnes 3 := by
  simp only [cfgrView, hs, if_true]
  simp [getField_putField_self, getField_putField_outside]

end View

/-- The base-2 logarithm of a power of two that a number of sets may be. -/
theorem findIdx?_two_pow {n : Nat} (hn : n < 8) :
    [1, 2, 4, 8, 16, 32, 64, 128].findIdx? (· == 2 ^ n) = some n := by
  revert n
  decide

/-! ### The word that is read -/

/-- The bits outside the named fields are free, and the named fields describe the half. -/
theorem openWord_cfgrView_describes {m : MmuConfig} (hm : m.wf = true) (free : BitVec 64) :
    DescribesHalf m (openWord (cfgrView m).1 (cfgrView m).2 free) := by
  simp only [MmuConfig.wf, Bool.and_eq_true, decide_eq_true_eq] at hm
  obtain ⟨⟨⟨⟨⟨hways, -⟩, hsets⟩, hatb⟩, -⟩, -⟩ := hm
  obtain ⟨hnae, hnamed⟩ := cfgrView_mask (m := m)
  obtain ⟨hcri, hpri, hteiri, hhtr⟩ := cfgrView_bits (m := m)
  constructor
  case ntw =>
    intro hw
    rw [getField_openWord _ _ _ _ _ (cfgrView_mask_ntw hw), cfgrView_ntw, BitVec.toNat_ofNat]
    exact Nat.mod_eq_of_lt (by omega)
  case nts =>
    intro n hn
    have hlt : n < 8 := (Nat.pow_lt_pow_iff_right (by omega)).1 (show 2 ^ n < 2 ^ 8 by omega)
    have hlog := hn ▸ findIdx?_two_pow hlt
    rw [getField_openWord _ _ _ _ _ (cfgrView_mask_nts (by rw [hlog]; rfl)), cfgrView_nts, hlog, Option.getD_some,
      BitVec.toNat_ofNat]
    exact Nat.mod_eq_of_lt hlt
  case nae =>
    rw [getField_openWord _ _ _ _ _ hnae, cfgrView_nae, BitVec.toNat_ofNat]
    exact Nat.mod_eq_of_lt (by omega)
  case cri => rw [getBit_openWord _ _ _ _ (hnamed 8 (by omega) (by omega)), hcri]
  case pri => rw [getBit_openWord _ _ _ _ (hnamed 9 (by omega) (by omega)), hpri]
  case teiri => rw [getBit_openWord _ _ _ _ (hnamed 10 (by omega) (by omega)), hteiri]
  case htr => rw [getBit_openWord _ _ _ _ (hnamed 11 (by omega) (by omega)), hhtr]

/-- A 32-bit register is EA_BITS wide already, whatever EA_BITS is (R184). -/
theorem truncEa_word (w : EaWidth) (v : Word) : truncEa w (v.setWidth 64) = v.setWidth 64 := by
  cases w with
  | ea32 => simp [truncEa]
  | ea64 => rfl

theorem sprOf_mmucfgr {c : Config} (hc : c.cfgrImpl = true) :
    sprOf c 3#16 = some (.mmucfgr .d) ∧ sprOf c 4#16 = some (.mmucfgr .i) := by
  simp [sprOf, hc]

/-- A supervisor-mode read of a configuration register completes, and the word it delivers describes the half. -/
theorem execMfspr_mmucfgr {s : State} {d a : BitVec 5} {k : BitVec 16} {x : Side} (hwf : s.cfg.wf = true)
    (hc : s.cfg.cfgrImpl = true) (hmode : s.sr.mode = .supervisor)
    (hr : sprOf s.cfg (sprAddress s a k) = some (.mmucfgr x)) :
    ∃ v : Word, DescribesHalf (s.cfg.mmu x) v ∧ exec (.mfspr d a k) s =
      .next (advance { s with gpr := fileSet s.gpr d (v.setWidth 64), draws := s.draws + 1 }) := by
  refine ⟨_, openWord_cfgrView_describes (Config.wf_mmu hwf x) (drawn s), ?_⟩
  have hread : sprRead (.mmucfgr x) s =
      (openWord (cfgrView (s.cfg.mmu x)).1 (cfgrView (s.cfg.mmu x)).2 (drawn s)).setWidth 64 := by
    simp [sprRead, Spr.implemented, hc, sprView]
  calc exec (.mfspr d a k) s = .next (advance (writeGpr (countDraw s) d (sprRead (.mmucfgr x) s))) :=
        execMfspr_supervisor hr hmode
    _ = _ := by rw [writeGpr, hread, truncEa_word]; rfl

/-- Settles O14: the two addresses name the configuration registers of the two halves. -/
theorem mfsprReadsConfiguration : Obligations.MfsprReadsConfiguration := by
  intro s d a k hwf hc hmode
  obtain ⟨hd, hi⟩ := sprOf_mmucfgr hc
  constructor
  · intro haddr
    obtain ⟨v, ⟨hntw, hnts, hnae, hcri, hpri, hteiri, hhtr⟩, hexec⟩ :=
      execMfspr_mmucfgr (d := d) (x := .d) hwf hc hmode (by rw [sprAddress, haddr, hd])
    exact ⟨v, hexec, hntw, hnts, hnae, hcri, hpri, hteiri, hhtr⟩
  · intro haddr
    obtain ⟨v, ⟨hntw, hnts, hnae, hcri, hpri, hteiri, hhtr⟩, hexec⟩ :=
      execMfspr_mmucfgr (d := d) (x := .i) hwf hc hmode (by rw [sprAddress, haddr, hi])
    exact ⟨v, hexec, hntw, hnts, hnae, hcri, hpri, hteiri, hhtr⟩

end Sys2Proof.Machine
end

section
/-! PROOFS. The state after reset (O55, O60). -/

namespace Sys2Proof.Machine

/-! ### One half after power-on -/

section PowerOn
variable {P : Type} (c : Config) (base : Nat) (cr : CrPos) (pr : Word → Vector P 7) (tr atr : Word → TransReg P)

/-- Whatever the registers hold after power-on, they hold it as if it had been written: in fields of their widths, and
with a hardwired context of 0 (R39). -/
theorem Mmu.powerOn_fits (x : Side) (htr : ∀ w, (tr w).ppn.toNat < 2 ^ (ppnWidths c.layout x).1)
    (hatr : ∀ w, (atr w).ppn.toNat < 2 ^ (ppnWidths c.layout x).2) :
    (Mmu.powerOn c base cr pr tr atr).Fits c x := by
  refine Mmu.fits_iff.2 ⟨fun y k => ?_, fun i => ?_, fun o ho => ?_, fun l hl => ?_⟩
  · rw [Mmu.entry, Mmu.powerOn, fileGet_fileOf]
    exact ⟨mrOfWord_cid _, htr _, fun _ ho => nomatch ho⟩
  · rw [Mmu.powerOn, fileGet_fileOf]
    exact ⟨amrOfWord_cid _, hatr _, fun _ ho => nomatch ho⟩
  · exact absurd ho List.not_mem_nil
  · exact absurd hl List.not_mem_nil

end PowerOn

/-! ### The whole state -/

theorem fitsEa_zero (c : Config) : FitsEa c 0 := by
  unfold FitsEa truncEa
  cases c.eaBits <;> rfl

/-- The reset state of every well-formed configuration meets the invariant. -/
theorem resetWith_inv {c : Config} (hc : c.wf = true) : (State.resetWith c).Inv where
  cfg := hc
  memWf := reset_memory_wf c
  memBound := fun _ h => absurd h List.not_mem_nil
  gpr := fun i => by
    rw [State.resetWith, fileGet_fileOf]
    exact fitsEa_zero c
  pc := fitsEa_truncEa c _
  epcr := fitsEa_zero c
  eear := fitsEa_zero c
  dmmu := Mmu.powerOn_fits c _ _ _ _ _ .d (fun _ => cutPpn_lt _ _) (fun _ => cutPpn_lt _ _)
  immu := Mmu.powerOn_fits c _ _ _ _ _ .i (fun _ => cutPpn_lt _ _) (fun _ => cutPpn_lt _ _)

theorem Config.default_wf : Config.default.wf = true := by decide

/-- Settles O55: the configuration after reset is one whose reset state meets the invariant. -/
theorem resetMeetsInvariant : Obligations.ResetMeetsInvariant := resetWith_inv Config.default_wf

/-- An address keeps its low twelve bits, whatever EA_BITS is. -/
theorem extractLsb'_truncEa (w : EaWidth) (v : Ea) : (truncEa w v).extractLsb' 0 12 = v.extractLsb' 0 12 := by
  cases w with
  | ea32 =>
    ext i hi
    have h32 : i < 32 := by omega
    have h64 : i < 64 := by omega
    simp [truncEa, h32, h64]
  | ea64 => rfl

/-- The low twelve bits of a vector's address are its offset, for both widths of the EA (R226). -/
theorem extractLsb'_vector (w : EaWidth) (base : BitVec 52) (offset : BitVec 12) :
    (truncEa w (base ++ offset)).extractLsb' 0 12 = offset :=
  (extractLsb'_truncEa w _).trans BitVec.extractLsb'_append_eq_right

/-- Settles O60: the program counter is at offset 0x100 of the vector base; the rest stands in the reset state. -/
theorem resetState : Obligations.ResetState :=
  ⟨rfl, rfl, rfl, extractLsb'_vector _ _ _, rfl, rfl⟩

end Sys2Proof.Machine
end

section
/-! PROOFS. The match and the use of an entry: which entry an address finds (R117 to R121), where its page lies (R124), and
what an access through it leaves of its half (R126 to R131). -/

namespace Sys2Proof.Machine

/-! ### Which addresses an entry matches with a 32-bit EA -/

theorem extractLsb'_pageEa (w : EaWidth) (ea : Ea) {lo n : Nat} (h : lo + n ≤ 32) :
    (pageEa w ea).extractLsb' lo n = ea.extractLsb' lo n := by
  ext i hi
  have h32 : lo + i < 32 := by omega
  have h46 : lo + i < 46 := by omega
  cases w <;> simp [pageEa, BitVec.getElem_extractLsb', h32, h46]

theorem extractLsb'_pageEa_ea64 (ea : Ea) {lo n : Nat} (h : lo + n ≤ 46) :
    (pageEa .ea64 ea).extractLsb' lo n = ea.extractLsb' lo n := by
  ext i hi
  have h46 : lo + i < 46 := by omega
  simp [pageEa, BitVec.getElem_extractLsb', h46]

section Tags
variable {c : Config} {cid : BitVec 4} {ea : Ea}

/-- The match clauses of a TLB entry with a 32-bit EA, for both page sizes (R117, R118). -/
theorem tlbMatches_pageEa_iff {m : TlbMatch} (h32 : c.eaBits = .ea32) :
    tlbMatches c m cid (pageEa c.eaBits ea) = true ↔
      m.v = true ∧ m.cid = cid ∧
        if m.pl1 = true then m.vpn.extractLsb' 11 8 = ea.extractLsb' 24 8 else m.vpn = ea.extractLsb' 13 19 := by
  cases hpl : m.pl1 <;>
    simp [tlbMatches, tlbTagMatches, h32, hpl, extractLsb'_pageEa, and_assoc]

/-- The match clauses of an ATB entry with a 32-bit EA and the default ATB_VPN (R120). -/
theorem atbMatches_pageEa_iff {m : AtbMatch} (h32 : c.eaBits = .ea32) (hvpn : c.atbVpn = .level1Top) :
    atbMatches c m cid (pageEa c.eaBits ea) = true ↔
      m = { v := true, cid := cid, ps := false, vpn := ea.extractLsb' 24 8 ++ 0#14 } := by
  obtain ⟨v, cid', ps, vpn⟩ := m
  simp [atbMatches, atbTagMatches, atbTag, h32, hvpn, extractLsb'_pageEa, and_assoc]

/-- With a 32-bit EA no ATB entry with PS = 1 matches (D34). -/
theorem eaBits_of_atbMatches_ps {m : AtbMatch} {e : PageEa} (h : atbMatches c m cid e = true) (hps : m.ps = true) :
    c.eaBits = .ea64 := by
  cases h32 : c.eaBits with
  | ea32 => simp [atbMatches, atbTagMatches, h32, hps] at h
  | ea64 => rfl

end Tags

/-! ### Which entry an address finds -/

section Lookup
variable {P : Type} {c : Config} {x : Side} {m : Mmu P} {cid : BitVec 4} {e : PageEa} {y z i j : BitVec 2}

theorem tlbHits_eq_nil_iff : tlbHits c (c.mmu x) m cid e = [] ↔ NoWay c x m cid e := by
  simp only [List.eq_nil_iff_forall_not_mem, mem_tlbHits, NoWay, not_and, Bool.not_eq_true]

theorem atbHits_eq_nil_iff : atbHits c (c.mmu x) m cid e = [] ↔ NoAtb c x m cid e := by
  simp only [List.eq_nil_iff_forall_not_mem, mem_atbHits, NoAtb, not_and, Bool.not_eq_true]

theorem lookup_eq_miss_iff : lookup c (c.mmu x) m cid e = .miss ↔ NoWay c x m cid e ∧ NoAtb c x m cid e := by
  rw [lookup_miss_iff, tlbHits_eq_nil_iff, atbHits_eq_nil_iff]

/-- One way matches and no other does: the TLB answers (R117). -/
theorem lookup_eq_tlb (hy : y.toNat < (c.mmu x).ways)
    (hm : tlbMatches c (m.entry y (tlbIndex (c.mmu x) e)).mr cid e = true) (honly : OnlyWay c x m cid e y) :
    lookup c (c.mmu x) m cid e = .hit (.tlb y (tlbIndex (c.mmu x) e)) := by
  have hits : tlbHits c (c.mmu x) m cid e = [y] := by
    refine filter_fourIndices_eq_singleton fun z => ?_
    rw [Bool.and_eq_true, decide_eq_true_eq]
    constructor
    · rintro ⟨hz, hmz⟩
      by_contra hne
      exact Bool.false_ne_true ((honly z hne hz).symm.trans hmz)
    · rintro rfl
      exact ⟨hy, hm⟩
  simp only [lookup, hits]

/-- No way matches, one ATB entry does and no other: the ATB answers (R120, R121). -/
theorem lookup_eq_atb (hno : NoWay c x m cid e) (hi : i.toNat < (c.mmu x).atbEntries)
    (hm : atbMatches c (fileGet m.atb i).mr cid e = true) (honly : OnlyAtb c x m cid e i) :
    lookup c (c.mmu x) m cid e = .hit (.atb i) := by
  have hits : atbHits c (c.mmu x) m cid e = [i] := by
    refine filter_fourIndices_eq_singleton fun j => ?_
    rw [Bool.and_eq_true, decide_eq_true_eq]
    constructor
    · rintro ⟨hj, hmj⟩
      by_contra hne
      exact Bool.false_ne_true ((honly j hne hj).symm.trans hmj)
    · rintro rfl
      exact ⟨hi, hm⟩
  simp only [lookup, tlbHits_eq_nil_iff.2 hno, hits]

/-- A list with two different members has at least two. -/
theorem exists_cons_cons_of_mem_of_ne {α : Type} {a b : α} {l : List α} (ha : a ∈ l) (hb : b ∈ l) (hne : a ≠ b) :
    ∃ p q rest, l = p :: q :: rest := by
  match l with
  | [] => simp at ha
  | [p] => exact absurd ((List.mem_singleton.1 ha).trans (List.mem_singleton.1 hb).symm) hne
  | p :: q :: rest => exact ⟨p, q, rest, rfl⟩

theorem lookup_multiple_of_ways (hne : y ≠ z) (hy : y.toNat < (c.mmu x).ways) (hz : z.toNat < (c.mmu x).ways)
    (hmy : tlbMatches c (m.entry y (tlbIndex (c.mmu x) e)).mr cid e = true)
    (hmz : tlbMatches c (m.entry z (tlbIndex (c.mmu x) e)).mr cid e = true) :
    lookup c (c.mmu x) m cid e = .multiple := by
  obtain ⟨p, q, rest, hits⟩ := exists_cons_cons_of_mem_of_ne (mem_tlbHits.2 ⟨hy, hmy⟩) (mem_tlbHits.2 ⟨hz, hmz⟩) hne
  simp only [lookup, hits]

theorem lookup_multiple_of_atbs (hno : NoWay c x m cid e) (hne : i ≠ j) (hi : i.toNat < (c.mmu x).atbEntries)
    (hj : j.toNat < (c.mmu x).atbEntries) (hmi : atbMatches c (fileGet m.atb i).mr cid e = true)
    (hmj : atbMatches c (fileGet m.atb j).mr cid e = true) : lookup c (c.mmu x) m cid e = .multiple := by
  obtain ⟨p, q, rest, hits⟩ := exists_cons_cons_of_mem_of_ne (mem_atbHits.2 ⟨hi, hmi⟩) (mem_atbHits.2 ⟨hj, hmj⟩) hne
  simp only [lookup, tlbHits_eq_nil_iff.2 hno, hits]

/-- The ATB entry that a lookup finds matches. -/
theorem atbMatches_of_lookup {mc : MmuConfig} (h : lookup c mc m cid e = .hit (.atb i)) :
    atbMatches c (fileGet m.atb i).mr cid e = true :=
  (mem_atbHits.1 ((lookup_atb h).2 ▸ List.mem_singleton_self i)).2

end Lookup

/-- Settles O44: no entry passes the context clause of the match, so neither file has a hit. -/
theorem otherContextsNeverMatch : Obligations.OtherContextsNeverMatch := by
  intro P c mc m cid e htlb hatb
  rw [lookup_miss_iff]
  constructor
  · refine List.eq_nil_iff_forall_not_mem.2 fun y hy => ?_
    obtain ⟨-, hm⟩ := mem_tlbHits.1 hy
    simp only [tlbMatches, Bool.and_eq_true, beq_iff_eq] at hm
    exact htlb _ _ hm.1.1 hm.1.2
  · refine List.eq_nil_iff_forall_not_mem.2 fun i hi => ?_
    obtain ⟨-, hm⟩ := mem_atbHits.1 hi
    simp only [atbMatches, Bool.and_eq_true, beq_iff_eq] at hm
    exact hatb _ hm.1.1 hm.1.2

/-! ### The physical address of a page, in the bits of the EA -/

/-- The physical address of an EA in a page of a level (R124): the number of the page above the offset in it. -/
def pagePa (c : Config) (level : PageLevel) (ppn : BitVec 22) (ea : Ea) : Pa :=
  truncPa c <|
    match level with
    | .l2 => ppn ++ ea.extractLsb' 0 13
    | .l1 => ppn.extractLsb' 11 11 ++ ea.extractLsb' 0 24
    | .l0 => ea.extractLsb' 0 35

/-- The offset in a page lies in the translated bits of the EA; a page of 32 GByte there is with a 64-bit EA only. -/
theorem formPa_pageEa {c : Config} {level : PageLevel} (h : level = .l0 → c.eaBits = .ea64) (ppn : BitVec 22) (ea : Ea) :
    formPa c level ppn (pageEa c.eaBits ea) = pagePa c level ppn ea := by
  cases level with
  | l2 => simp [formPa, pagePa, extractLsb'_pageEa]
  | l1 => simp [formPa, pagePa, extractLsb'_pageEa]
  | l0 => simp [formPa, pagePa, h rfl, extractLsb'_pageEa_ea64]

/-- An entry that an address finds is no 32 GByte page with a 32-bit EA. -/
theorem eaBits_of_lookup_l0 {P : Type} {c : Config} {mc : MmuConfig} {m : Mmu P} {cid : BitVec 4} {e : PageEa}
    {r : EntryRef} (h : lookup c mc m cid e = .hit r) (h0 : m.levelOf r = .l0) : c.eaBits = .ea64 := by
  cases r with
  | tlb y k => cases hpl : (m.entry y k).mr.pl1 <;> simp [Mmu.levelOf, hpl] at h0
  | atb i =>
    refine eaBits_of_atbMatches_ps (atbMatches_of_lookup h) ?_
    cases hps : (fileGet m.atb i).mr.ps
    · simp [Mmu.levelOf, hps] at h0
    · rfl

/-! ### What changes at most in a register that an access leaves -/

theorem SameButLru.refl (m : TlbMatch) : SameButLru m m := rfl

theorem SameButLru.trans {m m' m'' : TlbMatch} (h : SameButLru m m') (h' : SameButLru m' m'') : SameButLru m m'' := by
  rw [SameButLru, h', h]

theorem SameButLru.pl1_eq {m m' : TlbMatch} (h : SameButLru m m') : m'.pl1 = m.pl1 := by
  rw [h]

section History
variable {P : Type} {t t' t'' : TransReg P}

theorem HistoryGrows.refl (t : TransReg P) : HistoryGrows t t := ⟨rfl, id, id⟩

theorem HistoryGrows.trans (h : HistoryGrows t t') (h' : HistoryGrows t' t'') : HistoryGrows t t'' := by
  obtain ⟨heq, ha, hd⟩ := h
  obtain ⟨heq', ha', hd'⟩ := h'
  exact ⟨by rw [heq', heq], ha' ∘ ha, hd' ∘ hd⟩

theorem historyGrows_accessed (store : Bool) (t : TransReg P) : HistoryGrows t (t.accessed store) :=
  ⟨rfl, fun _ => rfl, fun h => by simp [TransReg.accessed, h]⟩

theorem historyGrows_denied (store : Bool) (free : BitVec 64) (t : TransReg P) : HistoryGrows t (t.denied store free) :=
  ⟨rfl, fun h => by simp [TransReg.denied, h], fun h => by simp [TransReg.denied, h]⟩

end History

/-! ### What an access through an entry leaves of its half -/

section Use
variable {P : Type} {m m' : Mmu P} {r q : EntryRef} {store : Bool}

@[simp] theorem mr_entry_setTr (m : Mmu P) (r : EntryRef) (t : TransReg P) (y : BitVec 2) (k : BitVec 7) :
    ((m.setTr r t).entry y k).mr = (m.entry y k).mr := by
  rw [entry_setTr]
  split <;> rfl

@[simp] theorem mr_atb_setTr (m : Mmu P) (r : EntryRef) (t : TransReg P) (i : BitVec 2) :
    (fileGet (m.setTr r t).atb i).mr = (fileGet m.atb i).mr := by
  rw [atb_setTr]
  split <;> rfl

theorem trOf_setTr_of_ne (m : Mmu P) (t : TransReg P) (h : q ≠ r) : (m.setTr r t).trOf q = m.trOf q := by
  rw [trOf_setTr, if_neg h.symm]

theorem sameButLru_redrawLru (m : Mmu P) (ways : Nat) (k : BitVec 7) (free : BitVec 64) (y : BitVec 2) (n : BitVec 7) :
    SameButLru (m.entry y n).mr ((m.redrawLru ways k free).entry y n).mr := by
  rw [entry_redrawLru]
  split <;> rfl

theorem entry_redrawLru_of_ne (m : Mmu P) (ways : Nat) {k n : BitVec 7} (free : BitVec 64) (y : BitVec 2) (h : n ≠ k) :
    (m.redrawLru ways k free).entry y n = m.entry y n := by
  rw [entry_redrawLru, if_neg fun hn => h hn.1]

/-- What a permitted access leaves of its half (R128, R129, R131, R40). -/
theorem accessedAt_of_permitted (m : Mmu P) (ways : Nat) (k : BitVec 7) (r : EntryRef) (store : Bool) (free : BitVec 64) :
    m.AccessedAt k r store
      (((m.owe r true store).setTr r ((m.trOf r).accessed store)).redrawLru ways k free) where
  entry := by simp [TransReg.accessed]
  others q hq := by simp [trOf_setTr_of_ne _ _ hq]
  tlbMatch y n := by
    have h := sameButLru_redrawLru ((m.owe r true store).setTr r ((m.trOf r).accessed store)) ways k free y n
    simpa using h
  otherSets y n hn := by simp [entry_redrawLru_of_ne _ _ _ _ hn]
  atbMatch i := by simp
  origin q := by simp
  owed := by cases ho : m.originOf r <;> simp [owe_owed, ho]
  tf := by simp
  ptbp := by simp
  pr := by simp
  hist := by simp

/-- What a prohibited access leaves of its half (R130, R131). -/
theorem deniedAt_of_prohibited (m : Mmu P) (r : EntryRef) (store : Bool) (free : BitVec 64) :
    m.DeniedAt r store
      ((m.owe r (free.getLsbD 0) (store && free.getLsbD 1)).setTr r ((m.trOf r).denied store free)) where
  entry := by simpa using historyGrows_denied store free (m.trOf r)
  dirty h := by simp [TransReg.denied, h]
  others q hq := by simp [trOf_setTr_of_ne _ _ hq]
  tlbMatch y n := by simp
  atbMatch i := by simp
  origin q := by simp
  owed := by
    rw [setTr_owed, owe_owed, trOf_setTr_self]
    cases ho : m.originOf r with
    | none => simp
    | some pa =>
      simp only
      split
      · refine .inr ⟨_, rfl, rfl, fun h => ?_, fun h => ?_⟩
        · simp only at h
          simp [TransReg.denied, h]
        · simp only [Bool.and_eq_true] at h
          simp [TransReg.denied, h]
      · simp
  tf := by simp
  ptbp := by simp
  pr := by simp
  hist := by simp

/-- What any access through entry r leaves of its half, permitted or prohibited: what `Mmu.AccessedAt` and `Mmu.DeniedAt`
have in common. -/
structure Mmu.UsedAt (r : EntryRef) (store : Bool) (m m' : Mmu P) : Prop where
  entry : HistoryGrows (m.trOf r) (m'.trOf r)
  dirty : store = false → (m'.trOf r).d = (m.trOf r).d
  others : ∀ q, q ≠ r → m'.trOf q = m.trOf q
  tlbMatch : ∀ y n, SameButLru (m.entry y n).mr (m'.entry y n).mr
  atbMatch : ∀ i, (fileGet m'.atb i).mr = (fileGet m.atb i).mr
  origin : ∀ q, m'.originOf q = m.originOf q
  owed : m'.owed = m.owed ∨ ∃ o, m'.owed = m.owed ++ [o] ∧ m.originOf r = some o.pa
  tf : m'.tf = m.tf
  ptbp : m'.ptbp = m.ptbp
  pr : m'.pr = m.pr
  hist : m'.hist = m.hist

theorem Mmu.AccessedAt.usedAt {k : BitVec 7} (h : m.AccessedAt k r store m') : m.UsedAt r store m' where
  entry := h.entry ▸ historyGrows_accessed store (m.trOf r)
  dirty hs := by simp [h.entry, hs]
  others := h.others
  tlbMatch := h.tlbMatch
  atbMatch := h.atbMatch
  origin := h.origin
  owed := by
    have howed := h.owed
    cases ho : m.originOf r with
    | none => exact .inl (by simpa [ho] using howed)
    | some pa => exact .inr ⟨_, by simpa [ho] using howed, rfl⟩
  tf := h.tf
  ptbp := h.ptbp
  pr := h.pr
  hist := h.hist

theorem Mmu.DeniedAt.usedAt (h : m.DeniedAt r store m') : m.UsedAt r store m' where
  entry := h.entry
  dirty := h.dirty
  others := h.others
  tlbMatch y n := by rw [h.tlbMatch]; exact .refl _
  atbMatch := h.atbMatch
  origin := h.origin
  owed := h.owed.imp id fun ⟨o, hm, hpa, _⟩ => ⟨o, hm, hpa⟩
  tf := h.tf
  ptbp := h.ptbp
  pr := h.pr
  hist := h.hist

/-! The match does not look at LRU nor at a translate register. -/

theorem tlbMatches_of_sameButLru {c : Config} {a b : TlbMatch} (h : SameButLru a b) (cid : BitVec 4) (e : PageEa) :
    tlbMatches c b cid e = tlbMatches c a cid e := by
  rw [h]
  rfl

theorem Mmu.UsedAt.lookup_eq (h : m.UsedAt r store m') (c : Config) (mc : MmuConfig) (cid : BitVec 4) (e : PageEa) :
    lookup c mc m' cid e = lookup c mc m cid e := by
  have htlb : tlbHits c mc m' cid e = tlbHits c mc m cid e := by
    simp only [tlbHits, fun y => tlbMatches_of_sameButLru (c := c) (h.tlbMatch y (tlbIndex mc e)) cid e]
  have hatb : atbHits c mc m' cid e = atbHits c mc m cid e := by
    simp only [atbHits, h.atbMatch]
  simp only [lookup, htlb, hatb]

theorem Mmu.UsedAt.levelOf_eq (h : m.UsedAt r store m') (q : EntryRef) : m'.levelOf q = m.levelOf q := by
  cases q with
  | tlb y n =>
    simp only [Mmu.levelOf, (h.tlbMatch y n).pl1_eq]
  | atb i => simp only [Mmu.levelOf, h.atbMatch]

end Use

end Sys2Proof.Machine
end

section
/-! PROOFS. Accesses that one entry serves, that two match and that nothing matches, with no reload (O26 to O32, O34 to O36,
O40). -/

namespace Sys2Proof.Machine

/-! ### A translation, by what the match registers say of the address -/

section Translate
variable {P : Type} {c : Config} {x : Side} {store : Bool} {ok : P → Bool} {mem : Memory} {cid : BitVec 4} {ea : Ea}
  {m : Mmu P} {draws : Nat} {r : EntryRef}

theorem translate_multiple (h : lookup c (c.mmu x) m cid (pageEa c.eaBits ea) = .multiple) :
    translate c x store ok mem cid ea m draws = .stop .multipleMatch := by
  simp only [translate, h]

theorem translate_hit (h : lookup c (c.mmu x) m cid (pageEa c.eaBits ea) = .hit r) :
    translate c x store ok mem cid ea m draws = useEntry c x store ok m draws (pageEa c.eaBits ea) r := by
  simp only [translate, h]

/-- A miss where the half reloads in software (R122). -/
theorem translate_miss_software (h : lookup c (c.mmu x) m cid (pageEa c.eaBits ea) = .miss)
    (hsw : (c.mmu x).hwReload = false) :
    translate c x store ok mem cid ea m draws = .raise m draws .tlbMiss := by
  simp [translate, h, hsw]

/-- A miss whose search finds no PTE (R112). -/
theorem translate_miss_noPte (h : lookup c (c.mmu x) m cid (pageEa c.eaBits ea) = .miss)
    (hhw : (c.mmu x).hwReload = true) (hs : search c mem m.ptbp cid (pageEa c.eaBits ea) = .noPte) :
    translate c x store ok mem cid ea m draws = .raise m draws .pageFault := by
  simp only [translate, h, hhw, hs, if_true]

/-- A miss whose search finds a page that is installed (R113): the entry just installed is used. -/
theorem translate_miss_found {pte : Pte} {level : PageLevel} {pa : Nat} {m1 : Mmu P}
    (h : lookup c (c.mmu x) m cid (pageEa c.eaBits ea) = .miss) (hhw : (c.mmu x).hwReload = true)
    (hs : search c mem m.ptbp cid (pageEa c.eaBits ea) = .found pte level pa)
    (hi : install c x m cid (pageEa c.eaBits ea) pte level pa (Config.freeBits draws) = some (m1, r)) :
    translate c x store ok mem cid ea m draws =
      useEntry c x store ok m1 (draws + 1) (pageEa c.eaBits ea) r := by
  simp only [translate, h, hhw, hs, hi, if_true]

/-- A permitted access through entry r (R124, R128, R129, R133). -/
theorem useEntry_permitted {e : PageEa} (hok : ok (m.trOf r).prot = true) :
    ∃ m', useEntry c x store ok m draws e r =
        .done m' (draws + 1) (formPa c (m.levelOf r) (m.trOf r).ppn e) (m.trOf r).attrs ∧
      m.AccessedAt (tlbIndex (c.mmu x) e) r store m' := by
  refine ⟨_, ?_, accessedAt_of_permitted m (c.mmu x).ways _ r store (Config.freeBits draws)⟩
  simp only [useEntry, hok, if_true]

/-- A prohibited access through entry r (R127, R130). -/
theorem useEntry_prohibited {e : PageEa} (hok : ok (m.trOf r).prot = false) :
    ∃ m', useEntry c x store ok m draws e r = .raise m' (draws + 1) .pageFault ∧ m.DeniedAt r store m' := by
  refine ⟨_, ?_, deniedAt_of_prohibited m r store (Config.freeBits draws)⟩
  simp [useEntry, hok]

/-- A permitted access that finds entry r. -/
theorem translate_hit_permitted (h : lookup c (c.mmu x) m cid (pageEa c.eaBits ea) = .hit r)
    (hok : ok (m.trOf r).prot = true) :
    ∃ m', translate c x store ok mem cid ea m draws =
        .done m' (draws + 1) (pagePa c (m.levelOf r) (m.trOf r).ppn ea) (m.trOf r).attrs ∧
      m.AccessedAt (tlbIndex (c.mmu x) (pageEa c.eaBits ea)) r store m' := by
  rw [translate_hit h, ← formPa_pageEa (eaBits_of_lookup_l0 h)]
  exact useEntry_permitted hok

/-- A prohibited access that finds entry r. -/
theorem translate_hit_prohibited (h : lookup c (c.mmu x) m cid (pageEa c.eaBits ea) = .hit r)
    (hok : ok (m.trOf r).prot = false) :
    ∃ m', translate c x store ok mem cid ea m draws = .raise m' (draws + 1) .pageFault ∧ m.DeniedAt r store m' := by
  rw [translate_hit h]
  exact useEntry_prohibited hok

end Translate

/-! ### The two translation functions, from what the translation of their half comes to -/

section Access
variable {s : State} {store : Bool} {ea : Ea} {k : Nat} {pa : Pa} {at' : Attrs} {f : Failure} {q : Refusal}

theorem dTranslate_of_done {m : Mmu DProt} (hon : s.sr.dme = true)
    (h : translate s.cfg .d store (dPermits store s.sr.mode) s.mem (seenCid s.cfg s.sr.cid) ea s.dmmu s.draws =
      .done m k pa at') :
    dTranslate store ea s = .ok (pa, at') { s with dmmu := m, draws := k } := by
  simp only [dTranslate, hon, h, if_true]

theorem dTranslate_of_raise {m : Mmu DProt} (hon : s.sr.dme = true)
    (h : translate s.cfg .d store (dPermits store s.sr.mode) s.mem (seenCid s.cfg s.sr.cid) ea s.dmmu s.draws =
      .raise m k f) :
    dTranslate store ea s = .trap (raiseMmu f.data ea { s with dmmu := m, draws := k }) := by
  simp only [dTranslate, hon, h, if_true]

theorem dTranslate_of_stop (hon : s.sr.dme = true)
    (h : translate s.cfg .d store (dPermits store s.sr.mode) s.mem (seenCid s.cfg s.sr.cid) ea s.dmmu s.draws =
      .stop q) :
    dTranslate store ea s = .stop q := by
  simp only [dTranslate, hon, h, if_true]

theorem iTranslate_of_done {m : Mmu IProt} (hon : s.sr.ime = true)
    (h : translate s.cfg .i false (iPermits s.sr.mode) s.mem (seenCid s.cfg s.sr.cid) ea s.immu s.draws =
      .done m k pa at') :
    iTranslate ea s = .ok (pa, at') { s with immu := m, draws := k } := by
  simp only [iTranslate, hon, h, if_true]

theorem iTranslate_of_raise {m : Mmu IProt} (hon : s.sr.ime = true)
    (h : translate s.cfg .i false (iPermits s.sr.mode) s.mem (seenCid s.cfg s.sr.cid) ea s.immu s.draws =
      .raise m k f) :
    iTranslate ea s = .trap (raiseMmu f.insn ea { s with immu := m, draws := k }) := by
  simp only [iTranslate, hon, h, if_true]

theorem iTranslate_of_stop (hon : s.sr.ime = true)
    (h : translate s.cfg .i false (iPermits s.sr.mode) s.mem (seenCid s.cfg s.sr.cid) ea s.immu s.draws = .stop q) :
    iTranslate ea s = .stop q := by
  simp only [iTranslate, hon, h, if_true]

end Access

/-! ### One entry serves the access (O26 to O29, O34, O35) -/

section Hit
variable {s : State} {store : Bool} {ea : Ea} {r : EntryRef}

theorem dTranslate_hit_permitted (hon : s.sr.dme = true)
    (h : lookup s.cfg (s.cfg.mmu .d) s.dmmu (seenCid s.cfg s.sr.cid) (pageEa s.cfg.eaBits ea) = .hit r)
    (hok : dPermits store s.sr.mode (s.dmmu.trOf r).prot = true) :
    ∃ m, dTranslate store ea s =
        .ok (pagePa s.cfg (s.dmmu.levelOf r) (s.dmmu.trOf r).ppn ea, (s.dmmu.trOf r).attrs)
          { s with dmmu := m, draws := s.draws + 1 } ∧
      s.dmmu.AccessedAt (tlbIndex (s.cfg.mmu .d) (pageEa s.cfg.eaBits ea)) r store m := by
  obtain ⟨m, hm, hacc⟩ := translate_hit_permitted (store := store) (mem := s.mem) (draws := s.draws) h hok
  exact ⟨m, dTranslate_of_done hon hm, hacc⟩

theorem dTranslate_hit_prohibited (hon : s.sr.dme = true)
    (h : lookup s.cfg (s.cfg.mmu .d) s.dmmu (seenCid s.cfg s.sr.cid) (pageEa s.cfg.eaBits ea) = .hit r)
    (hok : dPermits store s.sr.mode (s.dmmu.trOf r).prot = false) :
    ∃ m, dTranslate store ea s =
        .trap (raiseMmu .dataPageFault ea { s with dmmu := m, draws := s.draws + 1 }) ∧
      s.dmmu.DeniedAt r store m := by
  obtain ⟨m, hm, hden⟩ := translate_hit_prohibited (store := store) (mem := s.mem) (draws := s.draws) h hok
  exact ⟨m, dTranslate_of_raise (f := .pageFault) hon hm, hden⟩

theorem iTranslate_hit_permitted (hon : s.sr.ime = true)
    (h : lookup s.cfg (s.cfg.mmu .i) s.immu (seenCid s.cfg s.sr.cid) (pageEa s.cfg.eaBits ea) = .hit r)
    (hok : iPermits s.sr.mode (s.immu.trOf r).prot = true) :
    ∃ m, iTranslate ea s =
        .ok (pagePa s.cfg (s.immu.levelOf r) (s.immu.trOf r).ppn ea, (s.immu.trOf r).attrs)
          { s with immu := m, draws := s.draws + 1 } ∧
      s.immu.AccessedAt (tlbIndex (s.cfg.mmu .i) (pageEa s.cfg.eaBits ea)) r false m := by
  obtain ⟨m, hm, hacc⟩ := translate_hit_permitted (store := false) (mem := s.mem) (draws := s.draws) h hok
  exact ⟨m, iTranslate_of_done hon hm, hacc⟩

theorem iTranslate_hit_prohibited (hon : s.sr.ime = true)
    (h : lookup s.cfg (s.cfg.mmu .i) s.immu (seenCid s.cfg s.sr.cid) (pageEa s.cfg.eaBits ea) = .hit r)
    (hok : iPermits s.sr.mode (s.immu.trOf r).prot = false) :
    ∃ m, iTranslate ea s = .trap (raiseMmu .insnPageFault ea { s with immu := m, draws := s.draws + 1 }) ∧
      s.immu.DeniedAt r false m := by
  obtain ⟨m, hm, hden⟩ := translate_hit_prohibited (store := false) (mem := s.mem) (draws := s.draws) h hok
  exact ⟨m, iTranslate_of_raise (f := .pageFault) hon hm, hden⟩

end Hit

section Pages
variable {P : Type} {c : Config} {m : Mmu P} {y : BitVec 2} {k : BitVec 7} {ppn : BitVec 22} {ea : Ea}

/-- The page of a TLB entry with PL1 = 0 (R117, R124). -/
theorem pagePa_tlb_level2 (hpl : (m.entry y k).mr.pl1 = false) :
    pagePa c (m.levelOf (.tlb y k)) ppn ea = truncPa c (ppn ++ ea.extractLsb' 0 13) := by
  simp [Mmu.levelOf, hpl, pagePa]

/-- The page of a TLB entry with PL1 = 1 (R118, R124). -/
theorem pagePa_tlb_level1 (hpl : (m.entry y k).mr.pl1 = true) :
    pagePa c (m.levelOf (.tlb y k)) ppn ea = truncPa c (ppn.extractLsb' 11 11 ++ ea.extractLsb' 0 24) := by
  simp [Mmu.levelOf, hpl, pagePa]

/-- The page of a TLB entry (R123, R124). -/
theorem pagePa_levelOf_tlb :
    pagePa c (m.levelOf (.tlb y k)) ppn ea =
      truncPa c (if (m.entry y k).mr.pl1 then ppn.extractLsb' 11 11 ++ ea.extractLsb' 0 24
        else ppn ++ ea.extractLsb' 0 13) := by
  cases hpl : (m.entry y k).mr.pl1 with
  | false => simp [pagePa_tlb_level2 hpl]
  | true => simp [pagePa_tlb_level1 hpl]

/-- The page of an ATB entry (R123, R124). -/
theorem pagePa_levelOf_atb {i : BitVec 2} :
    pagePa c (m.levelOf (.atb i)) ppn ea =
      truncPa c (if (fileGet m.atb i).mr.ps then ea.extractLsb' 0 35
        else ppn.extractLsb' 11 11 ++ ea.extractLsb' 0 24) := by
  cases hps : (fileGet m.atb i).mr.ps <;> simp [Mmu.levelOf, hps, pagePa]

end Pages

/-- Settles O26: the one way that matches is the hit, a page of level 2. -/
theorem dtlbHitTranslates : Obligations.DtlbHitTranslates := by
  refine ⟨fun c m cid ea h32 hpl => ?_, fun s store ea y t hon hy ht hm hpl honly hok => ?_⟩
  · simpa [hpl] using tlbMatches_pageEa_iff (m := m) (cid := cid) (ea := ea) h32
  · subst ht
    rw [← pagePa_tlb_level2 hpl]
    exact dTranslate_hit_permitted hon (lookup_eq_tlb hy hm honly) hok

/-- Settles O27: the one way that matches is the hit, a page of level 1. -/
theorem dtlbLevel1HitTranslates : Obligations.DtlbLevel1HitTranslates := by
  refine ⟨fun c m cid ea h32 hpl => ?_, fun s store ea y t hon hy ht hm hpl honly hok => ?_⟩
  · simpa [hpl] using tlbMatches_pageEa_iff (m := m) (cid := cid) (ea := ea) h32
  · subst ht
    rw [← pagePa_tlb_level1 hpl]
    exact dTranslate_hit_permitted hon (lookup_eq_tlb hy hm honly) hok

/-- Settles O28: with no way that matches, the one ATB entry that does is the hit. -/
theorem atbHitTranslates : Obligations.AtbHitTranslates := by
  refine ⟨fun c m cid ea h32 hvpn => atbMatches_pageEa_iff h32 hvpn,
    fun s store ea i hon hi hno hm honly hok => ?_, fun s ea i hon hi hno hm honly hok => ?_⟩
  · rw [← pagePa_levelOf_atb]
    exact dTranslate_hit_permitted hon (lookup_eq_atb hno hi hm honly) hok
  · rw [← pagePa_levelOf_atb]
    exact iTranslate_hit_permitted hon (lookup_eq_atb hno hi hm honly) hok

/-- Settles O29: the one way that matches is the hit, of either page size. -/
theorem itlbHitTranslates : Obligations.ItlbHitTranslates := by
  refine ⟨fun c m cid ea h32 => tlbMatches_pageEa_iff h32, fun s ea y t hon hy ht hm honly hok => ?_⟩
  subst ht
  rw [← pagePa_levelOf_tlb]
  exact iTranslate_hit_permitted hon (lookup_eq_tlb hy hm honly) hok

/-- Settles O34, through a way of the DTLB and through an entry of the DATB. -/
theorem prohibitedAccessFaults : Obligations.ProhibitedAccessFaults := by
  refine ⟨fun s store ea y t hon hy ht hm honly hok => ?_, fun s store ea i hon hi hno hm honly hok => ?_⟩
  · subst ht
    exact dTranslate_hit_prohibited hon (lookup_eq_tlb hy hm honly) hok
  · exact dTranslate_hit_prohibited hon (lookup_eq_atb hno hi hm honly) hok

/-- Settles O35, through a way of the ITLB and through an entry of the IATB. -/
theorem prohibitedFetchFaults : Obligations.ProhibitedFetchFaults := by
  refine ⟨fun s ea y t hon hy ht hm honly hok => ?_, fun s ea i hon hi hno hm honly hok => ?_⟩
  · subst ht
    exact iTranslate_hit_prohibited hon (lookup_eq_tlb hy hm honly) hok
  · exact iTranslate_hit_prohibited hon (lookup_eq_atb hno hi hm honly) hok

/-! ### Two entries match, or none does (O30, O32, O40), and an MMU that is off (O36) -/

/-- Settles O30: two ways, or with no way two ATB entries, are a multiple match, and that stops either translation. -/
theorem twoMatchesRefused : Obligations.TwoMatchesRefused := by
  intro s store ea y z hne
  refine ⟨fun hon hy hz hmy hmz => ?_, fun hon hy hz hmy hmz => ?_, fun hon hno hy hz hmy hmz => ?_,
    fun hon hno hy hz hmy hmz => ?_⟩
  · exact dTranslate_of_stop hon (translate_multiple (lookup_multiple_of_ways hne hy hz hmy hmz))
  · exact iTranslate_of_stop hon (translate_multiple (lookup_multiple_of_ways hne hy hz hmy hmz))
  · exact dTranslate_of_stop hon (translate_multiple (lookup_multiple_of_atbs hno hne hy hz hmy hmz))
  · exact iTranslate_of_stop hon (translate_multiple (lookup_multiple_of_atbs hno hne hy hz hmy hmz))

/-- Settles O32: the miss raises before anything is written. -/
theorem missRaisesTlbMiss : Obligations.MissRaisesTlbMiss := by
  refine fun s store ea => ⟨fun hon hsw hno hnoAtb => ?_, fun hon hsw hno hnoAtb => ?_⟩
  · exact dTranslate_of_raise (f := .tlbMiss) hon (translate_miss_software (lookup_eq_miss_iff.2 ⟨hno, hnoAtb⟩) hsw)
  · exact iTranslate_of_raise (f := .tlbMiss) hon (translate_miss_software (lookup_eq_miss_iff.2 ⟨hno, hnoAtb⟩) hsw)

/-- Settles O40: the search that finds no PTE raises before anything is written. -/
theorem noPteRaisesPageFault : Obligations.NoPteRaisesPageFault := by
  refine fun s store ea => ⟨fun hon hhw hno hnoAtb hs => ?_, fun hon hhw hno hnoAtb hs => ?_⟩
  · exact dTranslate_of_raise (f := .pageFault) hon (translate_miss_noPte (lookup_eq_miss_iff.2 ⟨hno, hnoAtb⟩) hhw hs)
  · exact iTranslate_of_raise (f := .pageFault) hon (translate_miss_noPte (lookup_eq_miss_iff.2 ⟨hno, hnoAtb⟩) hhw hs)

/-- Settles O36: with its MMU off an access takes the untranslated path. -/
theorem offMmuIsIdentity : Obligations.OffMmuIsIdentity := by
  intro s store ea
  refine ⟨fun hoff => ?_, fun hoff => ?_⟩
  · rw [dTranslate, hoff]
    exact ⟨_, rfl⟩
  · rw [iTranslate, hoff]
    exact ⟨_, rfl⟩

/-! ### Where a TLB entry matches, the ATB plays no part (O31) -/

section AtbUnused
variable {P : Type} {c : Config} {x : Side} {store : Bool} {ok : P → Bool} {m : Mmu P} {draws : Nat} {e : PageEa}

/-- A half with its ATB replaced. -/
def Mmu.withAtb (m : Mmu P) (atb : Vector (AtbEntry P) (2 ^ 2)) : Mmu P := { m with atb := atb }

/-- The outcome of a translation with the ATB of the half after it replaced. -/
def Xlat.withAtb (atb : Vector (AtbEntry P) (2 ^ 2)) : Xlat P → Xlat P
  | .done m k pa at' => .done (m.withAtb atb) k pa at'
  | .raise m k f => .raise (m.withAtb atb) k f
  | .stop q => .stop q

/-- What an access leaves of a TLB entry's half does not depend on the ATB. -/
theorem useEntry_withAtb (atb : Vector (AtbEntry P) (2 ^ 2)) (y : BitVec 2) (k : BitVec 7) :
    useEntry c x store ok (m.withAtb atb) draws e (.tlb y k) =
      (useEntry c x store ok m draws e (.tlb y k)).withAtb atb := by
  have htr : (m.withAtb atb).trOf (.tlb y k) = m.trOf (.tlb y k) := rfl
  have howe : ∀ a d, (m.withAtb atb).owe (.tlb y k) a d = (m.owe (.tlb y k) a d).withAtb atb := fun a d => by
    rw [owe_eq, owe_eq m, Mmu.withAtb, Mmu.withAtb, owe_owed, owe_owed]
    rfl
  cases hok : ok (m.trOf (.tlb y k)).prot with
  | true => simp only [useEntry, htr, howe, hok, if_true]; rfl
  | false => simp only [useEntry, htr, howe, hok, Bool.false_eq_true, if_false]; rfl

variable {mem : Memory} {cid : BitVec 4} {ea : Ea} {y : BitVec 2}

/-- Where a way matches, the ATB makes no difference to a translation. -/
theorem translate_withAtb (hy : y.toNat < (c.mmu x).ways)
    (hm : tlbMatches c (m.entry y (tlbIndex (c.mmu x) (pageEa c.eaBits ea))).mr cid (pageEa c.eaBits ea) = true)
    (atb : Vector (AtbEntry P) (2 ^ 2)) :
    translate c x store ok mem cid ea (m.withAtb atb) draws =
      (translate c x store ok mem cid ea m draws).withAtb atb := by
  have hmem := mem_tlbHits.2 ⟨hy, hm⟩
  have hsame : tlbHits c (c.mmu x) (m.withAtb atb) cid (pageEa c.eaBits ea) =
    tlbHits c (c.mmu x) m cid (pageEa c.eaBits ea) := rfl
  match hits : tlbHits c (c.mmu x) m cid (pageEa c.eaBits ea) with
  | [] => simp [hits] at hmem
  | [z] =>
    rw [translate_hit (by simp only [lookup, hsame, hits]; rfl), translate_hit (by simp only [lookup, hits]; rfl)]
    exact useEntry_withAtb atb _ _
  | p :: q :: rest =>
    rw [translate_multiple (by simp only [lookup, hsame, hits]), translate_multiple (by simp only [lookup, hits])]
    rfl

end AtbUnused

/-- Settles O31: a translation commutes with a change of the ATB; changing it to what it is shows that it stays. -/
theorem tlbBeforeAtb : Obligations.TlbBeforeAtb := by
  intro P c x store ok mem cid ea m draws atb y hy hm
  have hother := translate_withAtb (store := store) (ok := ok) (mem := mem) (draws := draws) hy hm atb
  have hself : translate c x store ok mem cid ea m draws = (translate c x store ok mem cid ea m draws).withAtb m.atb :=
    translate_withAtb hy hm m.atb
  refine ⟨fun m' k pa at' h => ?_, fun m' k f h => ?_, fun q h => ?_⟩
  · rw [h] at hother hself
    simp only [Xlat.withAtb, Xlat.done.injEq] at hself
    exact ⟨(congrArg Mmu.atb hself.1).trans rfl, hother⟩
  · rw [h] at hother hself
    simp only [Xlat.withAtb, Xlat.raise.injEq] at hself
    exact ⟨(congrArg Mmu.atb hself.1).trans rfl, hother⟩
  · rw [h] at hother
    exact hother

end Sys2Proof.Machine
end

section
/-! PROOFS. What the accesses that reload nothing keep of the match and translate registers (O37, O38, O52). -/

namespace Sys2Proof.Machine

/-! ### One half -/

section Half
variable {P : Type} {store : Bool} {m m' m'' : Mmu P}

/-- What accesses that reload nothing, any number of them, leave of their half (R128, R129, R40): match registers as they were
but for LRU, translate registers but for history bits that were set, D by stores alone. -/
structure Mmu.OnlyUsed (store : Bool) (m m' : Mmu P) : Prop where
  tlbMatch : ∀ y n, SameButLru (m.entry y n).mr (m'.entry y n).mr
  atbMatch : ∀ i, (fileGet m'.atb i).mr = (fileGet m.atb i).mr
  history : ∀ q, HistoryGrows (m.trOf q) (m'.trOf q)
  dirty : store = false → ∀ q, (m'.trOf q).d = (m.trOf q).d

theorem Mmu.OnlyUsed.refl (store : Bool) (m : Mmu P) : m.OnlyUsed store m :=
  ⟨fun _ _ => .refl _, fun _ => rfl, fun _ => .refl _, fun _ _ => rfl⟩

theorem Mmu.OnlyUsed.trans (h : m.OnlyUsed store m') (h' : m'.OnlyUsed store m'') : m.OnlyUsed store m'' :=
  ⟨fun y n => (h.tlbMatch y n).trans (h'.tlbMatch y n), fun i => (h'.atbMatch i).trans (h.atbMatch i),
    fun q => (h.history q).trans (h'.history q), fun hs q => (h'.dirty hs q).trans (h.dirty hs q)⟩

theorem Mmu.UsedAt.onlyUsed {r : EntryRef} (h : m.UsedAt r store m') : m.OnlyUsed store m' where
  tlbMatch := h.tlbMatch
  atbMatch := h.atbMatch
  history q := by
    by_cases hq : q = r
    · exact hq ▸ h.entry
    · exact h.others q hq ▸ .refl _
  dirty hs q := by
    by_cases hq : q = r
    · exact hq ▸ h.dirty hs
    · exact congrArg TransReg.d (h.others q hq)

/-- Everything that the use of an entry can do to the half, permitted or prohibited. -/
theorem useEntry_usedAt {c : Config} {x : Side} {ok : P → Bool} {draws : Nat} {e : PageEa} {r : EntryRef} :
    (∀ m' k pa at', useEntry c x store ok m draws e r = .done m' k pa at' → m.UsedAt r store m') ∧
    (∀ m' k f, useEntry c x store ok m draws e r = .raise m' k f → m.UsedAt r store m') := by
  refine ⟨fun m' k pa at' h => ?_, fun m' k f h => ?_⟩
  · obtain ⟨-, -, rfl, -, -⟩ := useEntry_done h
    exact (accessedAt_of_permitted m _ _ r store _).usedAt
  · obtain ⟨-, -, -, rfl⟩ := useEntry_raise h
    exact (deniedAt_of_prohibited m r store _).usedAt

/-- A translation that reloads nothing, because the half reloads in software or because the address finds an entry. -/
theorem translate_onlyUsed {c : Config} {x : Side} {ok : P → Bool} {mem : Memory} {cid : BitVec 4} {ea : Ea} {draws : Nat}
    (hno : (c.mmu x).hwReload = false ∨ lookup c (c.mmu x) m cid (pageEa c.eaBits ea) ≠ .miss) :
    (∀ m' k pa at', translate c x store ok mem cid ea m draws = .done m' k pa at' → m.OnlyUsed store m') ∧
    (∀ m' k f, translate c x store ok mem cid ea m draws = .raise m' k f → m.OnlyUsed store m') := by
  rcases translate_cases (c := c) (x := x) (store := store) (ok := ok) (mem := mem) (cid := cid) (ea := ea)
      (m := m) (draws := draws) with
    ⟨q, h⟩ | ⟨-, f, h⟩ | ⟨r, -, h⟩ | ⟨pte, level, pa, m1, r, hmiss, hhw, -, -, -⟩
  · rw [h]; exact ⟨by simp, by simp⟩
  · rw [h]
    refine ⟨by simp, fun m' k f h => ?_⟩
    simp only [Xlat.raise.injEq] at h
    exact h.1 ▸ .refl store m
  · rw [h]
    exact ⟨fun _ _ _ _ hx => (useEntry_usedAt.1 _ _ _ _ hx).onlyUsed,
      fun _ _ _ hx => (useEntry_usedAt.2 _ _ _ hx).onlyUsed⟩
  · rcases hno with hsw | hhit
    · exact absurd (hsw.symm.trans hhw) Bool.false_ne_true
    · exact absurd hmiss hhit

end Half

/-! ### The state -/

section Access
variable {s u v : State} {store : Bool} {ea : Ea}

/-- What data accesses that reload nothing leave of the MMU and of the configuration. -/
structure State.DataUsed (store : Bool) (s u : State) : Prop where
  cfg : u.cfg = s.cfg
  immu : u.immu = s.immu
  dmmu : s.dmmu.OnlyUsed store u.dmmu

/-- What a fetch that reloads nothing leaves of the MMU and of the configuration. -/
structure State.InsnUsed (s u : State) : Prop where
  cfg : u.cfg = s.cfg
  dmmu : u.dmmu = s.dmmu
  immu : s.immu.OnlyUsed false u.immu

theorem State.DataUsed.trans (h : s.DataUsed store u) (h' : u.DataUsed store v) : s.DataUsed store v :=
  ⟨h'.cfg.trans h.cfg, h'.immu.trans h.immu, h.dmmu.trans h'.dmmu⟩

theorem dTranslate_dataUsed
    (hno : (s.cfg.mmu .d).hwReload = false ∨
      lookup s.cfg (s.cfg.mmu .d) s.dmmu (seenCid s.cfg s.sr.cid) (pageEa s.cfg.eaBits ea) ≠ .miss) :
    (∀ p u, dTranslate store ea s = .ok p u → s.DataUsed store u) ∧
    ∀ u, dTranslate store ea s = .trap u → s.DataUsed store u := by
  refine ⟨fun p u h => ?_, fun u h => ?_⟩
  · rcases dTranslate_ok h with ⟨-, m, k, rfl, hm⟩ | ⟨-, rfl, -⟩
    · exact ⟨rfl, rfl, (translate_onlyUsed hno).1 _ _ _ _ hm⟩
    · exact ⟨rfl, rfl, .refl _ _⟩
  · obtain ⟨-, m, k, f, rfl, hm⟩ := dTranslate_trap h
    exact ⟨rfl, rfl, (translate_onlyUsed hno).2 _ _ _ hm⟩

theorem iTranslate_insnUsed
    (hno : (s.cfg.mmu .i).hwReload = false ∨
      lookup s.cfg (s.cfg.mmu .i) s.immu (seenCid s.cfg s.sr.cid) (pageEa s.cfg.eaBits ea) ≠ .miss) :
    (∀ p u, iTranslate ea s = .ok p u → s.InsnUsed u) ∧ ∀ u, iTranslate ea s = .trap u → s.InsnUsed u := by
  refine ⟨fun p u h => ?_, fun u h => ?_⟩
  · rcases iTranslate_ok h with ⟨-, m, k, rfl, hm⟩ | ⟨-, rfl, -⟩
    · exact ⟨rfl, rfl, (translate_onlyUsed hno).1 _ _ _ _ hm⟩
    · exact ⟨rfl, rfl, .refl _ _⟩
  · obtain ⟨-, m, k, f, rfl, hm⟩ := iTranslate_trap h
    exact ⟨rfl, rfl, (translate_onlyUsed hno).2 _ _ _ hm⟩

/-- A fetch with software reload, whether it goes through or raises. -/
theorem fetchInsn_insnUsed (hsw : s.cfg.i.hwReload = false) :
    (∀ bytes u, fetchInsn s = .ok bytes u → s.InsnUsed u) ∧ ∀ u, fetchInsn s = .trap u → s.InsnUsed u := by
  refine ⟨fun bytes u h => ?_, fun u h => (iTranslate_insnUsed (.inl hsw)).2 u (fetchInsn_trap h)⟩
  obtain ⟨-, pa, at', v, hv, -, rfl⟩ := fetchInsn_ok h
  obtain ⟨hcfg, hd, hi⟩ := (iTranslate_insnUsed (.inl hsw)).1 _ _ hv
  exact ⟨hcfg, hd, hi⟩

/-- The translation of a data access with software reload, across pages too. -/
theorem translateAccess_dataUsed {n : Nat} (hsw : s.cfg.d.hwReload = false) :
    (∀ parts u, translateAccess store ea n s = .ok parts u → s.DataUsed store u) ∧
    ∀ u, translateAccess store ea n s = .trap u → s.DataUsed store u := by
  refine translateAccess_keeps (s.DataUsed store) (s.DataUsed store) (fun u hu => ⟨hu.cfg, hu.immu, hu.dmmu⟩)
    (fun ea p u v hu hv => ?_) (fun ea u v hu hv => ?_) ⟨rfl, rfl, .refl _ _⟩
  · exact hu.trans ((dTranslate_dataUsed (.inl (hu.cfg ▸ hsw))).1 _ _ hv)
  · exact hu.trans ((dTranslate_dataUsed (.inl (hu.cfg ▸ hsw))).2 _ hv)

/-- A store where both halves reload in software, in each way it can end. -/
theorem inputStore_onlyUsed {bytes : List Byte} (hd : s.cfg.d.hwReload = false) (hi : s.cfg.i.hwReload = false)
    (h : inputStore ea bytes s = .next u) : s.dmmu.OnlyUsed true u.dmmu ∧ s.immu.OnlyUsed false u.immu := by
  rcases dataAccess_next h with hf | ⟨b, v, hf, ha | ⟨parts, w, ha, rfl⟩⟩
  · have hfetch := (fetchInsn_insnUsed hi).2 _ hf
    exact ⟨hfetch.dmmu ▸ .refl _ _, hfetch.immu⟩
  · have hfetch := (fetchInsn_insnUsed hi).1 _ _ hf
    have hdata := (translateAccess_dataUsed (hfetch.cfg ▸ hd)).2 u ha
    exact ⟨hfetch.dmmu ▸ hdata.dmmu, hdata.immu ▸ hfetch.immu⟩
  · have hfetch := (fetchInsn_insnUsed hi).1 _ _ hf
    obtain ⟨-, himmu, hdmmu⟩ := (translateAccess_dataUsed (hfetch.cfg ▸ hd)).1 parts w ha
    exact ⟨hfetch.dmmu ▸ hdmmu, himmu ▸ hfetch.immu⟩

end Access

/-- Settles O37: a load uses at most its half, as no store, and leaves the other; a fetch likewise. -/
theorem onlyStoresDirty : Obligations.OnlyStoresDirty := by
  intro s u ea p _ hd hi h
  have hside : s.DataUsed false u ∨ s.InsnUsed u := by
    rcases h with h | h | h | h
    · exact .inl ((dTranslate_dataUsed (.inl hd)).1 p u h)
    · exact .inl ((dTranslate_dataUsed (.inl hd)).2 u h)
    · exact .inr ((iTranslate_insnUsed (.inl hi)).1 p u h)
    · exact .inr ((iTranslate_insnUsed (.inl hi)).2 u h)
  rcases hside with h | h
  · exact ⟨h.dmmu.dirty rfl, fun r => by rw [h.immu]⟩
  · exact ⟨fun r => by rw [h.dmmu], h.immu.dirty rfl⟩

/-- Settles O38, one half after the other. -/
theorem historyNeverCleared : Obligations.HistoryNeverCleared := by
  intro s u store ea p _
  refine ⟨fun hno h => ?_, fun hno h => ?_⟩
  · have hused : s.DataUsed store u := h.elim ((dTranslate_dataUsed hno).1 p u) ((dTranslate_dataUsed hno).2 u)
    exact ⟨hused.dmmu.history, hused.immu⟩
  · have hused : s.InsnUsed u := h.elim ((iTranslate_insnUsed hno).1 p u) ((iTranslate_insnUsed hno).2 u)
    exact ⟨hused.immu.history, hused.dmmu⟩

/-! ### Writes to memory (R146) -/

section Coherence
variable {s t : State}

theorem inputForeignWrite_mmu {a : Nat} {bytes : List Byte} (h : inputForeignWrite a bytes s = .next t) :
    t.dmmu = s.dmmu ∧ t.immu = s.immu := by
  unfold inputForeignWrite at h
  split at h
  · cases h; exact ⟨rfl, rfl⟩
  · cases h

/-- A history update written takes itself off the list of those in progress and changes no entry. -/
theorem inputHistoryWrite_entries (x : Side) (k : Nat) (s : State) :
    (inputHistoryWrite x k s).dmmu.tlb = s.dmmu.tlb ∧ (inputHistoryWrite x k s).dmmu.atb = s.dmmu.atb ∧
      (inputHistoryWrite x k s).immu.tlb = s.immu.tlb ∧ (inputHistoryWrite x k s).immu.atb = s.immu.atb := by
  unfold inputHistoryWrite
  split
  · cases x with
    | d => exact ⟨rfl, rfl, rfl, rfl⟩
    | i => exact ⟨rfl, rfl, rfl, rfl⟩
  · exact ⟨rfl, rfl, rfl, rfl⟩

end Coherence

/-- Settles O52: the three writers of memory, one after the other. -/
theorem tlbsNotCoherent : Obligations.TlbsNotCoherent := by
  refine ⟨fun s t a bytes rest h => inputForeignWrite_mmu (s := { s with inbox := rest }) h,
    fun s t x k rest h => ?_, fun s t ea bytes rest _ hd hi h => ?_⟩
  · cases h
    exact inputHistoryWrite_entries x k _
  · have hboth : s.dmmu.OnlyUsed true t.dmmu ∧ s.immu.OnlyUsed false t.immu :=
      inputStore_onlyUsed (s := { s with inbox := rest }) hd hi h
    obtain ⟨hdata, hinsn⟩ := hboth
    exact ⟨fun y n => ⟨hdata.tlbMatch y n, hinsn.tlbMatch y n⟩, fun i => ⟨hdata.atbMatch i, hinsn.atbMatch i⟩,
      fun r => ⟨hdata.history r, hinsn.history r⟩⟩

end Sys2Proof.Machine
end

section
/-! PROOFS. The hardware search (O39), and what a reload installs (O41, O42) and makes of the access (O43). -/

namespace Sys2Proof.Machine

/-! ### The search, table by table -/

/-- A search goes through its tables as the pseudocode does (R110, R111). -/
theorem walk_cons (c : Config) (mem : Memory) (base ix : Nat) (level : PageLevel) (rest : List (PageLevel × Nat)) :
    walk c mem base ((level, ix) :: rest) = searchStep c mem base ix level fun b => walk c mem b rest := rfl

theorem walk_nil (c : Config) (mem : Memory) (base : Nat) : walk c mem base [] = .stop .malformedTable := rfl

/-- The tables of a 32-bit EA (R84, R110). -/
theorem searchPath_pageEa_ea32 (ea : Ea) :
    searchPath .ea32 (pageEa .ea32 ea) =
      [(.l1, (ea.extractLsb' 24 8).toNat), (.l2, (ea.extractLsb' 13 11).toNat)] := by
  have hl1 : ((ea.extractLsb' 24 8).setWidth 11).toNat = (ea.extractLsb' 24 8).toNat :=
    BitVec.toNat_setWidth_of_le (by omega)
  simp only [searchPath, l1Index, l2Index, extractLsb'_pageEa .ea32 ea (show 24 + 8 ≤ 32 by omega),
    extractLsb'_pageEa .ea32 ea (show 13 + 11 ≤ 32 by omega), hl1]

/-- The tables of a 64-bit EA (R85, R111). -/
theorem searchPath_pageEa_ea64 (ea : Ea) :
    searchPath .ea64 (pageEa .ea64 ea) =
      [(.l0, (ea.extractLsb' 35 11).toNat), (.l1, (ea.extractLsb' 24 11).toNat),
        (.l2, (ea.extractLsb' 13 11).toNat)] := by
  simp only [searchPath, l0Index, l1Index, l2Index, extractLsb'_pageEa_ea64 ea (show 35 + 11 ≤ 46 by omega),
    extractLsb'_pageEa_ea64 ea (show 24 + 11 ≤ 46 by omega), extractLsb'_pageEa_ea64 ea (show 13 + 11 ≤ 46 by omega)]

/-- Settles O39: the search is one step for each table of its path. -/
theorem searchFollowsTables : Obligations.SearchFollowsTables := by
  intro c mem ptbp cid ea hbase
  refine ⟨fun h32 => ?_, fun h64 => ?_⟩
  · simp only [search, ptBase, hbase, h32, searchPath_pageEa_ea32, walk_cons, walk_nil]
  · simp only [search, ptBase, hbase, h64, searchPath_pageEa_ea64, walk_cons, walk_nil]

/-- A 32 GByte page is found with a 64-bit EA only (R95). -/
theorem eaBits_of_l0_mem_searchPath {c : Config} {e : PageEa} (h : .l0 ∈ (searchPath c.eaBits e).map Prod.fst) :
    c.eaBits = .ea64 := by
  cases hw : c.eaBits with
  | ea32 => simp [hw, searchPath] at h
  | ea64 => rfl

/-- The level of a page that a search finds is one of the path's. -/
theorem search_found_level {c : Config} {mem : Memory} {ptbp : BitVec 22} {cid : BitVec 4} {e : PageEa} {pte : Pte}
    {level : PageLevel} {pa : Nat} (h : search c mem ptbp cid e = .found pte level pa) :
    level ∈ (searchPath c.eaBits e).map Prod.fst := by
  obtain ⟨-, -, -, -, -, hlevel⟩ := walk_found h (ptBase_dvd c ptbp cid)
  exact hlevel

/-! ### What an install writes -/

section Install
variable {P : Type} {c : Config} {x : Side} {m m' : Mmu P} {cid : BitVec 4} {e : PageEa} {pte : Pte}
  {level : PageLevel} {pa : Nat} {free : BitVec 64} {r : EntryRef}

/-- What an install leaves of its half (R113): entry r takes what the PTE at pa says; every other entry and everything else is
as it was. -/
structure Mmu.WrittenAt (c : Config) (x : Side) (pte : Pte) (pa : Nat) (r : EntryRef) (m m' : Mmu P) : Prop where
  entry : m'.trOf r = trOfPte (ppnWidthAt c.layout x r) m.pr pte
  origin : m'.originOf r = some (BitVec.ofNat 35 pa)
  otherEntries : ∀ y n, r ≠ .tlb y n → m'.entry y n = m.entry y n
  otherAtbs : ∀ i, r ≠ .atb i → fileGet m'.atb i = fileGet m.atb i
  tf : m'.tf = m.tf
  ptbp : m'.ptbp = m.ptbp
  pr : m'.pr = m.pr
  hist : m'.hist = m.hist
  owed : m'.owed = m.owed

theorem entry_setEntry_of_ref_ne {y y' : BitVec 2} {k k' : BitVec 7} (m : Mmu P) (t : TlbEntry P)
    (h : EntryRef.tlb y k ≠ .tlb y' k') : (m.setEntry y k t).entry y' k' = m.entry y' k' := by
  rw [entry_setEntry, if_neg fun ⟨hy, hk⟩ => h (by rw [hy, hk])]

theorem atb_setAtb_of_ref_ne {i j : BitVec 2} (m : Mmu P) (t : AtbEntry P) (h : EntryRef.atb i ≠ .atb j) :
    fileGet (m.setAtb i t).atb j = fileGet m.atb j := by
  rw [atb_setAtb, if_neg fun hi => h (by rw [hi])]

theorem install_writtenAt (h : install c x m cid e pte level pa free = some (m', r)) :
    m.WrittenAt c x pte pa r m' := by
  rcases install_cases h with ⟨-, -, heq⟩ | ⟨-, -, heq⟩
  · obtain ⟨rfl, rfl⟩ := Prod.mk.inj heq
    exact ⟨by simp [Mmu.trOf, ppnWidthAt], by simp [Mmu.originOf], fun _ _ hr => entry_setEntry_of_ref_ne m _ hr,
      fun _ _ => rfl, rfl, rfl, rfl, rfl, rfl⟩
  · obtain ⟨rfl, rfl⟩ := Prod.mk.inj heq
    exact ⟨by simp [Mmu.trOf, ppnWidthAt], by simp [Mmu.originOf], fun _ _ _ => rfl,
      fun _ hr => atb_setAtb_of_ref_ne m _ hr, rfl, rfl, rfl, rfl, rfl⟩

theorem Mmu.WrittenAt.trOf_of_ne (h : m.WrittenAt c x pte pa r m') {q : EntryRef} (hq : q ≠ r) :
    m'.trOf q = m.trOf q := by
  cases q with
  | tlb y n => simp only [Mmu.trOf, h.otherEntries y n hq.symm]
  | atb i => simp only [Mmu.trOf, h.otherAtbs i hq.symm]

theorem Mmu.WrittenAt.originOf_of_ne (h : m.WrittenAt c x pte pa r m') {q : EntryRef} (hq : q ≠ r) :
    m'.originOf q = m.originOf q := by
  cases q with
  | tlb y n => simp only [Mmu.originOf, h.otherEntries y n hq.symm]
  | atb i => simp only [Mmu.originOf, h.otherAtbs i hq.symm]

/-- The entry that an install writes is a page of the level that was found (R113). -/
theorem install_levelOf (h : install c x m cid e pte level pa free = some (m', r)) : m'.levelOf r = level := by
  rcases install_cases h with ⟨-, hl, heq⟩ | ⟨-, hl, heq⟩
  · obtain ⟨rfl, rfl⟩ := Prod.mk.inj heq
    rcases hl with rfl | rfl <;> simp [Mmu.levelOf]
  · obtain ⟨rfl, rfl⟩ := Prod.mk.inj heq
    rcases hl with rfl | rfl <;> simp [Mmu.levelOf]

/-! The tags that an install writes match the address it writes them for. -/

theorem tlbTagMatches_tlbTag (c : Config) (pl1 : Bool) (e : PageEa) (low : BitVec 11) :
    tlbTagMatches c pl1 (tlbTag c pl1 e low) e = true := by
  cases hw : c.eaBits with
  | ea32 =>
    have htop : (e.extractLsb' 24 8 ++ low).extractLsb' 11 8 = e.extractLsb' 24 8 := BitVec.extractLsb'_append_eq_left
    cases pl1 with
    | false => simp [tlbTagMatches, tlbTag, hw]
    | true => simpa [tlbTagMatches, tlbTag, hw] using htop
  | ea64 => simp [tlbTagMatches, tlbTag, hw]

theorem atbTagMatches_atbTag (c : Config) (ps : Bool) (e : PageEa) (hps : ps = true → c.eaBits = .ea64) :
    atbTagMatches c ps (atbTag c ps e) e = true := by
  cases hw : c.eaBits with
  | ea32 =>
    cases ps with
    | false => simp [atbTagMatches, hw]
    | true => simp [hps rfl] at hw
  | ea64 => simp [atbTagMatches, hw]

/-- Entry r matches the address, in its set. -/
def Mmu.MatchesAt (c : Config) (mc : MmuConfig) (m : Mmu P) (cid : BitVec 4) (e : PageEa) : EntryRef → Prop
  | .tlb y k => k = tlbIndex mc e ∧ tlbMatches c (m.entry y k).mr cid e = true
  | .atb i => atbMatches c (fileGet m.atb i).mr cid e = true

/-- The entry that an install writes matches the address (R113). -/
theorem install_matchesAt (hl : level ∈ (searchPath c.eaBits e).map Prod.fst)
    (h : install c x m cid e pte level pa free = some (m', r)) : m'.MatchesAt c (c.mmu x) cid e r := by
  rcases install_cases h with ⟨-, -, heq⟩ | ⟨-, -, heq⟩
  · obtain ⟨rfl, rfl⟩ := Prod.mk.inj heq
    refine ⟨rfl, ?_⟩
    simp [tlbMatches, tlbTagMatches_tlbTag]
  · obtain ⟨rfl, rfl⟩ := Prod.mk.inj heq
    have htag : atbTagMatches c (decide (level = .l0)) (atbTag c (decide (level = .l0)) e) e = true :=
      atbTagMatches_atbTag c _ e fun h0 => eaBits_of_l0_mem_searchPath (of_decide_eq_true h0 ▸ hl)
    simp [Mmu.MatchesAt, atbMatches, htag]

/-- Where nothing matched the address before, the entry that an install writes is the one match (R113, R140). -/
theorem install_lookup (hs : 1 ≤ (c.mmu x).sets) (hl : level ∈ (searchPath c.eaBits e).map Prod.fst)
    (hmiss : lookup c (c.mmu x) m cid e = .miss) (h : install c x m cid e pte level pa free = some (m', r)) :
    lookup c (c.mmu x) m' cid e = .hit r := by
  obtain ⟨hnoWay, hnoAtb⟩ := lookup_eq_miss_iff.1 hmiss
  have hw := install_writtenAt h
  have hmatch := install_matchesAt hl h
  have himpl := install_implemented hs h
  cases r with
  | tlb y k =>
    obtain ⟨rfl, hm⟩ := hmatch
    refine lookup_eq_tlb himpl.1 hm fun z hz hzw => ?_
    rw [hw.otherEntries z _ fun heq => hz (EntryRef.tlb.inj heq).1.symm]
    exact hnoWay z hzw
  | atb i =>
    have hno : NoWay c x m' cid e := fun z hz => by
      rw [hw.otherEntries z _ EntryRef.noConfusion]
      exact hnoWay z hz
    refine lookup_eq_atb hno himpl hmatch fun j hj hje => ?_
    rw [hw.otherAtbs j fun heq => hj (EntryRef.atb.inj heq).symm]
    exact hnoAtb j hje

/-- An install is refused exactly where the implementation has no place for the page (D31). -/
theorem install_eq_none_iff : install c x m cid e pte level pa free = none ↔ ¬HasPlace (c.mmu x) level := by
  cases level with
  | l2 => simp [install, HasPlace]
  | l0 => simp [install, HasPlace]
  | l1 =>
    simp only [install, HasPlace]
    split_ifs with hw ha ha <;> simp [hw, ha]

theorem exists_install (hp : HasPlace (c.mmu x) level) :
    ∃ m' r, install c x m cid e pte level pa free = some (m', r) := by
  obtain ⟨⟨m', r⟩, h⟩ := Option.ne_none_iff_exists'.1 fun hnone => install_eq_none_iff.1 hnone hp
  exact ⟨m', r, h⟩

/-- What an install leaves, as the reload agent's own step has it (R114). -/
theorem install_reloadedAt (hs : 1 ≤ (c.mmu x).sets) (hl : level ∈ (searchPath c.eaBits e).map Prod.fst)
    (h : install c x m cid e pte level pa free = some (m', r)) :
    m.ReloadedAt c x cid e pte level (BitVec.ofNat 35 pa) r m' := by
  have hw := install_writtenAt h
  have hmatch := install_matchesAt hl h
  exact {
    implemented := install_implemented hs h
    matches_ := by cases r <;> exact hmatch
    level_ := install_levelOf h
    entry := hw.entry
    origin := hw.origin
    otherEntries := hw.otherEntries
    otherAtbs := hw.otherAtbs
    tf := hw.tf
    ptbp := hw.ptbp
    pr := hw.pr
    hist := hw.hist
    owed := hw.owed }

/-- What the use of the entry just installed leaves beside its translate register (R113, R131). -/
theorem installedAt_of_usedAt {store : Bool} {m₂ : Mmu P} (hs : 1 ≤ (c.mmu x).sets)
    (hl : level ∈ (searchPath c.eaBits e).map Prod.fst) (hmiss : lookup c (c.mmu x) m cid e = .miss)
    (h : install c x m cid e pte level pa free = some (m', r)) (hu : m'.UsedAt r store m₂) :
    m.InstalledAt c x cid e level (BitVec.ofNat 35 pa) r m₂ := by
  have hw := install_writtenAt h
  exact {
    implemented := install_implemented hs h
    match_ := (hu.lookup_eq c _ cid e).trans (install_lookup hs hl hmiss h)
    level_ := (hu.levelOf_eq r).trans (install_levelOf h)
    others := fun q hq => (hu.others q hq).trans (hw.trOf_of_ne hq)
    tlbMatch := fun y n hr => hw.otherEntries y n hr ▸ hu.tlbMatch y n
    atbMatch := fun i hr => hw.otherAtbs i hr ▸ hu.atbMatch i
    origin := (hu.origin r).trans hw.origin
    otherOrigins := fun q hq => (hu.origin q).trans (hw.originOf_of_ne hq)
    owed := by
      rw [← hw.owed]
      refine hu.owed.imp id fun ⟨o, howed, hpa⟩ => ⟨o.a, o.d, ?_⟩
      rw [howed, Option.some.inj (hw.origin.symm.trans hpa)]
    tf := hu.tf.trans hw.tf
    ptbp := hu.ptbp.trans hw.ptbp
    pr := hu.pr.trans hw.pr
    hist := hu.hist.trans hw.hist }

end Install

/-- Settles O41, from what an install writes and from what it leaves. -/
theorem installedEntryIsTheMatch : Obligations.InstalledEntryIsTheMatch := by
  intro P c x m m' cid e pte level pa free r hwf hl hmiss h
  exact ⟨install_lookup (MmuConfig.wf_sets_pos (Config.wf_mmu hwf x)) hl hmiss h, install_levelOf h⟩

/-- Settles O42, from what an install writes and from what it leaves. -/
theorem installCopiesPte : Obligations.InstallCopiesPte := by
  intro P c x m m' cid e pte level pa free r h
  obtain ⟨hentry, horigin, htlb, hatb, htf, hptbp, hpr, hhist, howed⟩ := install_writtenAt h
  rw [hentry]
  exact ⟨rfl, rfl, rfl, rfl, rfl, htlb, hatb, horigin, htf, hptbp, hpr, hhist, howed⟩

/-! ### A reload inside an access, on either side -/

section Reload
variable {P : Type} {c : Config} {x : Side} {store : Bool} {ok : P → Bool} {mem : Memory} {cid : BitVec 4} {ea : Ea}
  {m m₁ : Mmu P} {draws pa : Nat} {pte : Pte} {level : PageLevel} {r : EntryRef}

/-- A permitted access after a reload: the page that was found, with the PTE's attributes (R113, R126, R133). -/
theorem translate_reload_permitted (hs : 1 ≤ (c.mmu x).sets)
    (hmiss : lookup c (c.mmu x) m cid (pageEa c.eaBits ea) = .miss) (hhw : (c.mmu x).hwReload = true)
    (hfound : search c mem m.ptbp cid (pageEa c.eaBits ea) = .found pte level pa)
    (hi : install c x m cid (pageEa c.eaBits ea) pte level pa (Config.freeBits draws) = some (m₁, r))
    (hok : ok (groupGet m.pr pte.ppi) = true) :
    ∃ m', translate c x store ok mem cid ea m draws =
        .done m' (draws + 2) (pagePa c level (cutPpn (ppnWidthAt c.layout x r) pte.ppn) ea) pte.attrs ∧
      m.InstalledAt c x cid (pageEa c.eaBits ea) level (BitVec.ofNat 35 pa) r m' ∧
      m'.owed = m.owed ++ [{ pa := BitVec.ofNat 35 pa, a := true, d := store }] ∧
      m'.trOf r = (trOfPte (ppnWidthAt c.layout x r) m.pr pte).accessed store := by
  have hl := search_found_level hfound
  have hw := install_writtenAt hi
  obtain ⟨m', huse, hacc⟩ := useEntry_permitted (c := c) (x := x) (store := store) (ok := ok) (draws := draws + 1)
    (e := pageEa c.eaBits ea) (r := r) (m := m₁) (by rw [hw.entry]; exact hok)
  refine ⟨m', ?_, installedAt_of_usedAt hs hl hmiss hi hacc.usedAt, ?_, ?_⟩
  · rw [translate_miss_found hmiss hhw hfound hi, huse, install_levelOf hi, hw.entry,
      formPa_pageEa fun h0 => eaBits_of_l0_mem_searchPath (h0 ▸ hl)]
    rfl
  · rw [hacc.owed, hw.owed, hw.origin]
    rfl
  · rw [hacc.entry, hw.entry]
    rfl

/-- A prohibited access after a reload: a page fault, with the page installed (R113, R127, R130). -/
theorem translate_reload_prohibited (hs : 1 ≤ (c.mmu x).sets)
    (hmiss : lookup c (c.mmu x) m cid (pageEa c.eaBits ea) = .miss) (hhw : (c.mmu x).hwReload = true)
    (hfound : search c mem m.ptbp cid (pageEa c.eaBits ea) = .found pte level pa)
    (hi : install c x m cid (pageEa c.eaBits ea) pte level pa (Config.freeBits draws) = some (m₁, r))
    (hok : ok (groupGet m.pr pte.ppi) = false) :
    ∃ m', translate c x store ok mem cid ea m draws = .raise m' (draws + 2) .pageFault ∧
      m.InstalledAt c x cid (pageEa c.eaBits ea) level (BitVec.ofNat 35 pa) r m' ∧
      HistoryGrows (trOfPte (ppnWidthAt c.layout x r) m.pr pte) (m'.trOf r) ∧
      (store = false → (m'.trOf r).d = pte.d) := by
  have hw := install_writtenAt hi
  obtain ⟨m', huse, hden⟩ := useEntry_prohibited (c := c) (x := x) (store := store) (ok := ok) (draws := draws + 1)
    (e := pageEa c.eaBits ea) (r := r) (m := m₁) (by rw [hw.entry]; exact hok)
  refine ⟨m', ?_, installedAt_of_usedAt hs (search_found_level hfound) hmiss hi hden.usedAt, hw.entry ▸ hden.entry,
    fun hst => ?_⟩
  · rw [translate_miss_found hmiss hhw hfound hi, huse]
  · rw [hden.dirty hst, hw.entry]
    rfl

/-- An access that matches nothing and for which the search finds a page with a place (R122, R113), permitted or not. -/
theorem translate_reload (hwf : c.wf = true) (hhw : (c.mmu x).hwReload = true) (hp : HasPlace (c.mmu x) level)
    (hnoWay : NoWay c x m cid (pageEa c.eaBits ea)) (hnoAtb : NoAtb c x m cid (pageEa c.eaBits ea))
    (hfound : search c mem m.ptbp cid (pageEa c.eaBits ea) = .found pte level pa) :
    ∃ m' r,
      m.InstalledAt c x cid (pageEa c.eaBits ea) level (BitVec.ofNat 35 pa) r m' ∧
      (ok (groupGet m.pr pte.ppi) = true →
        translate c x store ok mem cid ea m draws =
          .done m' (draws + 2) (pagePa c level (cutPpn (ppnWidthAt c.layout x r) pte.ppn) ea) pte.attrs ∧
        m'.owed = m.owed ++ [{ pa := BitVec.ofNat 35 pa, a := true, d := store }] ∧
        m'.trOf r = (trOfPte (ppnWidthAt c.layout x r) m.pr pte).accessed store) ∧
      (ok (groupGet m.pr pte.ppi) = false →
        translate c x store ok mem cid ea m draws = .raise m' (draws + 2) .pageFault ∧
        HistoryGrows (trOfPte (ppnWidthAt c.layout x r) m.pr pte) (m'.trOf r) ∧
        (store = false → (m'.trOf r).d = pte.d)) := by
  have hs := MmuConfig.wf_sets_pos (Config.wf_mmu hwf x)
  have hmiss := lookup_eq_miss_iff.2 ⟨hnoWay, hnoAtb⟩
  obtain ⟨m₁, r, hi⟩ := exists_install (m := m) (cid := cid) (e := pageEa c.eaBits ea) (pte := pte) (pa := pa)
    (free := Config.freeBits draws) hp
  cases hok : ok (groupGet m.pr pte.ppi) with
  | true =>
    obtain ⟨m', htr, hinst, hrest⟩ := translate_reload_permitted (store := store) hs hmiss hhw hfound hi hok
    exact ⟨m', r, hinst, fun _ => ⟨htr, hrest⟩, fun h => absurd h.symm Bool.false_ne_true⟩
  | false =>
    obtain ⟨m', htr, hinst, hrest⟩ := translate_reload_prohibited (store := store) hs hmiss hhw hfound hi hok
    exact ⟨m', r, hinst, fun h => absurd h Bool.false_ne_true, fun _ => ⟨htr, hrest⟩⟩

/-- Everything the reload agent's run over one half comes to, by what the search answers (R112 to R114, D31). -/
theorem reloadHalf_of_search (hwf : c.wf = true) :
    (search c mem m.ptbp cid (pageEa c.eaBits ea) = .noPte → reloadHalf c x mem cid ea draws m = .ok m) ∧
    (∀ q, search c mem m.ptbp cid (pageEa c.eaBits ea) = .stop q → reloadHalf c x mem cid ea draws m = .error q) ∧
    ∀ pte level pa, search c mem m.ptbp cid (pageEa c.eaBits ea) = .found pte level pa →
      (¬HasPlace (c.mmu x) level → reloadHalf c x mem cid ea draws m = .error .noPlaceForPage) ∧
      (HasPlace (c.mmu x) level → ∃ m' r, reloadHalf c x mem cid ea draws m = .ok m' ∧
        m.ReloadedAt c x cid (pageEa c.eaBits ea) pte level (BitVec.ofNat 35 pa) r m') := by
  refine ⟨fun h => ?_, fun q h => ?_, fun pte level pa h => ⟨fun hp => ?_, fun hp => ?_⟩⟩
  · simp only [reloadHalf, h]
  · simp only [reloadHalf, h]
  · simp only [reloadHalf, h, install_eq_none_iff.2 hp]
  · obtain ⟨m', r, hi⟩ := exists_install (m := m) (cid := cid) (e := pageEa c.eaBits ea) (pte := pte) (pa := pa)
      (free := Config.freeBits draws) hp
    refine ⟨m', r, by simp only [reloadHalf, h, hi], ?_⟩
    exact install_reloadedAt (MmuConfig.wf_sets_pos (Config.wf_mmu hwf x)) (search_found_level h) hi

end Reload

/-! ### The reload agent's step -/

section Agent
variable {s : State} {x : Side} {ea : Ea} {rest : List Input} {q : Refusal}

theorem step_reload_software (h : (s.cfg.mmu x).hwReload = false) :
    step { s with inbox := .reload x ea :: rest } = .next { s with inbox := rest } := by
  simp [step, runInput, inputReload, h]

theorem step_reload_d_of_ok {m : Mmu DProt} (hhw : (s.cfg.mmu .d).hwReload = true)
    (h : reloadHalf s.cfg .d s.mem (seenCid s.cfg s.sr.cid) ea s.draws s.dmmu = .ok m) :
    step { s with inbox := .reload .d ea :: rest } =
      .next { s with inbox := rest, dmmu := m, draws := s.draws + 1 } := by
  simp [step, runInput, inputReload, hhw, h, countDraw]

theorem step_reload_d_of_error (hhw : (s.cfg.mmu .d).hwReload = true)
    (h : reloadHalf s.cfg .d s.mem (seenCid s.cfg s.sr.cid) ea s.draws s.dmmu = .error q) :
    step { s with inbox := .reload .d ea :: rest } = .refused q := by
  simp [step, runInput, inputReload, hhw, h]

theorem step_reload_i_of_ok {m : Mmu IProt} (hhw : (s.cfg.mmu .i).hwReload = true)
    (h : reloadHalf s.cfg .i s.mem (seenCid s.cfg s.sr.cid) ea s.draws s.immu = .ok m) :
    step { s with inbox := .reload .i ea :: rest } =
      .next { s with inbox := rest, immu := m, draws := s.draws + 1 } := by
  simp [step, runInput, inputReload, hhw, h, countDraw]

theorem step_reload_i_of_error (hhw : (s.cfg.mmu .i).hwReload = true)
    (h : reloadHalf s.cfg .i s.mem (seenCid s.cfg s.sr.cid) ea s.draws s.immu = .error q) :
    step { s with inbox := .reload .i ea :: rest } = .refused q := by
  simp [step, runInput, inputReload, hhw, h]

end Agent

/-- Settles O43: a data access, a fetch, and the reload agent over each half. -/
theorem reloadTranslates : Obligations.ReloadTranslates := by
  refine ⟨fun s store ea pte level pa hwf hon hhw hp hnoWay hnoAtb hfound => ?_,
    fun s ea pte level pa hwf hon hhw hp hnoWay hnoAtb hfound => ?_,
    fun s ea rest hwf => ⟨fun hsw => step_reload_software hsw, fun hhw => ?_,
      fun hsw => step_reload_software hsw, fun hhw => ?_⟩⟩
  · obtain ⟨m, r, hinst, hyes, hno⟩ := translate_reload (x := .d) (store := store) (ok := dPermits store s.sr.mode)
      (draws := s.draws) hwf hhw hp hnoWay hnoAtb hfound
    refine ⟨m, r, hinst, fun hok => ?_, fun hok => ?_⟩
    · obtain ⟨htr, howed, hentry⟩ := hyes hok
      exact ⟨dTranslate_of_done hon htr, howed, hentry⟩
    · obtain ⟨htr, hrest⟩ := hno hok
      exact ⟨dTranslate_of_raise (f := .pageFault) hon htr, hrest⟩
  · obtain ⟨m, r, hinst, hyes, hno⟩ := translate_reload (x := .i) (store := false) (ok := iPermits s.sr.mode)
      (draws := s.draws) hwf hhw hp hnoWay hnoAtb hfound
    refine ⟨m, r, hinst, fun hok => ?_, fun hok => ?_⟩
    · obtain ⟨htr, howed, hentry⟩ := hyes hok
      refine ⟨iTranslate_of_done hon htr, howed, ?_⟩
      simpa [TransReg.accessed, trOfPte] using hentry
    · obtain ⟨htr, hgrows, hdirty⟩ := hno hok
      exact ⟨iTranslate_of_raise (f := .pageFault) hon htr, hgrows, hdirty rfl⟩
  · obtain ⟨hnoPte, hstop, hfound⟩ := reloadHalf_of_search (x := .d) (mem := s.mem) (cid := seenCid s.cfg s.sr.cid)
      (ea := ea) (m := s.dmmu) (draws := s.draws) hwf
    refine ⟨fun h => step_reload_d_of_ok hhw (hnoPte h), fun q h => step_reload_d_of_error hhw (hstop q h),
      fun pte level pa h => ⟨fun hp => step_reload_d_of_error hhw ((hfound pte level pa h).1 hp), fun hp => ?_⟩⟩
    obtain ⟨m, r, hm, hreloaded⟩ := (hfound pte level pa h).2 hp
    exact ⟨m, r, step_reload_d_of_ok hhw hm, hreloaded⟩
  · obtain ⟨hnoPte, hstop, hfound⟩ := reloadHalf_of_search (x := .i) (mem := s.mem) (cid := seenCid s.cfg s.sr.cid)
      (ea := ea) (m := s.immu) (draws := s.draws) hwf
    refine ⟨fun h => step_reload_i_of_ok hhw (hnoPte h), fun q h => step_reload_i_of_error hhw (hstop q h),
      fun pte level pa h => ⟨fun hp => step_reload_i_of_error hhw ((hfound pte level pa h).1 hp), fun hp => ?_⟩⟩
    obtain ⟨m, r, hm, hreloaded⟩ := (hfound pte level pa h).2 hp
    exact ⟨m, r, step_reload_i_of_ok hhw hm, hreloaded⟩

end Sys2Proof.Machine
end

section
/-! PROOFS. Who writes memory: the history agent (O53), with software reload no hardware (O54); and the step of an
instruction (O5). -/

namespace Sys2Proof.Machine

/-! ### A word that was written reads back -/

@[simp] theorem length_bytesOfWord (e : Endian) (w : Word) : (bytesOfWord e w).length = 4 := by cases e <;> rfl

/-- The four bytes of a word, the highest first, are the word. -/
theorem append_bytes_eq (w : Word) :
    w.extractLsb' 24 8 ++ w.extractLsb' 16 8 ++ w.extractLsb' 8 8 ++ w.extractLsb' 0 8 = w := by
  ext i hi
  simp only [BitVec.getElem_append, BitVec.getElem_extractLsb']
  split_ifs with h0 h1 h2
  · simp [BitVec.getLsbD_eq_getElem hi]
  · rw [show 8 + (i - 8) = i by omega, BitVec.getLsbD_eq_getElem hi]
  · rw [show 16 + (i - 8 - 8) = i by omega, BitVec.getLsbD_eq_getElem hi]
  · rw [show 24 + (i - 8 - 8 - 8) = i by omega, BitVec.getLsbD_eq_getElem hi]

theorem wordOfBytes_bytesOfWord (e : Endian) (w : Word) :
    wordOfBytes e ((bytesOfWord e w)[0]'(by simp)) ((bytesOfWord e w)[1]'(by simp))
      ((bytesOfWord e w)[2]'(by simp)) ((bytesOfWord e w)[3]'(by simp)) = w := by
  cases e with
  | big => exact append_bytes_eq w
  | little => exact append_bytes_eq w

/-- A word that lies inside physical memory reads back as it was written (R93). -/
theorem physRead32_physWrite32 {c : Config} {mem : Memory} (hm : mem.wf = true) {a : Nat} (ha : a + 4 ≤ 2 ^ c.paBits)
    (w : Word) : physRead32 c (physWrite32 c mem a w) a = w := by
  have hread : ∀ k (hk : k < 4), (physWrite32 c mem a w).read (physAddr c (a + k)) =
      (bytesOfWord c.endian w)[k]'(by simpa using hk) := fun k hk => by
    rw [physAddr_of_lt (by omega)]
    exact read_writeBytes_inside c hm a (bytesOfWord c.endian w) (by simpa using ha) k (by simpa using hk)
  have h0 := hread 0 (by omega)
  rw [Nat.add_zero] at h0
  rw [physRead32, h0, hread 1 (by omega), hread 2 (by omega), hread 3 (by omega)]
  exact wordOfBytes_bytesOfWord c.endian w

/-- A write of a word inside physical memory leaves every other byte alone. -/
theorem read_physWrite32_outside {c : Config} {mem : Memory} (hm : mem.wf = true) {a x : Nat}
    (ha : a + 4 ≤ 2 ^ c.paBits) (w : Word) (hx : x < a ∨ a + 4 ≤ x) :
    (physWrite32 c mem a w).read x = mem.read x := by
  refine read_writeBytes_outside c hm a _ x fun k hk => ?_
  rw [length_bytesOfWord] at hk
  rw [physAddr_of_lt (by omega)]
  omega

/-! ### A history update of one half (R131) -/

section History
variable {P : Type} {c : Config} {mem : Memory} {m : Mmu P} {k : Nat} {o : HistOwed} {a d : Bool}

/-- The update in progress after the hardware has read the PTE, to set those bits of a and d that are owed. -/
def historyLatch (c : Config) (mem : Memory) (o : HistOwed) (a d : Bool) : HistLatch :=
  { pa := o.pa, word := physRead32 c mem o.pa.toNat, a := o.a && a, d := o.d && d }

theorem readHist_of_pagePte (ho : m.owed[k]? = some o) (hbits : (o.a && a || o.d && d) = true)
    (hp : isPagePte c.layout.pte (physRead32 c mem o.pa.toNat) = true) :
    m.readHist c mem k a d =
      { m with
        owed := m.owed.set k { o with a := o.a && !a, d := o.d && !d }
        hist := m.hist ++ [historyLatch c mem o a d] } := by
  simp only [Mmu.readHist, ho, hbits, hp, Bool.and_self, if_true, historyLatch]

/-- History bits are set in the PTE of a page only (U20). -/
theorem readHist_of_not_pagePte (ho : m.owed[k]? = some o)
    (hp : isPagePte c.layout.pte (physRead32 c mem o.pa.toNat) = false) : m.readHist c mem k a d = m := by
  simp [Mmu.readHist, ho, hp]

/-- Memory after the update read at o is written: the PTE has the bits, every other byte is as it was. -/
theorem histMem_historyLatch (hm : mem.wf = true) (hpa : WordAt c o.pa) :
    physRead32 c (histMem c mem (some (historyLatch c mem o a d))) o.pa.toNat =
        (physRead32 c mem o.pa.toNat ||| putBit c.layout.pte.a (o.a && a) ||| putBit c.layout.pte.d (o.d && d)) ∧
      ∀ x, x < o.pa.toNat ∨ o.pa.toNat + 4 ≤ x →
        (histMem c mem (some (historyLatch c mem o a d))).read x = mem.read x :=
  ⟨physRead32_physWrite32 hm hpa.2 _, fun _ hx => read_physWrite32_outside hm hpa.2 _ hx⟩

/-- The read and the write of one update, where the word is the PTE of a page. -/
theorem historyUpdate (hm : mem.wf = true) (hpa : WordAt c o.pa) (ho : m.owed[k]? = some o)
    (hl : (unpackPte c.layout.pte (physRead32 c mem o.pa.toNat)).l = true)
    (hppi : (unpackPte c.layout.pte (physRead32 c mem o.pa.toNat)).ppi ≠ 0)
    (hbits : (o.a = true ∧ a = true) ∨ (o.d = true ∧ d = true)) :
    (m.readHist c mem k a d).owed[k]? = some { o with a := o.a && !a, d := o.d && !d } ∧
      physRead32 c (histMem c mem (m.readHist c mem k a d).hist[m.hist.length]?) o.pa.toNat =
        (physRead32 c mem o.pa.toNat ||| putBit c.layout.pte.a (o.a && a) ||| putBit c.layout.pte.d (o.d && d)) ∧
      (∀ x, x < o.pa.toNat ∨ o.pa.toNat + 4 ≤ x →
        (histMem c mem (m.readHist c mem k a d).hist[m.hist.length]?).read x = mem.read x) ∧
      (m.readHist c mem k a d).hist.eraseIdx m.hist.length = m.hist := by
  have hp : isPagePte c.layout.pte (physRead32 c mem o.pa.toNat) = true := by
    rw [isPagePte, hl, Bool.and_true]
    exact bne_iff_ne.2 hppi
  have hk : k < m.owed.length := (List.getElem?_eq_some_iff.1 ho).1
  rw [readHist_of_pagePte ho (by simpa using hbits) hp, List.getElem?_concat_length]
  obtain ⟨hread, hout⟩ := histMem_historyLatch (c := c) (a := a) (d := d) hm hpa
  refine ⟨List.getElem?_set_self hk, hread, hout, ?_⟩
  simp [List.eraseIdx_append_of_length_le]

/-- Where the word is not the PTE of a page the update stays owed. -/
theorem historyUpdate_none (ho : m.owed[k]? = some o)
    (hp : (unpackPte c.layout.pte (physRead32 c mem o.pa.toNat)).l = false ∨
      (unpackPte c.layout.pte (physRead32 c mem o.pa.toNat)).ppi = 0) : m.readHist c mem k a d = m := by
  refine readHist_of_not_pagePte ho ?_
  rcases hp with hl | hppi
  · simp [isPagePte, hl]
  · simp [isPagePte, hppi]

end History

section HistorySteps
variable {s : State} {k : Nat} {a d : Bool} {rest : List Input}

theorem step_historyRead_d (hhw : s.cfg.d.hwReload = true) :
    step { s with inbox := .historyRead .d k a d :: rest } =
      .next { s with inbox := rest, dmmu := s.dmmu.readHist s.cfg s.mem k a d } := by
  simp [step, runInput, inputHistoryRead, Config.mmu, hhw]

theorem step_historyRead_i (hhw : s.cfg.i.hwReload = true) :
    step { s with inbox := .historyRead .i k a d :: rest } =
      .next { s with inbox := rest, immu := s.immu.readHist s.cfg s.mem k a d } := by
  simp [step, runInput, inputHistoryRead, Config.mmu, hhw]

theorem step_historyWrite_d (hhw : s.cfg.d.hwReload = true) (hin : s.inbox = .historyWrite .d k :: rest) :
    step s = .next { s with
      inbox := rest, mem := histMem s.cfg s.mem s.dmmu.hist[k]?,
      dmmu := { s.dmmu with hist := s.dmmu.hist.eraseIdx k } } := by
  simp [step, hin, runInput, inputHistoryWrite, Config.mmu, hhw]

theorem step_historyWrite_i (hhw : s.cfg.i.hwReload = true) (hin : s.inbox = .historyWrite .i k :: rest) :
    step s = .next { s with
      inbox := rest, mem := histMem s.cfg s.mem s.immu.hist[k]?,
      immu := { s.immu with hist := s.immu.hist.eraseIdx k } } := by
  simp [step, hin, runInput, inputHistoryWrite, Config.mmu, hhw]

end HistorySteps

/-- Settles O53: in both halves the read starts the update and the write right after it ends the one it started. -/
theorem historyReachesPte : Obligations.HistoryReachesPte := by
  intro s k o a d rest hs
  refine ⟨fun hhw ho => ⟨fun hl hppi hbits => ?_, fun hp => ?_⟩, fun hhw ho => ⟨fun hl hppi hbits => ?_, fun hp => ?_⟩⟩
  · have hpa := hs.dmmu.owed o (List.mem_of_getElem? ho)
    obtain ⟨howed, hread, hout, hhist⟩ := historyUpdate hs.memWf hpa ho hl hppi hbits
    exact ⟨_, _, step_historyRead_d hhw, rfl, howed, step_historyWrite_d hhw rfl, hread, hout, hhist⟩
  · rw [step_historyRead_d hhw, historyUpdate_none ho hp]
  · have hpa := hs.immu.owed o (List.mem_of_getElem? ho)
    obtain ⟨howed, hread, hout, hhist⟩ := historyUpdate hs.memWf hpa ho hl hppi hbits
    exact ⟨_, _, step_historyRead_i hhw, rfl, howed, step_historyWrite_i hhw rfl, hread, hout, hhist⟩
  · rw [step_historyRead_i hhw, historyUpdate_none ho hp]

/-! ### What leaves memory as it was -/

section MemFrame
variable {s t : State}

theorem exec_mem {i : Instr} (h : exec i s = .next t) : t.mem = s.mem := by
  cases i with
  | mfspr d a k =>
    obtain ⟨r, -, ⟨-, rfl⟩ | ⟨-, v, -, rfl⟩⟩ := execMfspr_next h
    · rfl
    · rfl
  | mtspr a b k =>
    obtain ⟨r, -, -, ⟨-, rfl⟩ | ⟨-, v, -, rfl⟩⟩ := execMtspr_next h
    · simp
    · rfl

theorem fetchInsn_ok_mem {bytes : List Byte} (h : fetchInsn s = .ok bytes t) : t.mem = s.mem := by
  rw [fetchInsn_ok_frame h]

theorem fetchInsn_trap_mem (h : fetchInsn s = .trap t) : t.mem = s.mem := by
  obtain ⟨-, m, k, f, rfl, -⟩ := iTranslate_trap (fetchInsn_trap h)
  rfl

/-- A load writes no byte, whether it is done or raises (R222). -/
theorem inputLoad_mem {ea : Ea} {n : Nat} {dest : Option (BitVec 5 × Ea)} (h : inputLoad ea n dest s = .next t) :
    t.mem = s.mem := by
  rcases dataAccess_next h with hf | ⟨b, u, hf, ha | ⟨parts, w, ha, rfl⟩⟩
  · exact fetchInsn_trap_mem hf
  · have hu : u.mem = s.mem := fetchInsn_ok_mem hf
    obtain ⟨m, k, f, ea', rfl⟩ := translateAccess_trap ha
    exact hu
  · have hu : u.mem = s.mem := fetchInsn_ok_mem hf
    rw [advance_mem, loadAct_mem, translateAccess_ok ha]
    exact hu

theorem inputReload_mem {x : Side} {ea : Ea} (h : inputReload x ea s = .next t) : t.mem = s.mem := by
  rcases inputReload_next h with ⟨-, rfl⟩ | ⟨-, ⟨-, m, -, rfl⟩ | ⟨-, m, -, rfl⟩⟩ <;> rfl

theorem inputHistoryRead_mem (x : Side) (k : Nat) (a d : Bool) (s : State) :
    (inputHistoryRead x k a d s).mem = s.mem := by
  unfold inputHistoryRead
  split
  · cases x <;> rfl
  · rfl

/-- With software reload the history agent does not exist (R102). -/
theorem inputHistoryWrite_software {x : Side} (k : Nat) (hsw : (s.cfg.mmu x).hwReload = false) :
    inputHistoryWrite x k s = s := by
  simp [inputHistoryWrite, hsw]

theorem coreAct_mem (act : CoreAct) (s : State) : (coreAct act s).mem = s.mem := by rw [coreAct_eq]

theorem inputInsn_mem {act : CoreAct} (h : inputInsn act s = .next t) : t.mem = s.mem := by
  rcases inputInsn_next h with hf | ⟨b, u, hf, rfl⟩
  · exact fetchInsn_trap_mem hf
  · have hu : u.mem = s.mem := fetchInsn_ok_mem hf
    rw [coreAct_mem]
    split <;> exact hu

/-- With software reload, of all inputs only a store and a write of another processor write memory (R102, R131). -/
theorem runInput_mem (hsw : ∀ x, (s.cfg.mmu x).hwReload = false) {e : Input} (hstore : ∀ ea bytes, e ≠ .store ea bytes)
    (hforeign : ∀ a bytes, e ≠ .foreignWrite a bytes) (h : runInput e s = .next t) : t.mem = s.mem := by
  cases e with
  | load ea n dest => exact inputLoad_mem h
  | store ea bytes => exact absurd rfl (hstore ea bytes)
  | reload x ea => exact inputReload_mem h
  | historyRead x k a d => cases h; exact inputHistoryRead_mem x k a d s
  | historyWrite x k => cases h; rw [inputHistoryWrite_software k (hsw x)]
  | foreignWrite a bytes => exact absurd rfl (hforeign a bytes)
  | insn act => exact inputInsn_mem h
  | core act => cases h; exact coreAct_mem act s

end MemFrame

/-- Settles O54, by what the step runs: an input, a fetch that raises, or an instruction. -/
theorem softwareReloadNeverWritesMemory : Obligations.SoftwareReloadNeverWritesMemory := by
  intro s t hd hi hstep hstore hforeign
  rcases step_next hstep with ⟨e, rest, hin, hr⟩ | ⟨-, hf⟩ | ⟨-, bytes, u, i, rest, hf, -, he⟩
  · have hsw : ∀ x, (s.cfg.mmu x).hwReload = false := fun x => by cases x <;> assumption
    refine runInput_mem (s := { s with inbox := rest }) hsw (fun ea bytes heq => ?_) (fun a bytes heq => ?_) hr
    · exact hstore ea bytes rest (heq ▸ hin)
    · exact hforeign a bytes rest (heq ▸ hin)
  · exact fetchInsn_trap_mem hf
  · exact (exec_mem he).trans (fetchInsn_ok_mem hf)

/-! ### The step of an instruction (R141) -/

section Fetch
variable {s t u : State}

theorem fetchInsn_of_ok {pa : Pa} {at' : Attrs} (hal : (truncEa s.cfg.eaBits s.pc).extractLsb' 0 2 = 0)
    (h : iTranslate (truncEa s.cfg.eaBits s.pc) s = .ok (pa, at') u) :
    fetchInsn s = .ok (readBytes u.cfg u.mem pa.toNat 4)
      { u with
        bus :=
          [{ kind := .fetch, ea := truncEa s.cfg.eaBits s.pc, pa := pa, attrs := at',
             data := readBytes u.cfg u.mem pa.toNat 4 }] } := by
  simp only [fetchInsn, hal, h, if_true]

theorem fetchInsn_of_trap (hal : (truncEa s.cfg.eaBits s.pc).extractLsb' 0 2 = 0)
    (h : iTranslate (truncEa s.cfg.eaBits s.pc) s = .trap t) : fetchInsn s = .trap t := by
  simp only [fetchInsn, hal, h, if_true]

/-- With an empty inbox, a fetch that goes through and a word that decodes, the step is the instruction. -/
theorem step_of_fetch_ok {bytes : List Byte} {i : Instr} {rest : List Byte} (hin : s.inbox = [])
    (hf : fetchInsn s = .ok bytes u) (hd : decode u.cfg.endian bytes = some (i, rest)) : step s = exec i u := by
  simp only [step, hin, hf, hd]

theorem step_of_fetch_trap (hin : s.inbox = []) (hf : fetchInsn s = .trap t) : step s = .next t := by
  simp only [step, hin, hf]

end Fetch

/-- Settles O5: the step goes as its fetch does. -/
theorem stepRunsDecodedInstruction : Obligations.StepRunsDecodedInstruction := by
  refine ⟨fun s u pa at' i rest hin hal h hd => ?_, fun s t hin hal h => ?_⟩
  · exact step_of_fetch_ok hin (fetchInsn_of_ok hal h) hd
  · exact step_of_fetch_trap hin (fetchInsn_of_trap hal h)

end Sys2Proof.Machine
end

section
/-! PROOFS. The encoding (30_encoding.md): the decoder and the encoder are inverse to each other (O1, O2, O3), every other
major opcode is refused (O4), and every register stands at its address (O6). -/

namespace Sys2Proof

/-! ### The bytes of a word (R93, R143) -/

theorem wordOfBytes_little (b0 b1 b2 b3 : Byte) : wordOfBytes .little b0 b1 b2 b3 = wordOfBytes .big b3 b2 b1 b0 := rfl

/-- A word is its four bytes put together. -/
theorem wordOfBytes_extractLsb' (w : Word) :
    wordOfBytes .big (w.extractLsb' 24 8) (w.extractLsb' 16 8) (w.extractLsb' 8 8) (w.extractLsb' 0 8) = w := by
  simp (disch := decide) only [wordOfBytes, BitVec.extractLsb'_append_extractLsb'_eq_extractLsb']
  exact BitVec.extractLsb'_eq_self

theorem decode_cons4 (e : Endian) (b0 b1 b2 b3 : Byte) (rest : List Byte) :
    decode e (b0 :: b1 :: b2 :: b3 :: rest) = (decodeWord (wordOfBytes e b0 b1 b2 b3)).map (·, rest) := by
  simp only [decode]
  cases decodeWord (wordOfBytes e b0 b1 b2 b3) <;> rfl

/-- The decoder reads the bytes of a word as that word, in either byte order. -/
theorem decode_bytesOfWord (e : Endian) (w : Word) (rest : List Byte) :
    decode e (bytesOfWord e w ++ rest) = (decodeWord w).map (·, rest) := by
  cases e with
  | big => simp only [bytesOfWord, List.cons_append, List.nil_append, decode_cons4, wordOfBytes_extractLsb']
  | little =>
    simp only [bytesOfWord, List.cons_append, List.nil_append, decode_cons4, wordOfBytes_little, wordOfBytes_extractLsb']

/-! ### What a word decodes to, by its major opcode (R163 to R166) -/

section DecodeWord
variable {w : Word}

theorem decodeWord_of_mfspr (h : w.extractLsb' 26 6 = 0x2D#6) :
    decodeWord w = some (.mfspr (w.extractLsb' 21 5) (w.extractLsb' 16 5) (w.extractLsb' 0 16)) := if_pos h

theorem decodeWord_of_mtspr (h : w.extractLsb' 26 6 = 0x30#6) :
    decodeWord w =
      some (.mtspr (w.extractLsb' 16 5) (w.extractLsb' 11 5) (w.extractLsb' 21 5 ++ w.extractLsb' 0 11)) := by
  rw [decodeWord, h, if_neg (by decide), if_pos rfl]

theorem decodeWord_of_other (hmfspr : w.extractLsb' 26 6 ≠ 0x2D#6) (hmtspr : w.extractLsb' 26 6 ≠ 0x30#6) :
    decodeWord w = none := by
  rw [decodeWord, if_neg hmfspr, if_neg hmtspr]

/-- A word of the format of R163 is put together from its opcode and its operands. -/
theorem encodeWord_mfspr_extractLsb' (h : w.extractLsb' 26 6 = 0x2D#6) :
    encodeWord (.mfspr (w.extractLsb' 21 5) (w.extractLsb' 16 5) (w.extractLsb' 0 16)) = w := by
  simp (disch := decide) only [encodeWord, ← h, BitVec.extractLsb'_append_extractLsb'_eq_extractLsb']
  exact BitVec.extractLsb'_eq_self

/-- A word of the format of R164 is put together from its opcode, its registers and the two parts of K (R165). -/
theorem encodeWord_mtspr_extractLsb' (h : w.extractLsb' 26 6 = 0x30#6) :
    encodeWord (.mtspr (w.extractLsb' 16 5) (w.extractLsb' 11 5) (w.extractLsb' 21 5 ++ w.extractLsb' 0 11)) = w := by
  rw [encodeWord, ← h, BitVec.extractLsb'_append_eq_left, BitVec.extractLsb'_append_eq_right]
  simp (disch := decide) only [BitVec.extractLsb'_append_extractLsb'_eq_extractLsb']
  exact BitVec.extractLsb'_eq_self

end DecodeWord

/-! ### Decoding the word of an instruction -/

/-- Each operand is read back from its own field; K of `l.mtspr` from its two parts (R165). -/
theorem decodeWord_encodeWord (i : Instr) : decodeWord (encodeWord i) = some i := by
  cases i with
  | mfspr d a k =>
    rw [decodeWord_of_mfspr (Laws.FixedBits.mfspr d a k)]
    simp (disch := decide) only [encodeWord, BitVec.extractLsb'_append_eq_of_le, BitVec.extractLsb'_append_eq_of_add_le,
      BitVec.extractLsb'_eq_self, Nat.reduceSub]
  | mtspr a b k =>
    have hk : k.extractLsb' 11 5 ++ k.extractLsb' 0 11 = k :=
      (BitVec.extractLsb'_append_extractLsb'_eq_extractLsb' rfl).trans BitVec.extractLsb'_eq_self
    rw [decodeWord_of_mtspr (Laws.FixedBits.mtspr a b k)]
    simp (disch := decide) only [encodeWord, BitVec.extractLsb'_append_eq_of_le, BitVec.extractLsb'_append_eq_of_add_le,
      BitVec.extractLsb'_eq_self, Nat.reduceSub, hk]

theorem decodeTableWord_encodeWord (i : Instr) : decodeTableWord 32 (encodeWord i).toNat = some i := by
  have hdecode := decode_bytesOfWord .big (encodeWord i) []
  rw [List.append_nil, decodeWord_encodeWord, Option.map_some] at hdecode
  rw [decodeTableWord, Nat.mod_eq_of_lt (encodeWord i).isLt, BitVec.ofNat_toNat, BitVec.setWidth_eq, hdecode]

/-- Settles O1: the decoder reads the word back from its bytes, and the instruction from the word. -/
theorem decodeInvertsEncode : Obligations.DecodeInvertsEncode := by
  intro e i rest
  calc decode e (encode e i ++ rest) = (decodeWord (encodeWord i)).map (·, rest) := decode_bytesOfWord e _ rest
    _ = some (i, rest) := by rw [decodeWord_encodeWord, Option.map_some]

/-- Settles O2, by the major opcode: the fields of a word fill it. -/
theorem encodeInvertsDecode : Obligations.EncodeInvertsDecode := by
  intro w i hi
  by_cases hmfspr : w.extractLsb' 26 6 = 0x2D#6
  · cases (decodeWord_of_mfspr hmfspr).symm.trans hi
    exact encodeWord_mfspr_extractLsb' hmfspr
  by_cases hmtspr : w.extractLsb' 26 6 = 0x30#6
  · cases (decodeWord_of_mtspr hmtspr).symm.trans hi
    exact encodeWord_mtspr_extractLsb' hmtspr
  · cases (decodeWord_of_other hmfspr hmtspr).symm.trans hi

/-- Settles O3: each word is the word of its instruction. -/
theorem specWordsDecode : Obligations.SpecWordsDecode :=
  ⟨decodeTableWord_encodeWord (.mfspr 5 0 0x0A00), decodeTableWord_encodeWord (.mfspr 1 1 0x0801),
    decodeTableWord_encodeWord (.mfspr 31 31 0xFFFF), decodeTableWord_encodeWord (.mtspr 0 3 0x0A22),
    decodeTableWord_encodeWord (.mtspr 0 4 0x1281), decodeTableWord_encodeWord (.mtspr 31 31 0xFFFF)⟩

end Sys2Proof

namespace Sys2Proof.Machine

/-! ### Words of other major opcodes (R166) -/

theorem step_of_decode_none {s u : State} {bytes : List Byte} (hin : s.inbox = []) (hf : fetchInsn s = .ok bytes u)
    (hd : decode u.cfg.endian bytes = none) : step s = .refused .outsideOpcodeTable := by
  simp only [step, hin, hf, hd]

/-- Settles O4: a word of another major opcode decodes to no instruction. -/
theorem otherOpcodesRefused : Obligations.OtherOpcodesRefused := by
  intro s u b0 b1 b2 b3 hin hf hmfspr hmtspr
  refine step_of_decode_none hin hf ?_
  rw [decode_cons4, decodeWord_of_other hmfspr hmtspr, Option.map_none]

/-! ### The addresses of the registers (R161, R21 to R23) -/

section Address
variable {n : Nat}

theorem ofNat_eq_of_mod_eq {w : Nat} {v : BitVec w} (h : n % 2 ^ w = v.toNat) : BitVec.ofNat w n = v :=
  BitVec.eq_of_toNat_eq ((BitVec.toNat_ofNat n w).trans h)

theorem extractLsb'_group (g : Nat) (hn : n < 2 ^ 11) :
    (BitVec.ofNat 16 (g * 2 ^ 11 + n)).extractLsb' 11 5 = BitVec.ofNat 5 g := by
  apply BitVec.eq_of_toNat_eq
  rw [BitVec.extractLsb'_toNat, BitVec.toNat_ofNat, BitVec.toNat_ofNat, Nat.shiftRight_eq_div_pow]
  omega

theorem extractLsb'_number (g : Nat) :
    (BitVec.ofNat 16 (g * 2 ^ 11 + n)).extractLsb' 0 11 = BitVec.ofNat 11 n := by
  apply BitVec.eq_of_toNat_eq
  rw [BitVec.extractLsb'_toNat, BitVec.toNat_ofNat, BitVec.toNat_ofNat, Nat.shiftRight_zero]
  omega

theorem sprOf_of_group_d {c : Config} {addr : BitVec 16} (h : addr.extractLsb' 11 5 = 1) :
    sprOf c addr = sprOfNumber .d (addr.extractLsb' 0 11) := if_pos h

theorem sprOf_of_group_i {c : Config} {addr : BitVec 16} (h : addr.extractLsb' 11 5 = 2) :
    sprOf c addr = sprOfNumber .i (addr.extractLsb' 0 11) := by
  rw [sprOf, h]
  rfl

/-- The group of an address picks the half, its low 11 bits the number (R161). -/
theorem sprOf_sprAt (c : Config) (x : Side) (hn : n < 2 ^ 11) :
    sprOf c (sprAt x n) = sprOfNumber x (BitVec.ofNat 11 n) := by
  cases x with
  | d => exact (sprOf_of_group_d (extractLsb'_group 1 hn)).trans (congrArg _ (extractLsb'_number 1))
  | i => exact (sprOf_of_group_i (extractLsb'_group 2 hn)).trans (congrArg _ (extractLsb'_number 2))

theorem sprOfNumber_atbmr (x : Side) (h4 : 4 ≤ n) (h7 : n ≤ 7) :
    sprOfNumber x (BitVec.ofNat 11 n) = some (.atbmr x (BitVec.ofNat 2 n)) := by
  interval_cases n <;> rfl

theorem sprOfNumber_atbtr (x : Side) (h8 : 8 ≤ n) (h11 : n ≤ 11) :
    sprOfNumber x (BitVec.ofNat 11 n) = some (.atbtr x (BitVec.ofNat 2 n)) := by
  interval_cases n <;> rfl

/-- Numbers 512 to 1535 are the TLB entries: 256 numbers for each way, the match registers before the translate
registers, the set in bits 6:0 (R21, R22). -/
theorem sprOfNumber_tlb (x : Side) (h512 : 512 ≤ n) (h1535 : n ≤ 1535) :
    sprOfNumber x (BitVec.ofNat 11 n) =
      if n / 128 % 2 = 1 then some (.tlbtr x (BitVec.ofNat 2 ((n - 512) / 256)) (BitVec.ofNat 7 n))
      else some (.tlbmr x (BitVec.ofNat 2 ((n - 512) / 256)) (BitVec.ofNat 7 n)) := by
  have hn : (BitVec.ofNat 11 n).toNat = n := by rw [BitVec.toNat_ofNat]; omega
  have hne : ∀ m < 512, BitVec.ofNat 11 n ≠ BitVec.ofNat 11 m := by
    intro m hm heq
    have := congrArg BitVec.toNat heq
    rw [hn, BitVec.toNat_ofNat] at this
    omega
  have hset : (BitVec.ofNat 11 n).extractLsb' 0 7 = BitVec.ofNat 7 n := by
    apply BitVec.eq_of_toNat_eq
    simp only [BitVec.extractLsb'_toNat, hn, Nat.shiftRight_zero, BitVec.toNat_ofNat]
  have hbit : (BitVec.ofNat 11 n).getLsbD 7 = decide (n / 128 % 2 = 1) := by
    rw [BitVec.getLsbD, hn, Nat.testBit_eq_decide_div_mod_eq]
  have h0 : BitVec.ofNat 11 n ≠ 0 := hne 0 (by omega)
  have h1 : BitVec.ofNat 11 n ≠ 1 := hne 1 (by omega)
  have h2 : BitVec.ofNat 11 n ≠ 2 := hne 2 (by omega)
  rw [sprOfNumber, if_neg h0, if_neg h1, if_neg h2, hn, if_neg (by omega), if_neg (by omega), if_pos ⟨h512, h1535⟩]
  simp only [hbit, hset, decide_eq_true_eq]

/-- The match (t = 0) or translate (t = 1) register of way y and set k stands at its address. -/
theorem sprOf_sprAt_tlb (c : Config) (x : Side) (y : BitVec 2) (k : BitVec 7) {t : Nat} (ht : t < 2)
    (hn : n = 512 + 256 * y.toNat + 128 * t + k.toNat) :
    sprOf c (sprAt x n) = some (if t = 1 then .tlbtr x y k else .tlbmr x y k) := by
  have hkind : n / 128 % 2 = t := by omega
  have hway : BitVec.ofNat 2 ((n - 512) / 256) = y := ofNat_eq_of_mod_eq (by omega)
  have hset : BitVec.ofNat 7 n = k := ofNat_eq_of_mod_eq (by omega)
  rw [sprOf_sprAt c x (by omega), sprOfNumber_tlb x (by omega) (by omega), hkind, hway, hset, apply_ite some]

end Address

/-- Settles O6, one band of numbers after another. -/
theorem registerAddresses : Obligations.RegisterAddresses := by
  intro c x y k i
  have hmr : BitVec.ofNat 2 (4 + i.toNat) = i := ofNat_eq_of_mod_eq (by omega)
  have htr : BitVec.ofNat 2 (8 + i.toNat) = i := ofNat_eq_of_mod_eq (by omega)
  refine ⟨sprOf_sprAt c x (by omega), sprOf_sprAt c x (by omega), sprOf_sprAt c x (by omega), ?_, ?_,
    sprOf_sprAt_tlb c x y k (t := 0) (by decide) (by omega),
    sprOf_sprAt_tlb c x y k (t := 1) (by decide) (by omega)⟩
  · rw [sprOf_sprAt c x (by omega), sprOfNumber_atbmr x (by omega) (by omega), hmr]
  · rw [sprOf_sprAt c x (by omega), sprOfNumber_atbtr x (by omega) (by omega), htr]

end Sys2Proof.Machine
end

section
/-! PROOFS. The named fields of a register word (R27): a word put together from fields that lie apart, with any bits
elsewhere, is taken apart into the same fields. -/

namespace Sys2Proof.Machine

/-! ### Fields placed in a word -/

/-- A value of `width` bits whose lowest bit stands at `lo`. -/
structure PlacedField where
  width : Nat
  lo : Nat
  val : BitVec width

/-- A field of one bit. -/
def PlacedField.bit (i : Nat) (b : Bool) : PlacedField := ⟨1, i, BitVec.ofBool b⟩

/-- The place of a field, as `fieldsApart` speaks of it. -/
def PlacedField.place (f : PlacedField) : Nat × Nat := (f.lo, f.width)

/-- The field with every bit set. -/
def PlacedField.ones (f : PlacedField) : PlacedField := { f with val := .allOnes f.width }

/-- The word that holds the fields and 0 elsewhere. -/
def orFields (fs : List PlacedField) : Word := fs.foldr (fun f w => putField f.lo f.val ||| w) 0

/-- Every one of the fields reads as its value. -/
def Reads (w : Word) (fs : List PlacedField) : Prop := ∀ f ∈ fs, getField f.width w f.lo = f.val

section Placed
variable {w : Word} {f : PlacedField} {fs gs : List PlacedField}

@[simp] theorem orFields_nil : orFields [] = 0 := rfl

@[simp] theorem orFields_cons (f : PlacedField) (fs : List PlacedField) :
    orFields (f :: fs) = putField f.lo f.val ||| orFields fs := rfl

theorem putField_bit (i : Nat) (b : Bool) :
    putField (PlacedField.bit i b).lo (PlacedField.bit i b).val = putBit i b := rfl

@[simp] theorem ones_bit (i : Nat) (b : Bool) : (PlacedField.bit i b).ones = .bit i true := rfl

@[simp] theorem ones_mk {n : Nat} (lo : Nat) (v : BitVec n) : (PlacedField.mk n lo v).ones = ⟨n, lo, .allOnes n⟩ := rfl

theorem orFields_append (fs gs : List PlacedField) : orFields (fs ++ gs) = orFields fs ||| orFields gs := by
  induction fs with
  | nil => simp
  | cons f fs ih => simp only [List.cons_append, orFields_cons, ih, BitVec.or_assoc]

theorem orFields_flatMap {α : Type} (l : List α) (g : α → List PlacedField) :
    orFields (l.flatMap g) = (l.map fun q => orFields (g q)).foldr (· ||| ·) 0 := by
  induction l with
  | nil => rfl
  | cons q l ih => rw [List.flatMap_cons, orFields_append, ih, List.map_cons, List.foldr_cons]

@[simp] theorem reads_nil : Reads w [] := fun _ hf => absurd hf List.not_mem_nil

@[simp] theorem reads_cons : Reads w (f :: fs) ↔ getField f.width w f.lo = f.val ∧ Reads w fs := List.forall_mem_cons

@[simp] theorem reads_append : Reads w (fs ++ gs) ↔ Reads w fs ∧ Reads w gs := List.forall_mem_append

theorem getField_one (w : Word) (i : Nat) : getField 1 w i = BitVec.ofBool (getBit w i) := by
  ext j hj
  obtain rfl : j = 0 := by omega
  simp [getField, getBit]

@[simp] theorem getField_bit (i : Nat) (b : Bool) :
    getField (PlacedField.bit i b).width w (PlacedField.bit i b).lo = (PlacedField.bit i b).val ↔ getBit w i = b := by
  refine (iff_of_eq (congrArg (· = BitVec.ofBool b) (getField_one w i))).trans ?_
  cases getBit w i <;> cases b <;> decide

/-- Fields that lie apart from a place leave it 0. -/
theorem getField_orFields_apart {n lo : Nat} (hin : ∀ g ∈ fs, g.lo + g.width ≤ 32)
    (hap : ∀ g ∈ fs, lo + n ≤ g.lo ∨ g.lo + g.width ≤ lo) : getField n (orFields fs) lo = 0 := by
  induction fs with
  | nil => simp [getField]
  | cons g fs ih =>
    obtain ⟨hg, hin⟩ := List.forall_mem_cons.1 hin
    obtain ⟨hlo, hap⟩ := List.forall_mem_cons.1 hap
    rw [orFields_cons, getField_or, getField_putField_outside _ _ _ hg hlo, ih hin hap, BitVec.or_self]

theorem fieldsApart_cons {p : Nat × Nat} {l : List (Nat × Nat)} (h : fieldsApart (p :: l) = true) :
    p.1 + p.2 ≤ 32 ∧ (∀ q ∈ l, q.1 + q.2 ≤ 32) ∧ (∀ q ∈ l, p.1 + p.2 ≤ q.1 ∨ q.1 + q.2 ≤ p.1) ∧
      fieldsApart l = true := by
  simp only [fieldsApart, List.all_cons, Bool.and_eq_true, List.all_eq_true, decide_eq_true_eq,
    List.pairwise_cons] at h ⊢
  obtain ⟨⟨hp, hl⟩, hap, hpw⟩ := h
  exact ⟨hp, hl, hap, hl, hpw⟩

/-- Fields that lie apart all read back from the word that holds them (R27), by induction on the fields. -/
theorem reads_orFields (h : fieldsApart (fs.map PlacedField.place) = true) : Reads (orFields fs) fs := by
  induction fs with
  | nil => exact reads_nil
  | cons f fs ih =>
    obtain ⟨hf, hin, hap, hrest⟩ := fieldsApart_cons h
    simp only [List.forall_mem_map, PlacedField.place] at hf hin hap
    have hself : getField f.width (orFields (f :: fs)) f.lo = f.val := by
      rw [orFields_cons, getField_or, getField_putField_self _ _ hf, getField_orFields_apart hin hap]
      exact BitVec.or_zero
    have hothers : Reads (orFields (f :: fs)) fs := fun g hg => by
      rw [orFields_cons, getField_or, ih hrest g hg, getField_putField_outside _ _ _ hf (hap g hg).symm]
      exact BitVec.zero_or
    exact reads_cons.2 ⟨hself, hothers⟩

theorem map_place_map_ones : (fs.map PlacedField.ones).map PlacedField.place = fs.map PlacedField.place := by
  rw [List.map_map]
  rfl

/-- Bits that are free outside the named fields change no named field (R190). -/
theorem reads_openWord (h : fieldsApart (fs.map PlacedField.place) = true) (free : BitVec 64) :
    Reads (openWord (orFields fs) (orFields (fs.map .ones)) free) fs := by
  intro f hf
  have hmask : getField f.width (orFields (fs.map .ones)) f.lo = .allOnes f.width :=
    reads_orFields (map_place_map_ones.symm ▸ h) f.ones (List.mem_map_of_mem hf)
  rw [getField_openWord _ _ _ _ _ hmask]
  exact reads_orFields h f hf

end Placed

/-! ### Match registers (R36, R44) -/

section Match
variable {w : Word}

/-- The fields of a TLB match register, at their places. -/
def mrFields (p : MrPos) (m : TlbMatch) : List PlacedField :=
  [.bit p.v m.v, .bit p.pl1 m.pl1, ⟨4, p.cid, m.cid⟩, ⟨2, p.lru, m.lru⟩, ⟨19, p.vpn, m.vpn⟩]

/-- The fields of an ATB match register, at their places. -/
def amrFields (p : AmrPos) (m : AtbMatch) : List PlacedField :=
  [.bit p.v m.v, ⟨4, p.cid, m.cid⟩, .bit p.ps m.ps, ⟨22, p.vpn, m.vpn⟩]

theorem packMr_eq (p : MrPos) (m : TlbMatch) : packMr p m = orFields (mrFields p m) := by
  simp [packMr, mrFields, putField_bit, BitVec.or_assoc]

theorem packAmr_eq (p : AmrPos) (m : AtbMatch) : packAmr p m = orFields (amrFields p m) := by
  simp [packAmr, amrFields, putField_bit, BitVec.or_assoc]

theorem maskMr_eq (p : MrPos) (m : TlbMatch) : maskMr p = orFields ((mrFields p m).map .ones) := packMr_eq p _

theorem maskAmr_eq (p : AmrPos) (m : AtbMatch) : maskAmr p = orFields ((amrFields p m).map .ones) := packAmr_eq p _

theorem unpackMr_of_reads {p : MrPos} {m : TlbMatch} (h : Reads w (mrFields p m)) : unpackMr p w = m := by
  simp only [mrFields, reads_cons, getField_bit] at h
  obtain ⟨hv, hpl1, hcid, hlru, hvpn, -⟩ := h
  simp only [unpackMr, hv, hpl1, hcid, hlru, hvpn]

theorem unpackAmr_of_reads {p : AmrPos} {m : AtbMatch} (h : Reads w (amrFields p m)) : unpackAmr p w = m := by
  simp only [amrFields, reads_cons, getField_bit] at h
  obtain ⟨hv, hcid, hps, hvpn, -⟩ := h
  simp only [unpackAmr, hv, hcid, hps, hvpn]

theorem unpackMr_openWord {p : MrPos} (h : fieldsApart p.fields = true) (m : TlbMatch) (free : BitVec 64) :
    unpackMr p (openWord (packMr p m) (maskMr p) free) = m := by
  rw [packMr_eq, maskMr_eq p m]
  exact unpackMr_of_reads (reads_openWord (fs := mrFields p m) h free)

theorem unpackAmr_openWord {p : AmrPos} (h : fieldsApart p.fields = true) (m : AtbMatch) (free : BitVec 64) :
    unpackAmr p (openWord (packAmr p m) (maskAmr p) free) = m := by
  rw [packAmr_eq, maskAmr_eq p m]
  exact unpackAmr_of_reads (reads_openWord (fs := amrFields p m) h free)

end Match

/-! ### Protection bits -/

section Prot
variable {w : Word}

/-- The protection bits of one group on the data side, at their places. -/
def dProtFields (p : DProtPos) (t : DProt) : List PlacedField :=
  [.bit p.sre t.sre, .bit p.swe t.swe, .bit p.ure t.ure, .bit p.uwe t.uwe]

/-- The protection bits of one group on the instruction side, at their places. -/
def iProtFields (p : IProtPos) (t : IProt) : List PlacedField := [.bit p.sxe t.sxe, .bit p.uxe t.uxe]

theorem packDProt_eq (p : DProtPos) (t : DProt) : packDProt p t = orFields (dProtFields p t) := by
  simp [packDProt, dProtFields, putField_bit, BitVec.or_assoc]

theorem packIProt_eq (p : IProtPos) (t : IProt) : packIProt p t = orFields (iProtFields p t) := by
  simp [packIProt, iProtFields, putField_bit]

theorem maskDProt_eq (p : DProtPos) (t : DProt) : maskDProt p = orFields ((dProtFields p t).map .ones) :=
  packDProt_eq p _

theorem maskIProt_eq (p : IProtPos) (t : IProt) : maskIProt p = orFields ((iProtFields p t).map .ones) :=
  packIProt_eq p _

theorem unpackDProt_of_reads {p : DProtPos} {t : DProt} (h : Reads w (dProtFields p t)) : unpackDProt p w = t := by
  simp only [dProtFields, reads_cons, getField_bit] at h
  obtain ⟨hsre, hswe, hure, huwe, -⟩ := h
  simp only [unpackDProt, hsre, hswe, hure, huwe]

theorem unpackIProt_of_reads {p : IProtPos} {t : IProt} (h : Reads w (iProtFields p t)) : unpackIProt p w = t := by
  simp only [iProtFields, reads_cons, getField_bit] at h
  obtain ⟨hsxe, huxe, -⟩ := h
  simp only [unpackIProt, hsxe, huxe]

end Prot

/-! ### Protection registers (R31, R34) -/

section Groups
variable {P Q : Type} {n : Nat}

/-- The fields of all groups, where `fields` gives those of one group at its positions. -/
def groupFields (fields : Q → P → List PlacedField) (p : Vector Q n) (g : Vector P n) : List PlacedField :=
  (p.toList.zip g.toList).flatMap fun q => fields q.1 q.2

/-- The fields of group k are among the fields of all groups. -/
theorem Reads.group {w : Word} {fields : Q → P → List PlacedField} {p : Vector Q n} {g : Vector P n}
    (h : Reads w (groupFields fields p g)) (k : Nat) (hk : k < n) : Reads w (fields p[k] g[k]) := by
  intro f hf
  have hmem : (p[k], g[k]) ∈ p.toList.zip g.toList :=
    List.mem_of_getElem (i := k) (h := by simpa using hk) (by simp)
  exact h f (List.mem_flatMap.2 ⟨_, hmem, hf⟩)

/-- What is made of the first component of each pair is made of the positions. -/
theorem flatMap_zip_fst {β : Type} (p : Vector Q n) (g : Vector P n) (f : Q → List β) :
    ((p.toList.zip g.toList).flatMap fun q => f q.1) = p.toList.flatMap f := by
  rw [← List.flatMap_map Prod.fst f, List.map_fst_zip (by simp)]

theorem place_groupFields {fields : Q → P → List PlacedField} {pos : Q → List (Nat × Nat)}
    (hpos : ∀ q t, (fields q t).map PlacedField.place = pos q) (p : Vector Q n) (g : Vector P n) :
    (groupFields fields p g).map PlacedField.place = p.toList.flatMap pos := by
  simp only [groupFields, List.map_flatMap, hpos, flatMap_zip_fst]

theorem ones_groupFields {fields : Q → P → List PlacedField} {t₁ : P}
    (hones : ∀ q t, (fields q t).map .ones = fields q t₁) (p : Vector Q n) (g : Vector P n) :
    (groupFields fields p g).map .ones = p.toList.flatMap fun q => fields q t₁ := by
  simp only [groupFields, List.map_flatMap, hones, flatMap_zip_fst p g fun q => fields q t₁]

theorem groupsOf_getElem (f : Nat → P) (k : Nat) (hk : k < 7) : (groupsOf f)[k] = f (k + 1) := by
  interval_cases k <;> rfl

theorem groupGet_ofNat (g : Vector P 7) (k : Nat) (hk : k < 7) : groupGet g (BitVec.ofNat 3 (k + 1)) = g[k] := by
  interval_cases k <;> rfl

/-- Seven groups, each taken from a word as it stands there. -/
theorem groupsOf_eq {f : Nat → P} {g : Vector P 7} (h : ∀ k (hk : k < 7), f (k + 1) = g[k]) : groupsOf f = g :=
  Vector.ext fun k hk => (groupsOf_getElem f k hk).trans (h k hk)

theorem packDpr_eq (p : Vector DProtPos 7) (g : Vector DProt 7) :
    packDpr p g = orFields (groupFields dProtFields p g) := by
  simp only [packDpr, groupFields, orFields_flatMap, packDProt_eq]

theorem packIpr_eq (p : Vector IProtPos 7) (g : Vector IProt 7) :
    packIpr p g = orFields (groupFields iProtFields p g) := by
  simp only [packIpr, groupFields, orFields_flatMap, packIProt_eq]

theorem maskDpr_eq (p : Vector DProtPos 7) (g : Vector DProt 7) :
    maskDpr p = orFields ((groupFields dProtFields p g).map .ones) := by
  rw [ones_groupFields (t₁ := ⟨true, true, true, true⟩) (fun _ _ => rfl), orFields_flatMap]
  simp only [← packDProt_eq]
  rfl

theorem maskIpr_eq (p : Vector IProtPos 7) (g : Vector IProt 7) :
    maskIpr p = orFields ((groupFields iProtFields p g).map .ones) := by
  rw [ones_groupFields (t₁ := ⟨true, true⟩) (fun _ _ => rfl), orFields_flatMap]
  simp only [← packIProt_eq]
  rfl

theorem unpackDpr_openWord {p : Vector DProtPos 7} (h : fieldsApart (p.toList.flatMap DProtPos.fields) = true)
    (g : Vector DProt 7) (free : BitVec 64) : unpackDpr p (openWord (packDpr p g) (maskDpr p) free) = g := by
  rw [packDpr_eq, maskDpr_eq p g]
  rw [← place_groupFields (fields := dProtFields) (fun _ _ => rfl) p g] at h
  refine groupsOf_eq fun k hk => ?_
  rw [groupGet_ofNat p k hk]
  exact unpackDProt_of_reads ((reads_openWord h free).group k hk)

theorem unpackIpr_openWord {p : Vector IProtPos 7} (h : fieldsApart (p.toList.flatMap IProtPos.fields) = true)
    (g : Vector IProt 7) (free : BitVec 64) : unpackIpr p (openWord (packIpr p g) (maskIpr p) free) = g := by
  rw [packIpr_eq, maskIpr_eq p g]
  rw [← place_groupFields (fields := iProtFields) (fun _ _ => rfl) p g] at h
  refine groupsOf_eq fun k hk => ?_
  rw [groupGet_ofNat p k hk]
  exact unpackIProt_of_reads ((reads_openWord h free).group k hk)

end Groups

/-! ### Translate registers (R42, R43, R45, R46) -/

section Trans
variable {P : Type} {w : Word} {p : TrPos}

/-- The fields of a translate register but its protection bits; PPN has the width that the layout gives it (D15). -/
def trFields (p : TrPos) (t : TransReg P) : List PlacedField :=
  [.bit p.cc t.attrs.cc, .bit p.ci t.attrs.ci, .bit p.wbc t.attrs.wbc, .bit p.wom t.attrs.wom, .bit p.a t.a,
    .bit p.d t.d, ⟨p.ppnWidth, p.ppn, t.ppn.setWidth p.ppnWidth⟩]

theorem cutPpn_eq_setWidth {width : Nat} (hw : width ≤ 22) (v : BitVec 22) :
    cutPpn width v = (v.setWidth width).setWidth 22 := by
  have hpow : 2 ^ width ≤ 2 ^ 22 := Nat.pow_le_pow_right (by omega) hw
  have hpos := Nat.two_pow_pos width
  apply BitVec.eq_of_toNat_eq
  simp only [cutPpn, BitVec.toNat_and, BitVec.toNat_ofNat, BitVec.toNat_setWidth]
  rw [Nat.mod_eq_of_lt (by omega : 2 ^ width - 1 < 2 ^ 22), Nat.and_two_pow_sub_one_eq_mod,
    Nat.mod_eq_of_lt (a := v.toNat % 2 ^ width) (by have := Nat.mod_lt v.toNat hpos; omega)]

/-- A cut page number fills its field and no more of the word (D15). -/
theorem putField_cutPpn {width : Nat} (hw : width ≤ 22) (lo : Nat) (v : BitVec 22) :
    putField lo (cutPpn width v) = putField lo (v.setWidth width) := by
  rw [cutPpn_eq_setWidth hw, putField, putField, BitVec.setWidth_setWidth (by omega)]

theorem cutPpn_getField {width : Nat} (hw : width ≤ 22) (w : Word) (lo : Nat) :
    cutPpn width (getField 22 w lo) = (getField width w lo).setWidth 22 := by
  rw [cutPpn_eq_setWidth hw, getField, getField]
  congr 1
  ext i hi
  have hi22 : i < 22 := by omega
  simp only [BitVec.getElem_setWidth, BitVec.getLsbD_extractLsb', BitVec.getElem_extractLsb', hi22, decide_true,
    Bool.true_and]

theorem packTr_eq (hw : p.ppnWidth ≤ 22) (ps : List PlacedField) (t : TransReg P) :
    packTr p (orFields ps) t = orFields (trFields p t ++ ps) := by
  simp only [packTr, trFields, orFields_append, orFields_cons, orFields_nil, putField_bit, putField_cutPpn hw,
    BitVec.or_assoc]
  ac_rfl

theorem maskTr_eq (hw : p.ppnWidth ≤ 22) (ps : List PlacedField) (t : TransReg P) :
    maskTr p (orFields (ps.map .ones)) = orFields ((trFields p t ++ ps).map .ones) := by
  have hppn : (BitVec.allOnes 22).setWidth p.ppnWidth = .allOnes p.ppnWidth := by
    ext i hi
    have hi22 : i < 22 := by omega
    simp only [BitVec.getElem_setWidth, BitVec.getLsbD_allOnes, BitVec.getElem_allOnes, hi22, decide_true]
  rw [maskTr, packTr_eq hw, List.map_append]
  simp only [trFields, List.map_cons, List.map_nil, ones_bit, ones_mk, hppn]

/-- The PPN that is read back is the one that was there, as it fits its field (R125). -/
theorem unpackTr_of_reads {t : TransReg P} (hw : p.ppnWidth ≤ 22) (hppn : t.ppn.toNat < 2 ^ p.ppnWidth)
    (h : Reads w (trFields p t)) : unpackTr p t.prot w = t := by
  simp only [trFields, reads_cons, getField_bit] at h
  obtain ⟨hcc, hci, hwbc, hwom, ha, hd, hf, -⟩ := h
  simp only [unpackTr, hcc, hci, hwbc, hwom, ha, hd, cutPpn_getField hw, hf, ← cutPpn_eq_setWidth hw,
    cutPpn_of_lt _ _ hppn hw]

theorem unpackTr_openWord_d {q : DProtPos} {t : TransReg DProt} (h : fieldsApart (p.fields ++ q.fields) = true)
    (hw : p.ppnWidth ≤ 22) (hppn : t.ppn.toNat < 2 ^ p.ppnWidth) (free : BitVec 64)
    (hword : w = openWord (packTr p (packDProt q t.prot) t) (maskTr p (maskDProt q)) free) :
    unpackTr p (unpackDProt q w) w = t := by
  rw [packDProt_eq, maskDProt_eq q t.prot, packTr_eq hw, maskTr_eq hw _ t] at hword
  obtain ⟨htr, hprot⟩ := reads_append.1 (hword ▸ reads_openWord (fs := trFields p t ++ dProtFields q t.prot) h free)
  rw [unpackDProt_of_reads hprot, unpackTr_of_reads hw hppn htr]

theorem unpackTr_openWord_i {q : IProtPos} {t : TransReg IProt} (h : fieldsApart (p.fields ++ q.fields) = true)
    (hw : p.ppnWidth ≤ 22) (hppn : t.ppn.toNat < 2 ^ p.ppnWidth) (free : BitVec 64)
    (hword : w = openWord (packTr p (packIProt q t.prot) t) (maskTr p (maskIProt q)) free) :
    unpackTr p (unpackIProt q w) w = t := by
  rw [packIProt_eq, maskIProt_eq q t.prot, packTr_eq hw, maskTr_eq hw _ t] at hword
  obtain ⟨htr, hprot⟩ := reads_append.1 (hword ▸ reads_openWord (fs := trFields p t ++ iProtFields q t.prot) h free)
  rw [unpackIProt_of_reads hprot, unpackTr_of_reads hw hppn htr]

end Trans

/-! ### The control register (R28, R32) -/

theorem packCr_reads {p : CrPos} (h : fieldsApart p.fields = true) (tf : Bool) (ptbp : BitVec 22) :
    getBit (packCr p tf ptbp) p.tf = tf ∧ getField 22 (packCr p tf ptbp) p.ptbp = ptbp := by
  have hreads : Reads (packCr p tf ptbp) [.bit p.tf tf, ⟨22, p.ptbp, ptbp⟩] := by
    have hpack : packCr p tf ptbp = orFields [.bit p.tf tf, ⟨22, p.ptbp, ptbp⟩] := by
      simp [packCr, putField_bit]
    exact hpack ▸ reads_orFields h
  simp only [reads_cons, getField_bit] at hreads
  obtain ⟨htf, hptbp, -⟩ := hreads
  exact ⟨htf, hptbp⟩

/-- Where the mask names a field, it reads as the register's (R190). -/
theorem packCr_openWord {p : CrPos} (h : fieldsApart p.fields = true) (tf mtf : Bool) (ptbp mptbp : BitVec 22)
    (free : BitVec 64) :
    (mtf = true → getBit (openWord (packCr p tf ptbp) (packCr p mtf mptbp) free) p.tf = tf) ∧
      (mptbp = .allOnes 22 → getField 22 (openWord (packCr p tf ptbp) (packCr p mtf mptbp) free) p.ptbp = ptbp) := by
  obtain ⟨htf, hptbp⟩ := packCr_reads h tf ptbp
  obtain ⟨hmtf, hmptbp⟩ := packCr_reads h mtf mptbp
  constructor
  · intro hm
    rw [getBit_openWord _ _ _ _ (hmtf.trans hm), htf]
  · intro hm
    rw [getField_openWord _ _ _ _ _ (hmptbp.trans hm), hptbp]

end Sys2Proof.Machine
end

section
/-! PROOFS. Which register the operands of the two instructions name (R161, R165), and which addresses both
refuse (O7). -/

namespace Sys2Proof.Machine

/-! ### Listed and unlisted numbers (R21 to R23) -/

/-- The half a register belongs to. -/
def Spr.side : Spr → Side
  | .mmucr x | .mmupr x | .tlbeir x | .atbmr x _ | .atbtr x _ | .tlbmr x _ _ | .tlbtr x _ _ | .mmucfgr x => x

theorem sprOfNumber_eq_none_iff {x : Side} {n : BitVec 11} : sprOfNumber x n = none ↔ ¬ListedNumber n.toNat := by
  have h0 : n = 0 ↔ n.toNat = 0 := BitVec.toNat_inj.symm
  have h1 : n = 1 ↔ n.toNat = 1 := BitVec.toNat_inj.symm
  have h2 : n = 2 ↔ n.toNat = 2 := BitVec.toNat_inj.symm
  simp only [sprOfNumber, ListedNumber, h0, h1, h2]
  split_ifs <;> simp only [true_iff, false_iff, not_not] <;> omega

theorem side_of_sprOfNumber {x : Side} {n : BitVec 11} {r : Spr} (h : sprOfNumber x n = some r) : r.side = x := by
  unfold sprOfNumber at h
  split_ifs at h <;> cases h <;> rfl

/-- xTLBEIR stands at number 2 alone. -/
theorem number_of_tlbeir {x y : Side} {n : BitVec 11} (h : sprOfNumber x n = some (.tlbeir y)) : n = 2 := by
  unfold sprOfNumber at h
  split_ifs at h with h0 h1 h2 <;> simp only [Option.some.injEq, reduceCtorEq] at h
  exact h2

section Named
variable {s : State} {a : BitVec 5} {k : BitVec 16} {x : Side} {n : Nat}

theorem ListedNumber.lt (h : ListedNumber n) : n < 2 ^ 11 := by
  unfold ListedNumber at h
  omega

theorem Names.sprOf_eq (h : Names s a k x n) (hn : n < 2 ^ 11) :
    sprOf s.cfg (sprAddress s a k) = sprOfNumber x (BitVec.ofNat 11 n) := by
  rw [sprAddress, h, sprOf_sprAt s.cfg x hn]

/-- A listed number names a register of its half, xTLBEIR only where the number is 2. -/
theorem Names.exists_spr (h : Names s a k x n) (hn : ListedNumber n) :
    ∃ r, sprOf s.cfg (sprAddress s a k) = some r ∧ r.side = x ∧ (∀ y, r ≠ .mmucfgr y) ∧
      (n ≠ 2 → ∀ y, r ≠ .tlbeir y) := by
  have htoNat : (BitVec.ofNat 11 n).toNat = n := by rw [BitVec.toNat_ofNat, Nat.mod_eq_of_lt hn.lt]
  obtain ⟨r, hr⟩ : ∃ r, sprOfNumber x (BitVec.ofNat 11 n) = some r :=
    Option.ne_none_iff_exists'.1 fun hnone => sprOfNumber_eq_none_iff.1 hnone (htoNat.symm ▸ hn)
  refine ⟨r, (h.sprOf_eq hn.lt).trans hr, side_of_sprOfNumber hr, ?_, ?_⟩
  · rintro y rfl
    exact sprOfNumber_ne_mmucfgr _ _ _ hr
  · rintro hne y rfl
    exact hne (htoNat.symm.trans (congrArg BitVec.toNat (number_of_tlbeir hr)))

theorem Names.sprOf_eq_none (h : Names s a k x n) (hlt : n < 2 ^ 11) (hn : ¬ListedNumber n) :
    sprOf s.cfg (sprAddress s a k) = none := by
  rw [h.sprOf_eq hlt, sprOfNumber_eq_none_iff, BitVec.toNat_ofNat, Nat.mod_eq_of_lt hlt]
  exact hn

/-- The operands name the register that stands at their address. -/
theorem Names.sprOf_of_sprAt {r : Spr} (h : Names s a k x n) (hr : sprOf s.cfg (sprAt x n) = some r) :
    sprOf s.cfg (sprAddress s a k) = some r := by
  rw [sprAddress, h, hr]

end Named

/-! Each register under its own number (R21 to R23). -/

section NamedRegister
variable {s : State} {a : BitVec 5} {k : BitVec 16} {x : Side}

theorem Names.mmucr (h : Names s a k x 0) : sprOf s.cfg (sprAddress s a k) = some (.mmucr x) :=
  have ⟨hr, _⟩ := registerAddresses s.cfg x 0 0 0
  h.sprOf_of_sprAt hr

theorem Names.mmupr (h : Names s a k x 1) : sprOf s.cfg (sprAddress s a k) = some (.mmupr x) :=
  have ⟨_, hr, _⟩ := registerAddresses s.cfg x 0 0 0
  h.sprOf_of_sprAt hr

theorem Names.tlbeir (h : Names s a k x 2) : sprOf s.cfg (sprAddress s a k) = some (.tlbeir x) :=
  have ⟨_, _, hr, _⟩ := registerAddresses s.cfg x 0 0 0
  h.sprOf_of_sprAt hr

theorem Names.atbmr {i : BitVec 2} (h : Names s a k x (4 + i.toNat)) :
    sprOf s.cfg (sprAddress s a k) = some (.atbmr x i) :=
  have ⟨_, _, _, hr, _⟩ := registerAddresses s.cfg x 0 0 i
  h.sprOf_of_sprAt hr

theorem Names.atbtr {i : BitVec 2} (h : Names s a k x (8 + i.toNat)) :
    sprOf s.cfg (sprAddress s a k) = some (.atbtr x i) :=
  have ⟨_, _, _, _, hr, _⟩ := registerAddresses s.cfg x 0 0 i
  h.sprOf_of_sprAt hr

theorem Names.tlbmr {y : BitVec 2} {n : BitVec 7} (h : Names s a k x (512 + 256 * y.toNat + n.toNat)) :
    sprOf s.cfg (sprAddress s a k) = some (.tlbmr x y n) :=
  have ⟨_, _, _, _, _, hr, _⟩ := registerAddresses s.cfg x y n 0
  h.sprOf_of_sprAt hr

theorem Names.tlbtr {y : BitVec 2} {n : BitVec 7} (h : Names s a k x (640 + 256 * y.toNat + n.toNat)) :
    sprOf s.cfg (sprAddress s a k) = some (.tlbtr x y n) :=
  have ⟨_, _, _, _, _, _, hr⟩ := registerAddresses s.cfg x y n 0
  h.sprOf_of_sprAt hr

end NamedRegister

/-! The registers of an entry that the implementation has (R26). -/

section Implemented
variable {c : Config} {x : Side} {y : BitVec 2} {n : BitVec 7} {i : BitVec 2}

theorem implemented_tlbmr (hy : y.toNat < (c.mmu x).ways) (hn : n.toNat < (c.mmu x).sets) :
    (Spr.tlbmr x y n).implemented c = true := by
  simp only [Spr.implemented, hy, hn, decide_true, Bool.and_self]

theorem implemented_tlbtr (hy : y.toNat < (c.mmu x).ways) (hn : n.toNat < (c.mmu x).sets) :
    (Spr.tlbtr x y n).implemented c = true := implemented_tlbmr hy hn

theorem implemented_atbmr (hi : i.toNat < (c.mmu x).atbEntries) : (Spr.atbmr x i).implemented c = true :=
  decide_eq_true hi

theorem implemented_atbtr (hi : i.toNat < (c.mmu x).atbEntries) : (Spr.atbtr x i).implemented c = true :=
  decide_eq_true hi

end Implemented

/-! ### The register that an instruction may access -/

/-- The configuration registers are read-only descriptions (R47). -/
def Spr.readOnly : Spr → Bool
  | .mmucfgr _ => true
  | _ => false

theorem Spr.readOnly_iff {r : Spr} : r.readOnly = true ↔ ∃ y, r = .mmucfgr y := by cases r <;> simp [Spr.readOnly]

theorem Spr.readOnly_eq_false_iff {r : Spr} : r.readOnly = false ↔ ∀ y, r ≠ .mmucfgr y := by
  rw [← Bool.not_eq_true, Spr.readOnly_iff, not_exists]

/-- The register that an instruction names, where the spec gives it that access: `l.mtspr` has none to a read-only
register. -/
def accessedSpr (s : State) : Instr → Option Spr
  | .mfspr _ a k => sprOf s.cfg (sprAddress s a k)
  | .mtspr a _ k => (sprOf s.cfg (sprAddress s a k)).filter fun r => !r.readOnly

section Accessed
variable {s : State} {i : Instr} {d a b : BitVec 5} {k : BitVec 16} {r : Spr}

theorem accessedSpr_mfspr : accessedSpr s (.mfspr d a k) = sprOf s.cfg (sprAddress s a k) := rfl

theorem accessedSpr_mtspr_eq_some_iff :
    accessedSpr s (.mtspr a b k) = some r ↔ sprOf s.cfg (sprAddress s a k) = some r ∧ ∀ y, r ≠ .mmucfgr y := by
  rw [accessedSpr, Option.filter_eq_some_iff, Bool.not_eq_true', Spr.readOnly_eq_false_iff]

theorem accessedSpr_mtspr_eq_none_iff :
    accessedSpr s (.mtspr a b k) = none ↔ ∀ r, sprOf s.cfg (sprAddress s a k) = some r → ∃ y, r = .mmucfgr y := by
  simp only [accessedSpr, Option.filter_eq_none_iff, Bool.not_eq_true', Bool.not_eq_false, Spr.readOnly_iff]

/-- An instruction that has access to no register is refused, in either mode (R181, R182). -/
theorem exec_of_accessedSpr_none (h : accessedSpr s i = none) : exec i s = .refused .sprOutsideSpec := by
  cases i with
  | mfspr d a k =>
    rw [accessedSpr_mfspr] at h
    simp only [exec, execMfspr, h]
  | mtspr a b k =>
    rw [accessedSpr_mtspr_eq_none_iff] at h
    cases hr : sprOf s.cfg (sprAddress s a k) with
    | none => simp only [exec, execMtspr, hr]
    | some r =>
      obtain ⟨y, rfl⟩ := h r hr
      simp only [exec, execMtspr, hr]

/-- In user mode an access comes to what USER_SPR_ACCESS says, whatever the register (R183, D20). -/
theorem exec_user (h : accessedSpr s i = some r) (hmode : s.sr.mode = .user) : exec i s = userSprAccess s := by
  cases i with
  | mfspr d a k => exact execMfspr_user h hmode
  | mtspr a b k =>
    obtain ⟨hr, hne⟩ := accessedSpr_mtspr_eq_some_iff.1 h
    exact execMtspr_user hr hne hmode

/-- Where the operands name no register, neither instruction has access. -/
theorem exec_of_sprOf_none (h : sprOf s.cfg (sprAddress s a k) = none) :
    exec (.mfspr d a k) s = .refused .sprOutsideSpec ∧ exec (.mtspr a b k) s = .refused .sprOutsideSpec := by
  refine ⟨exec_of_accessedSpr_none h, exec_of_accessedSpr_none (accessedSpr_mtspr_eq_none_iff.2 fun r hr => ?_)⟩
  cases h.symm.trans hr

end Accessed

/-! ### Addresses that both instructions refuse (R181, R182) -/

theorem sprOf_eq_none_of_group {c : Config} {addr : BitVec 16} (h1 : addr.extractLsb' 11 5 ≠ 1#5)
    (h2 : addr.extractLsb' 11 5 ≠ 2#5) (hcfg : ¬(c.cfgrImpl = true ∧ (addr = 3#16 ∨ addr = 4#16))) :
    sprOf c addr = none := by
  have h3 : ¬(c.cfgrImpl = true ∧ addr = 3) := fun ⟨hc, ha⟩ => hcfg ⟨hc, .inl ha⟩
  have h4 : ¬(c.cfgrImpl = true ∧ addr = 4) := fun ⟨hc, ha⟩ => hcfg ⟨hc, .inr ha⟩
  exact (if_neg h1).trans <| (if_neg h2).trans <| (if_neg h3).trans (if_neg h4)

/-- Nothing but a configuration register stands at either of the two addresses of group 0 (R47). -/
theorem sprOf_group0_mmucfgr {c : Config} {addr : BitVec 16} {r : Spr} (haddr : addr = 3#16 ∨ addr = 4#16)
    (hr : sprOf c addr = some r) : ∃ y, r = .mmucfgr y := by
  obtain ⟨h1, h2⟩ : addr.extractLsb' 11 5 ≠ 1#5 ∧ addr.extractLsb' 11 5 ≠ 2#5 := by
    rcases haddr with rfl | rfl <;> decide
  by_cases hc : c.cfgrImpl = true
  · obtain ⟨hd, hi⟩ := sprOf_mmucfgr hc
    rcases haddr with rfl | rfl
    · exact ⟨.d, Option.some.inj (hr.symm.trans hd)⟩
    · exact ⟨.i, Option.some.inj (hr.symm.trans hi)⟩
  · cases (sprOf_eq_none_of_group h1 h2 fun h => hc h.1).symm.trans hr

/-- Settles O7: an unlisted number and an address of another group name no register, and the configuration registers are
none that `l.mtspr` has access to. -/
theorem addressesOutsideRefused : Obligations.AddressesOutsideRefused := by
  intro s r a b k
  refine ⟨fun x n hlt hn hnames => exec_of_sprOf_none (hnames.sprOf_eq_none hlt hn), ?_, ?_⟩
  · intro h1 h2 hcfg
    exact exec_of_sprOf_none (sprOf_eq_none_of_group h1 h2 hcfg)
  · intro haddr
    exact exec_of_accessedSpr_none (accessedSpr_mtspr_eq_none_iff.2 fun r hr => sprOf_group0_mmucfgr haddr hr)

end Sys2Proof.Machine
end

section
/-! PROOFS. What `l.mfspr` delivers (O8 to O13). -/

namespace Sys2Proof.Machine

/-! ### The word that a read delivers (R184, R190) -/

/-- The word of an implemented 32-bit register, with the bits that are no named field free. -/
def sprWord (s : State) (r : Spr) : Word := openWord (sprView s r).1 (sprView s r).2 (drawn s)

section Read
variable {s : State} {d a : BitVec 5} {k : BitVec 16} {r : Spr} {x : Side} {n : Nat}

/-- A read of any register but xTLBEIR delivers a word, absent registers included (R184, D22). -/
theorem sprRead_eq_word (hr : ∀ y, r ≠ .tlbeir y) : ∃ w : Word, sprRead r s = w.setWidth 64 := by
  cases r with
  | tlbeir y => exact absurd rfl (hr y)
  | _ => exact ⟨_, rfl⟩

theorem sprRead_implemented (himpl : r.implemented s.cfg = true) (hr : ∀ y, r ≠ .tlbeir y) :
    sprRead r s = (sprWord s r).setWidth 64 := by
  cases r with
  | tlbeir y => exact absurd rfl (hr y)
  | _ => simp only [sprRead, himpl, if_true, sprWord]

/-- In supervisor mode a read of an implemented register delivers its word and changes nothing else but the count of
free values and the program counter. -/
theorem exec_mfspr_word (d : BitVec 5) (hmode : s.sr.mode = .supervisor) (hr : sprOf s.cfg (sprAddress s a k) = some r)
    (himpl : r.implemented s.cfg = true) (hne : ∀ y, r ≠ .tlbeir y) :
    exec (.mfspr d a k) s =
      .next (advance { s with gpr := fileSet s.gpr d ((sprWord s r).setWidth 64), draws := s.draws + 1 }) :=
  calc exec (.mfspr d a k) s = .next (advance (writeGpr (countDraw s) d (sprRead r s))) := execMfspr_supervisor hr hmode
    _ = _ := by rw [writeGpr, sprRead_implemented himpl hne, truncEa_word]; rfl

end Read

/-- Settles O8: a listed number names a register, and what it delivers is cut to EA_BITS. -/
theorem mfsprCompletes : Obligations.MfsprCompletes := by
  intro s d a k x n hmode hlisted hnames
  obtain ⟨r, hr, -, -, hne⟩ := hnames.exists_spr hlisted
  refine ⟨truncEa s.cfg.eaBits (sprRead r s), execMfspr_supervisor hr hmode, fitsEa_truncEa _ _, fun hn => ?_⟩
  obtain ⟨w, hw⟩ := sprRead_eq_word (s := s) (hne hn)
  rw [hw, truncEa_word, BitVec.toNat_setWidth]
  exact Nat.lt_of_le_of_lt (Nat.mod_le _ _) w.isLt

/-! ### Which fields lie apart in a layout that the spec allows (R27) -/

/-- What `Layout.wf` says of the registers that the instructions read. -/
structure LayoutApart (l : Layout) : Prop where
  dcr : fieldsApart l.dcr.fields = true
  icr : fieldsApart l.icr.fields = true
  dpr : fieldsApart (l.dpr.toList.flatMap DProtPos.fields) = true
  ipr : fieldsApart (l.ipr.toList.flatMap IProtPos.fields) = true
  mr : fieldsApart l.mr.fields = true
  amr : fieldsApart l.amr.fields = true
  dtr : fieldsApart (l.dtr.fields ++ l.dtrProt.fields) = true
  itr : fieldsApart (l.itr.fields ++ l.itrProt.fields) = true
  datr : fieldsApart (l.datr.fields ++ l.datrProt.fields) = true
  iatr : fieldsApart (l.iatr.fields ++ l.iatrProt.fields) = true
  dtrWidth : l.dtr.ppnWidth ≤ 22
  itrWidth : l.itr.ppnWidth ≤ 22
  datrWidth : l.datr.ppnWidth ≤ 22
  iatrWidth : l.iatr.ppnWidth ≤ 22

theorem Config.wf_layoutApart {c : Config} (h : c.wf = true) : LayoutApart c.layout := by
  simp only [Config.wf, Layout.wf, Bool.and_eq_true, decide_eq_true_eq, and_assoc] at h
  obtain ⟨-, -, -, -, dcr, icr, dpr, ipr, mr, amr, dtr, itr, datr, iatr, -, dtrWidth, itrWidth, datrWidth,
    iatrWidth, -⟩ := h
  exact { dcr, icr, dpr, ipr, mr, amr, dtr, itr, datr, iatr, dtrWidth, itrWidth, datrWidth, iatrWidth }

/-! ### Each register as it is delivered -/

/-- Settles O9: the word holds the register, whatever the free bits are. -/
theorem mfsprReadsTlbMatch : Obligations.MfsprReadsTlbMatch := by
  intro s d a k y n hinv hmode
  have hmr := (Config.wf_layoutApart hinv.cfg).mr
  constructor
  · intro hy hn hnames
    exact ⟨_, exec_mfspr_word d hmode hnames.tlbmr (implemented_tlbmr hy hn) nofun, unpackMr_openWord hmr _ _⟩
  · intro hy hn hnames
    exact ⟨_, exec_mfspr_word d hmode hnames.tlbmr (implemented_tlbmr hy hn) nofun, unpackMr_openWord hmr _ _⟩

/-- Settles O10: the word holds the register, the PPN that the invariant keeps inside its field included. -/
theorem mfsprReadsTlbTranslate : Obligations.MfsprReadsTlbTranslate := by
  intro s d a k y n hinv hmode
  have hl := Config.wf_layoutApart hinv.cfg
  constructor
  · intro hy hn hnames
    exact ⟨_, exec_mfspr_word d hmode hnames.tlbtr (implemented_tlbtr hy hn) nofun,
      unpackTr_openWord_d hl.dtr hl.dtrWidth (hinv.dmmu.tlbPpn y n) _ rfl⟩
  · intro hy hn hnames
    exact ⟨_, exec_mfspr_word d hmode hnames.tlbtr (implemented_tlbtr hy hn) nofun,
      unpackTr_openWord_i hl.itr hl.itrWidth (hinv.immu.tlbPpn y n) _ rfl⟩

/-- Settles O11, as O9 and O10. -/
theorem mfsprReadsAtb : Obligations.MfsprReadsAtb := by
  intro s d a k i hinv hmode
  have hl := Config.wf_layoutApart hinv.cfg
  refine ⟨fun hi => ⟨fun hnames => ?_, fun hnames => ?_⟩, fun hi => ⟨fun hnames => ?_, fun hnames => ?_⟩⟩
  · exact ⟨_, exec_mfspr_word d hmode hnames.atbmr (implemented_atbmr hi) nofun, unpackAmr_openWord hl.amr _ _⟩
  · exact ⟨_, exec_mfspr_word d hmode hnames.atbtr (implemented_atbtr hi) nofun,
      unpackTr_openWord_d hl.datr hl.datrWidth (hinv.dmmu.atbPpn i) _ rfl⟩
  · exact ⟨_, exec_mfspr_word d hmode hnames.atbmr (implemented_atbmr hi) nofun, unpackAmr_openWord hl.amr _ _⟩
  · exact ⟨_, exec_mfspr_word d hmode hnames.atbtr (implemented_atbtr hi) nofun,
      unpackTr_openWord_i hl.iatr hl.iatrWidth (hinv.immu.atbPpn i) _ rfl⟩

/-- Settles O12: the mask names xTF and PTBP where they exist. -/
theorem mfsprReadsControl : Obligations.MfsprReadsControl := by
  intro s d a k hwf hmode
  have hl := Config.wf_layoutApart hwf
  constructor
  · intro himpl hnames
    obtain ⟨htf, hptbp⟩ := packCr_openWord hl.dcr s.dmmu.tf s.cfg.d.tfImpl s.dmmu.ptbp
      (if s.cfg.d.ptbpImpl then .allOnes 22 else 0) (drawn s)
    exact ⟨_, exec_mfspr_word d hmode hnames.mmucr himpl nofun, htf, fun h => hptbp (if_pos h)⟩
  · intro himpl hnames
    obtain ⟨htf, hptbp⟩ := packCr_openWord hl.icr s.immu.tf s.cfg.i.tfImpl s.immu.ptbp
      (if s.cfg.i.ptbpImpl then .allOnes 22 else 0) (drawn s)
    exact ⟨_, exec_mfspr_word d hmode hnames.mmucr himpl nofun, htf, fun h => hptbp (if_pos h)⟩

/-- Settles O13: the word holds every group. -/
theorem mfsprReadsProtection : Obligations.MfsprReadsProtection := by
  intro s d a k hwf hmode
  have hl := Config.wf_layoutApart hwf
  constructor
  · intro himpl hnames
    exact ⟨_, exec_mfspr_word d hmode hnames.mmupr himpl nofun, unpackDpr_openWord hl.dpr _ _⟩
  · intro himpl hnames
    exact ⟨_, exec_mfspr_word d hmode hnames.mmupr himpl nofun, unpackIpr_openWord hl.ipr _ _⟩

end Sys2Proof.Machine
end

section
/-! PROOFS. What `l.mtspr` writes (O15 to O21). -/

namespace Sys2Proof.Machine

/-! ### The half that a write reaches (R182, R200) -/

section Frame
variable {s : State} {a b : BitVec 5} {k : BitVec 16} {r : Spr} (v : Ea)

theorem sprWrite_immu (h : r.side = .d) : (sprWrite r v s).immu = s.immu := by
  unfold sprWrite
  split
  · cases r <;> cases h <;> simp only [sprStore, countDraw_immu]
  · rfl

theorem sprWrite_dmmu (h : r.side = .i) : (sprWrite r v s).dmmu = s.dmmu := by
  unfold sprWrite
  split
  · cases r <;> cases h <;> simp only [sprStore, countDraw_dmmu]
  · rfl

/-- In supervisor mode a write of an implemented register is done. -/
theorem exec_mtspr_implemented (b : BitVec 5) (hmode : s.sr.mode = .supervisor)
    (hr : sprOf s.cfg (sprAddress s a k) = some r) (himpl : r.implemented s.cfg = true) (hne : ∀ y, r ≠ .mmucfgr y) :
    exec (.mtspr a b k) s = .next (advance (sprStore r (readGpr s b) s)) :=
  calc exec (.mtspr a b k) s = .next (advance (sprWrite r (readGpr s b) s)) := execMtspr_supervisor hr hne hmode
    _ = _ := by rw [sprWrite_implemented _ _ _ himpl]

end Frame

/-- Settles O15: a listed number names a register of its half, and a write reaches no more than that half. -/
theorem mtsprCompletes : Obligations.MtsprCompletes := by
  intro s a b k x n hmode hlisted hnames
  obtain ⟨r, hr, hside, hne, -⟩ := hnames.exists_spr hlisted
  refine ⟨_, _, _, (execMtspr_supervisor hr hne hmode).trans (by rw [sprWrite_eq]), ?_, ?_⟩
  · rintro rfl
    exact sprWrite_immu _ hside
  · rintro rfl
    exact sprWrite_dmmu _ hside

/-! ### Entries (R195, R196) -/

section Entry
variable {P : Type} {m : Mmu P}

theorem setEntry_sameButTlb (y : BitVec 2) (n : BitVec 7) (e : TlbEntry P) : m.SameButTlb y n (m.setEntry y n e) := by
  refine ⟨fun y' n' hne => ?_, rfl, rfl, rfl, rfl, rfl, rfl⟩
  rw [entry_setEntry, if_neg]
  rintro ⟨rfl, rfl⟩
  exact hne rfl

theorem setAtb_sameButAtb (i : BitVec 2) (e : AtbEntry P) : m.SameButAtb i (m.setAtb i e) := by
  refine ⟨fun j hne => ?_, rfl, rfl, rfl, rfl, rfl, rfl⟩
  rw [atb_setAtb, if_neg hne.symm]

/-- A write of a TLB match register leaves the translate register of the entry (R195). -/
theorem writeTlbMr_entry (y : BitVec 2) (n : BitVec 7) (v : TlbMatch) :
    m.SameButTlb y n (m.writeTlbMr y n v) ∧ ((m.writeTlbMr y n v).entry y n).tr = (m.entry y n).tr ∧
      ((m.writeTlbMr y n v).entry y n).mr = v := by
  refine ⟨setEntry_sameButTlb y n _, ?_, ?_⟩ <;> rw [entry_writeTlbMr, if_pos ⟨rfl, rfl⟩]

/-- A write of a TLB translate register leaves the match register of the entry (R195). -/
theorem writeTlbTr_entry (y : BitVec 2) (n : BitVec 7) (v : TransReg P) :
    m.SameButTlb y n (m.writeTlbTr y n v) ∧ ((m.writeTlbTr y n v).entry y n).mr = (m.entry y n).mr ∧
      ((m.writeTlbTr y n v).entry y n).tr = v := by
  refine ⟨setEntry_sameButTlb y n _, ?_, ?_⟩ <;> rw [entry_writeTlbTr, if_pos ⟨rfl, rfl⟩]

theorem writeAtbMr_entry (i : BitVec 2) (v : AtbMatch) :
    m.SameButAtb i (m.writeAtbMr i v) ∧ (fileGet (m.writeAtbMr i v).atb i).tr = (fileGet m.atb i).tr ∧
      (fileGet (m.writeAtbMr i v).atb i).mr = v := by
  refine ⟨setAtb_sameButAtb i _, ?_, ?_⟩ <;> rw [atb_writeAtbMr, if_pos rfl]

theorem writeAtbTr_entry (i : BitVec 2) (v : TransReg P) :
    m.SameButAtb i (m.writeAtbTr i v) ∧ (fileGet (m.writeAtbTr i v).atb i).mr = (fileGet m.atb i).mr ∧
      (fileGet (m.writeAtbTr i v).atb i).tr = v := by
  refine ⟨setAtb_sameButAtb i _, ?_, ?_⟩ <;> rw [atb_writeAtbTr, if_pos rfl]

end Entry

/-- Settles O16: the write replaces one register of one entry. -/
theorem mtsprWritesTlb : Obligations.MtsprWritesTlb := by
  intro s a b k y n hmode
  refine ⟨fun hy hn => ⟨fun hnames => ?_, fun hnames => ?_⟩, fun hy hn => ⟨fun hnames => ?_, fun hnames => ?_⟩⟩
  · exact ⟨_, exec_mtspr_implemented b hmode hnames.tlbmr (implemented_tlbmr hy hn) nofun, writeTlbMr_entry y n _⟩
  · exact ⟨_, exec_mtspr_implemented b hmode hnames.tlbtr (implemented_tlbtr hy hn) nofun, writeTlbTr_entry y n _⟩
  · exact ⟨_, exec_mtspr_implemented b hmode hnames.tlbmr (implemented_tlbmr hy hn) nofun, writeTlbMr_entry y n _⟩
  · exact ⟨_, exec_mtspr_implemented b hmode hnames.tlbtr (implemented_tlbtr hy hn) nofun, writeTlbTr_entry y n _⟩

/-- Settles O17, as O16. -/
theorem mtsprWritesAtb : Obligations.MtsprWritesAtb := by
  intro s a b k i hmode
  refine ⟨fun hi => ⟨fun hnames => ?_, fun hnames => ?_⟩, fun hi => ⟨fun hnames => ?_, fun hnames => ?_⟩⟩
  · exact ⟨_, exec_mtspr_implemented b hmode hnames.atbmr (implemented_atbmr hi) nofun, writeAtbMr_entry i _⟩
  · exact ⟨_, exec_mtspr_implemented b hmode hnames.atbtr (implemented_atbtr hi) nofun, writeAtbTr_entry i _⟩
  · exact ⟨_, exec_mtspr_implemented b hmode hnames.atbmr (implemented_atbmr hi) nofun, writeAtbMr_entry i _⟩
  · exact ⟨_, exec_mtspr_implemented b hmode hnames.atbtr (implemented_atbtr hi) nofun, writeAtbTr_entry i _⟩

/-! ### The protection registers (R192) -/

theorem groupGet_unpackDpr (p : Vector DProtPos 7) (w : Word) {g : BitVec 3} (hg : g ≠ 0) :
    groupGet (unpackDpr p w) g = unpackDProt (groupGet p g) w := by
  rw [unpackDpr, groupGet_groupsOf _ g hg, BitVec.ofNat_toNat, BitVec.setWidth_eq]

theorem groupGet_unpackIpr (p : Vector IProtPos 7) (w : Word) {g : BitVec 3} (hg : g ≠ 0) :
    groupGet (unpackIpr p w) g = unpackIProt (groupGet p g) w := by
  rw [unpackIpr, groupGet_groupsOf _ g hg, BitVec.ofNat_toNat, BitVec.setWidth_eq]

/-- Settles O18: each group is taken from the word by itself. -/
theorem mtsprWritesProtection : Obligations.MtsprWritesProtection := by
  intro s a b k hmode
  constructor
  · intro himpl hnames
    exact ⟨_, exec_mtspr_implemented b hmode hnames.mmupr himpl nofun, fun g hg => groupGet_unpackDpr _ _ hg⟩
  · intro himpl hnames
    exact ⟨_, exec_mtspr_implemented b hmode hnames.mmupr himpl nofun, fun g hg => groupGet_unpackIpr _ _ hg⟩

/-! ### The control registers (R191, R199) -/

section Control
variable {P : Type} {c : Config} {x : Side} {mc : MmuConfig} {p : CrPos} {w : Word} {m : Mmu P}

/-- PTBP after a write of xMMUCR: the written one where the implementation has the field (R191). -/
def ptbpAfter (mc : MmuConfig) (p : CrPos) (w : Word) (ptbp : BitVec 22) : BitVec 22 :=
  if mc.ptbpImpl then getField 22 w p.ptbp else ptbp

theorem writeCr_of_no_flush (h : mc.tfImpl = false ∨ getBit w p.tf = false) :
    m.writeCr mc p w = { m with ptbp := ptbpAfter mc p w m.ptbp } := by
  have hno : (mc.tfImpl && getBit w p.tf) = false := by
    rcases h with h | h <;> simp [h]
  simp only [Mmu.writeCr, hno, ptbpAfter]
  cases mc.ptbpImpl <;> rfl

theorem writeCr_of_flush (himpl : mc.tfImpl = true) (htf : getBit w p.tf = true) :
    m.writeCr mc p w = { m.flush mc with tf := false, ptbp := ptbpAfter mc p w m.ptbp } := by
  simp only [Mmu.writeCr, himpl, htf, ptbpAfter, Mmu.flush, Mmu.mapTlb]
  cases mc.ptbpImpl <;> rfl

theorem entry_setControl (tf : Bool) (ptbp : BitVec 22) (y : BitVec 2) (n : BitVec 7) :
    Mmu.entry { m with tf := tf, ptbp := ptbp } y n = m.entry y n := rfl

/-- What a flush leaves of one half, `ptbp` being what the same write makes of PTBP (R199). -/
structure Mmu.Flushed (c : Config) (x : Side) (ptbp : BitVec 22) (m m' : Mmu P) : Prop where
  tf : m'.tf = false
  atb : m'.atb = m.atb
  pr : m'.pr = m.pr
  hist : m'.hist = m.hist
  owed : m'.owed = m.owed
  ptbp : m'.ptbp = ptbp
  invalid : ∀ y n, y.toNat < (c.mmu x).ways → n.toNat < (c.mmu x).sets → (m'.entry y n).mr.v = false
  butV : ∀ y n, (m'.entry y n).mr = { (m.entry y n).mr with v := (m'.entry y n).mr.v } ∧
    (m'.entry y n).tr = (m.entry y n).tr ∧ (m'.entry y n).origin = (m.entry y n).origin
  absent : ∀ y n, ¬(y.toNat < (c.mmu x).ways ∧ n.toNat < (c.mmu x).sets) → m'.entry y n = m.entry y n
  noHit : ∀ cid e, tlbHits c (c.mmu x) m' cid e = []

theorem tlbMatches_of_invalid {mr : TlbMatch} (cid : BitVec 4) (e : PageEa) (h : mr.v = false) :
    tlbMatches c mr cid e = false := by
  rw [tlbMatches, h, Bool.false_and, Bool.false_and]

/-- After the flush no way of the set of any address is valid. -/
theorem flush_flushed (hsets : 1 ≤ (c.mmu x).sets) (ptbp : BitVec 22) :
    m.Flushed c x ptbp { m.flush (c.mmu x) with tf := false, ptbp := ptbp } := by
  have hinvalid : ∀ y n, y.toNat < (c.mmu x).ways → n.toNat < (c.mmu x).sets →
      ((m.flush (c.mmu x)).entry y n).mr.v = false := by
    intro y n hy hn
    rw [entry_flush, if_pos ⟨hy, hn⟩]
  constructor
  case tf => rfl
  case atb => simp only [flush_atb]
  case pr => simp only [flush_pr]
  case hist => simp only [flush_hist]
  case owed => simp only [flush_owed]
  case ptbp => rfl
  case invalid =>
    intro y n hy hn
    rw [entry_setControl]
    exact hinvalid y n hy hn
  case butV =>
    intro y n
    rw [entry_setControl, entry_flush]
    split <;> exact ⟨rfl, rfl, rfl⟩
  case absent =>
    intro y n hn
    rw [entry_setControl, entry_flush, if_neg hn]
  case noHit =>
    intro cid e
    refine tlbHits_eq_nil_iff.2 fun y hy => ?_
    rw [entry_setControl]
    exact tlbMatches_of_invalid cid e (hinvalid y _ hy (tlbIndex_lt hsets))

/-- A write of xMMUCR that asks for a flush. -/
theorem writeCr_flushed (hwf : c.wf = true) (himpl : (c.mmu x).tfImpl = true) (htf : getBit w p.tf = true) :
    m.Flushed c x (ptbpAfter (c.mmu x) p w m.ptbp) (m.writeCr (c.mmu x) p w) := by
  rw [writeCr_of_flush himpl htf]
  exact flush_flushed (MmuConfig.wf_sets_pos (Config.wf_mmu hwf x)) _

end Control

/-- Settles O19: without a flush a write of xMMUCR is a write of PTBP. -/
theorem mtsprWritesPtbp : Obligations.MtsprWritesPtbp := by
  intro s a b k hmode
  constructor
  · intro himpl hnames hno
    rw [exec_mtspr_implemented b hmode hnames.mmucr himpl nofun, sprStore]
    simp only [writeCr_of_no_flush hno, ptbpAfter]
  · intro himpl hnames hno
    rw [exec_mtspr_implemented b hmode hnames.mmucr himpl nofun, sprStore]
    simp only [writeCr_of_no_flush hno, ptbpAfter]

/-- Settles O20: with xTF = 1 the write is a flush. -/
theorem mtsprFlushes : Obligations.MtsprFlushes := by
  intro s a b k hwf hmode
  constructor
  · intro himpl htfImpl hnames htf
    obtain ⟨m, hexec, hm⟩ : ∃ m, exec (.mtspr a b k) s = .next (advance { s with dmmu := m }) ∧
        s.dmmu.Flushed s.cfg .d (ptbpAfter s.cfg.d s.cfg.layout.dcr ((readGpr s b).setWidth 32) s.dmmu.ptbp) m :=
      ⟨_, exec_mtspr_implemented b hmode hnames.mmucr himpl nofun, writeCr_flushed hwf htfImpl htf⟩
    exact ⟨m, hexec, hm.tf, hm.atb, hm.pr, hm.hist, hm.owed, hm.ptbp, hm.invalid, hm.butV, hm.absent, hm.noHit⟩
  · intro himpl htfImpl hnames htf
    obtain ⟨m, hexec, hm⟩ : ∃ m, exec (.mtspr a b k) s = .next (advance { s with immu := m }) ∧
        s.immu.Flushed s.cfg .i (ptbpAfter s.cfg.i s.cfg.layout.icr ((readGpr s b).setWidth 32) s.immu.ptbp) m :=
      ⟨_, exec_mtspr_implemented b hmode hnames.mmucr himpl nofun, writeCr_flushed hwf htfImpl htf⟩
    exact ⟨m, hexec, hm.tf, hm.atb, hm.pr, hm.hist, hm.owed, hm.ptbp, hm.invalid, hm.butV, hm.absent, hm.noHit⟩

/-! ### The invalidate registers (R197) -/

section Invalidate
variable {P : Type} {c : Config} {x : Side} {m : Mmu P} {e : PageEa} {free : BitVec 64}

/-- What a write of xTLBEIR with address e leaves of one half (R197). -/
structure Mmu.Invalidated (c : Config) (x : Side) (e : PageEa) (m m' : Mmu P) : Prop where
  noHit : ∀ cid, tlbHits c (c.mmu x) m' cid e = []
  otherSets : ∀ y n, n ≠ tlbIndex (c.mmu x) e → m'.entry y n = m.entry y n
  butV : ∀ y n, (m'.entry y n).mr = { (m.entry y n).mr with v := (m'.entry y n).mr.v } ∧
    (m'.entry y n).tr = (m.entry y n).tr ∧ (m'.entry y n).origin = (m.entry y n).origin ∧
    ((m'.entry y n).mr.v = true → (m.entry y n).mr.v = true)
  atb : m'.atb = m.atb
  tf : m'.tf = m.tf
  ptbp : m'.ptbp = m.ptbp
  pr : m'.pr = m.pr
  hist : m'.hist = m.hist
  owed : m'.owed = m.owed

/-- A way that is still valid in the set of the address has another VPN, so it matches in no context. -/
theorem noWay_invalidate (cid : BitVec 4) : NoWay c x (m.invalidate c (c.mmu x) e free) cid e := by
  intro y hy
  rw [entry_invalidate]
  split
  · simp only [tlbMatches]
    cases tlbTagMatches c (m.entry y (tlbIndex (c.mmu x) e)).mr.pl1 (m.entry y (tlbIndex (c.mmu x) e)).mr.vpn e <;> simp
  · next h =>
    exact tlbMatches_of_invalid cid e (Bool.eq_false_iff.2 fun hv => h ⟨rfl, hy, hv⟩)

theorem invalidate_invalidated : m.Invalidated c x e (m.invalidate c (c.mmu x) e free) := by
  constructor
  case noHit => exact fun cid => tlbHits_eq_nil_iff.2 (noWay_invalidate cid)
  case otherSets =>
    intro y n hn
    rw [entry_invalidate, if_neg fun hset => hn hset.1]
  case butV =>
    intro y n
    rw [entry_invalidate]
    split
    · next h =>
      obtain ⟨-, -, hv⟩ := h
      exact ⟨rfl, rfl, rfl, fun _ => hv⟩
    · exact ⟨rfl, rfl, rfl, id⟩
  case atb => exact invalidate_atb ..
  case tf => exact invalidate_tf ..
  case ptbp => exact invalidate_ptbp ..
  case pr => exact invalidate_pr ..
  case hist => exact invalidate_hist ..
  case owed => exact invalidate_owed ..

end Invalidate

/-- Settles O21: the write is an invalidate, and takes one free value. -/
theorem mtsprInvalidates : Obligations.MtsprInvalidates := by
  intro s a b k hmode
  constructor
  · intro himpl hnames
    obtain ⟨m, hexec, hm⟩ : ∃ m, exec (.mtspr a b k) s = .next (advance { s with dmmu := m, draws := s.draws + 1 }) ∧
        s.dmmu.Invalidated s.cfg .d (pageEa s.cfg.eaBits (readGpr s b)) m :=
      ⟨_, exec_mtspr_implemented b hmode hnames.tlbeir himpl nofun, invalidate_invalidated⟩
    exact ⟨m, hexec, hm.noHit, hm.otherSets, hm.butV, hm.atb, hm.tf, hm.ptbp, hm.pr, hm.hist, hm.owed⟩
  · intro himpl hnames
    obtain ⟨m, hexec, hm⟩ : ∃ m, exec (.mtspr a b k) s = .next (advance { s with immu := m, draws := s.draws + 1 }) ∧
        s.immu.Invalidated s.cfg .i (pageEa s.cfg.eaBits (readGpr s b)) m :=
      ⟨_, exec_mtspr_implemented b hmode hnames.tlbeir himpl nofun, invalidate_invalidated⟩
    exact ⟨m, hexec, hm.noHit, hm.otherSets, hm.butV, hm.atb, hm.tf, hm.ptbp, hm.pr, hm.hist, hm.owed⟩

end Sys2Proof.Machine
end

section
/-! PROOFS. User mode: no instruction reaches a register of the MMU (O23 to O25). -/

namespace Sys2Proof.Machine

section User
variable {s : State} {a b d : BitVec 5} {k : BitVec 16} {x : Side} {n : Nat}

theorem userSprAccess_refuse (h : s.cfg.userSprAccess = .refuse) : userSprAccess s = .refused .userSprAccess := by
  simp only [userSprAccess, h]

theorem userSprAccess_raise {v : BitVec 12} (h : s.cfg.userSprAccess = .raise v) :
    userSprAccess s = .next (takeException v (drawn s) (countDraw s)) := by
  simp only [userSprAccess, h]

/-- In user mode both instructions come to what USER_SPR_ACCESS says at every listed register (R183). -/
theorem exec_user_listed (hmode : s.sr.mode = .user) (hlisted : ListedNumber n) (hnames : Names s a k x n) :
    exec (.mfspr d a k) s = userSprAccess s ∧ exec (.mtspr a b k) s = userSprAccess s := by
  obtain ⟨r, hr, -, hne, -⟩ := hnames.exists_spr hlisted
  exact ⟨exec_user hr hmode, exec_user (accessedSpr_mtspr_eq_some_iff.2 ⟨hr, hne⟩) hmode⟩

/-- So does a read of a configuration register (R47). -/
theorem exec_user_mmucfgr (hmode : s.sr.mode = .user) (hc : s.cfg.cfgrImpl = true)
    (haddr : (readGpr s a ||| k.setWidth 64).setWidth 16 = 3#16 ∨ (readGpr s a ||| k.setWidth 64).setWidth 16 = 4#16) :
    exec (.mfspr d a k) s = userSprAccess s := by
  obtain ⟨hd, hi⟩ := sprOf_mmucfgr hc
  rcases haddr with haddr | haddr
  · exact exec_user (accessedSpr_mfspr.trans (by rw [sprAddress, haddr, hd])) hmode
  · exact exec_user (accessedSpr_mfspr.trans (by rw [sprAddress, haddr, hi])) hmode

end User

/-- Settles O23. -/
theorem userAccessRefused : Obligations.UserAccessRefused := by
  intro s d a b k hmode hrefuse
  rw [← userSprAccess_refuse hrefuse]
  exact ⟨fun x n hlisted hnames => exec_user_listed hmode hlisted hnames, exec_user_mmucfgr hmode⟩

/-- A well-formed configuration names none of the four MMU exceptions (R221). -/
theorem userSprAccess_ne_offset {c : Config} {v : BitVec 12} (hwf : c.wf = true) (hraise : c.userSprAccess = .raise v)
    (e : MmuException) : v ≠ e.offset := by
  simp only [Config.wf, Bool.and_eq_true] at hwf
  obtain ⟨-, huser⟩ := hwf
  rw [hraise] at huser
  rintro rfl
  cases e <;> exact absurd huser (by decide)

/-- Settles O24: the access is the exception, whose entry leaves the MMU, the general registers and memory alone. -/
theorem userAccessRaises : Obligations.UserAccessRaises := by
  intro s d a b k v hmode hraise
  refine ⟨fun hwf => userSprAccess_ne_offset hwf hraise, takeException v (drawn s) (countDraw s), ?_⟩
  rw [← userSprAccess_raise hraise]
  refine ⟨fun x n hlisted hnames => exec_user_listed hmode hlisted hnames, exec_user_mmucfgr hmode, rfl, rfl, rfl, rfl,
    rfl, rfl, rfl, rfl, fun hslot => ?_, fun slot hslot => ?_, rfl, rfl, rfl, rfl⟩
  · simp only [takeException_epcr, takeException_sr, countDraw_cfg, countDraw_delaySlot, countDraw_pc, hslot,
      Option.isSome_none, and_self]
  · simp only [takeException_epcr, takeException_sr, countDraw_cfg, countDraw_delaySlot, hslot, Option.isSome_some,
      and_self]

/-! ### Nothing of the MMU gets out (R183) -/

section Learns
variable {s t : State} {i : Instr}

/-- The state with other contents of the two halves of the MMU. -/
def withMmu (dm : Mmu DProt) (im : Mmu IProt) (s : State) : State := { s with dmmu := dm, immu := im }

variable (dm : Mmu DProt) (im : Mmu IProt)

theorem sameButMmu_withMmu : SameButMmu s (withMmu dm im s) := rfl

/-- Which register an instruction names does not depend on what the MMU registers hold. -/
theorem accessedSpr_withMmu : accessedSpr (withMmu dm im s) i = accessedSpr s i := by cases i <;> rfl

/-- All that an instruction can come to in user mode: a refusal, which the MMU registers do not change, or an exception,
which carries them along unseen. -/
theorem exec_user_withMmu (hmode : s.sr.mode = .user) :
    (∃ r, exec i s = .refused r ∧ exec i (withMmu dm im s) = .refused r) ∨
      ∃ v, exec i s = .next (takeException v (drawn s) (countDraw s)) ∧
        exec i (withMmu dm im s) = .next (withMmu dm im (takeException v (drawn s) (countDraw s))) := by
  have hacc := accessedSpr_withMmu (s := s) (i := i) dm im
  cases h : accessedSpr s i with
  | none => exact .inl ⟨_, exec_of_accessedSpr_none h, exec_of_accessedSpr_none (hacc.trans h)⟩
  | some r =>
    have hs : exec i s = userSprAccess s := exec_user h hmode
    have ht : exec i (withMmu dm im s) = userSprAccess (withMmu dm im s) := exec_user (hacc.trans h) hmode
    cases hu : s.cfg.userSprAccess with
    | refuse => exact .inl ⟨_, hs.trans (userSprAccess_refuse hu), ht.trans (userSprAccess_refuse hu)⟩
    | raise v => exact .inr ⟨v, hs.trans (userSprAccess_raise hu), ht.trans (userSprAccess_raise hu)⟩

end Learns

/-- Settles O25: both runs are refused alike, or take the same exception. -/
theorem userModeLearnsNothing : Obligations.UserModeLearnsNothing := by
  intro i s t hmode hsame
  obtain ⟨dm, im, rfl⟩ : ∃ dm im, t = withMmu dm im s := ⟨_, _, hsame⟩
  rcases exec_user_withMmu (i := i) dm im hmode with ⟨r, hs, ht⟩ | ⟨v, hs, ht⟩
  · rw [hs, ht]
    exact ⟨fun _ h => (nomatch h), fun _ h => h, fun _ h => nomatch h⟩
  · rw [hs, ht]
    refine ⟨fun s' hs' => ?_, fun _ h => (nomatch h), fun _ h => nomatch h⟩
    obtain rfl := Host.Outcome.next.inj hs'
    exact ⟨rfl, rfl, _, rfl, sameButMmu_withMmu dm im, rfl, rfl⟩

end Sys2Proof.Machine
end

section
/-! PROOFS. Exceptions: what their entry and the return from them do (O45 to O47), that the fetch comes first and an access
that raises changes nothing (O48, O49), which half raises no miss (O33), and how user mode is left (O59). -/

namespace Sys2Proof.Machine

/-! ### Entry and return (R220 to R227) -/

/-- Settles O45: a vector's address keeps its offset in the low twelve bits. -/
theorem exceptionVectors : Obligations.ExceptionVectors := fun _ _ =>
  ⟨extractLsb'_vector _ _ _, extractLsb'_vector _ _ _, extractLsb'_vector _ _ _, extractLsb'_vector _ _ _, fun _ => rfl⟩

/-- Where the failing instruction runs again: at the instruction, or at the jump whose delay slot it stands in (R223). -/
def State.restartPc (s : State) : Ea :=
  match s.delaySlot with
  | some d => d.jump
  | none => s.pc

section Entry
variable {s : State} {e : MmuException} {ea : Ea}

theorem restartPc_of_none (h : s.delaySlot = none) : s.restartPc = s.pc := by rw [State.restartPc, h]

theorem restartPc_of_some {d : DelaySlot} (h : s.delaySlot = some d) : s.restartPc = d.jump := by rw [State.restartPc, h]

theorem raiseMmu_epcr : (raiseMmu e ea s).epcr = truncEa s.cfg.eaBits s.restartPc := rfl

/-- Leaving an exception right after it was taken puts SR back and restarts the failing instruction (R224, R227). -/
theorem leaveException_raiseMmu (hfits : FitsEa s.cfg s.restartPc) :
    leaveException (raiseMmu e ea s) =
      { s with
        pc := s.restartPc, delaySlot := none, esr := s.sr, epcr := s.restartPc, eear := truncEa s.cfg.eaBits ea } := by
  have hepcr : (raiseMmu e ea s).epcr = s.restartPc := raiseMmu_epcr.trans hfits
  have hpc : truncEa s.cfg.eaBits (raiseMmu e ea s).epcr = s.restartPc := by rw [hepcr, hfits]
  calc leaveException (raiseMmu e ea s)
      = { s with
          pc := truncEa s.cfg.eaBits (raiseMmu e ea s).epcr, delaySlot := none, esr := s.sr,
          epcr := (raiseMmu e ea s).epcr, eear := truncEa s.cfg.eaBits ea } := rfl
    _ = _ := by rw [hpc, hepcr]

/-- The handler's address is a multiple of 4 that fits EA_BITS. -/
theorem raiseMmu_pc_aligned :
    (truncEa (raiseMmu e ea s).cfg.eaBits (raiseMmu e ea s).pc).extractLsb' 0 2 = 0 := by
  have hpc : truncEa s.cfg.eaBits (raiseMmu e ea s).pc = (raiseMmu e ea s).pc := fitsEa_truncEa _ _
  have hlow : (raiseMmu e ea s).pc.extractLsb' 0 12 = e.offset := extractLsb'_vector _ _ _
  calc (truncEa s.cfg.eaBits (raiseMmu e ea s).pc).extractLsb' 0 2
      = ((raiseMmu e ea s).pc.extractLsb' 0 12).extractLsb' 0 2 := by
        rw [hpc, BitVec.extractLsb'_extractLsb'_of_le (by decide)]
    _ = e.offset.extractLsb' 0 2 := by rw [hlow]
    _ = 0 := by cases e <;> rfl

/-- The first fetch of a handler goes through, for the instruction MMU is off: no more than the bus record and the count of
free values changes (R142, R227). -/
theorem fetchInsn_raiseMmu :
    ∃ bytes b n, fetchInsn (raiseMmu e ea s) = .ok bytes { raiseMmu e ea s with bus := b, draws := n } := by
  obtain ⟨at', hx⟩ := (offMmuIsIdentity (raiseMmu e ea s) false
    (truncEa (raiseMmu e ea s).cfg.eaBits (raiseMmu e ea s).pc)).2 rfl
  have hfetch := fetchInsn_of_ok raiseMmu_pc_aligned hx
  exact ⟨_, _, _, hfetch⟩

end Entry

/-- Settles O46: outside a delay slot and inside one. -/
theorem exceptionEntrySavesState : Obligations.ExceptionEntrySavesState := by
  intro e ea s
  refine ⟨rfl, rfl, fun hslot => ⟨?_, ?_⟩, fun d hslot => ⟨?_, ?_⟩, rfl, rfl, rfl, rfl, rfl, rfl, rfl, rfl, rfl⟩
  · rw [raiseMmu_epcr, restartPc_of_none hslot]
  · rw [raiseMmu_eq, takeException_sr, hslot, Option.isSome_none]
  · rw [raiseMmu_epcr, restartPc_of_some hslot]
  · rw [raiseMmu_eq, takeException_sr, hslot, Option.isSome_some]

/-! ### The fetch comes first (R230) -/

section Inputs
variable {s t u : State} {b : List Byte} {store : Bool} {ea : Ea} {n : Nat} {act : List Part → State → State}

/-- The oldest input runs first. -/
theorem step_of_inbox_cons {i : Input} {rest : List Input} (h : s.inbox = i :: rest) :
    step s = runInput i { s with inbox := rest } := by
  simp only [step, h]

theorem dataAccess_of_fetch_trap (hf : fetchInsn s = .trap t) : dataAccess store ea n act s = .next t := by
  simp only [dataAccess, hf]

theorem dataAccess_of_trap (hf : fetchInsn s = .ok b u) (ha : translateAccess store ea n u = .trap t) :
    dataAccess store ea n act s = .next t := by
  simp only [dataAccess, hf, ha]

theorem inputInsn_of_fetch_trap {act : CoreAct} (hf : fetchInsn s = .trap t) : inputInsn act s = .next t := by
  simp only [inputInsn, hf]

theorem inputInsn_of_fetch_ok {act : CoreAct} (hf : fetchInsn s = .ok b u) :
    inputInsn act s = .next (coreAct act (if act.sequential = true then advance u else u)) := by
  simp only [inputInsn, hf]

end Inputs

/-- Settles O48: the input that the step runs goes as its fetch does. -/
theorem fetchComesFirst : Obligations.FetchComesFirst := by
  intro s ea n dest bytes act rest
  refine ⟨fun t hf => ⟨?_, ?_, ?_⟩, fun b u hf => ?_⟩
  · exact dataAccess_of_fetch_trap hf
  · exact dataAccess_of_fetch_trap hf
  · exact inputInsn_of_fetch_trap hf
  · exact inputInsn_of_fetch_ok hf

/-- Settles O47: as an act of the core it is the return alone; as an instruction, the return after the handler's first
fetch. -/
theorem returnRestarts : Obligations.ReturnRestarts := by
  intro e ea pc s rest hpc hfits
  obtain rfl : pc = s.restartPc := by
    rcases hpc with ⟨hslot, rfl⟩ | ⟨d, hslot, rfl⟩
    · exact (restartPc_of_none hslot).symm
    · exact (restartPc_of_some hslot).symm
  refine ⟨?_, ?_⟩
  · exact congrArg Host.Outcome.next (leaveException_raiseMmu (s := { s with inbox := rest }) hfits)
  · obtain ⟨bytes, b, n, hf⟩ := fetchInsn_raiseMmu (s := { s with inbox := rest }) (e := e) (ea := ea)
    have hstep := inputInsn_of_fetch_ok (act := .returnFromException) hf
    exact ⟨b, n, hstep.trans
      (congrArg Host.Outcome.next (leaveException_raiseMmu (s := { s with inbox := rest, bus := b, draws := n }) hfits))⟩

/-! ### An access that raises (R222, R225) -/

/-- An access that its entry prohibits is a page fault, never a miss (R127). -/
theorem failure_of_useEntry_raise {P : Type} {c : Config} {x : Side} {store : Bool} {ok : P → Bool} {m m' : Mmu P}
    {draws k : Nat} {e : PageEa} {r : EntryRef} {f : Failure}
    (h : useEntry c x store ok m draws e r = .raise m' k f) : f = .pageFault := by
  obtain ⟨-, -, hf, -⟩ := useEntry_raise h
  exact hf

/-- Settles O33: with hardware reload a translation raises where its search finds no PTE, or through an entry that prohibits
the access, one that was there or one just installed. -/
theorem hardwareReloadNeverMisses : Obligations.HardwareReloadNeverMisses := by
  intro P c x store ok mem cid ea m m' draws k f hhw h
  simp only [translate, hhw, if_true] at h
  split at h
  · cases h
  · exact failure_of_useEntry_raise h
  · split at h
    · cases h
      rfl
    · cases h
    · split at h
      · cases h
      · exact failure_of_useEntry_raise h

section Failed
variable {s t u : State} {b : List Byte} {store : Bool} {ea : Ea} {n : Nat}

theorem translateAccess_trap_of_onePage (hpage : inOnePage ea n = true) (hd : dTranslate store ea s = .trap t) :
    translateAccess store ea n s = .trap t := by
  rw [translateAccess_onePage hpage, hd]

/-- A load or a store whose access raises, in one page or in any of its parts: the exception is all that happens, and it
changes no byte and no general register. -/
theorem dataAccess_failed {act : List Part → State → State} (hf : fetchInsn s = .ok b u)
    (h : (inOnePage ea n = true ∧ dTranslate store ea u = .trap t) ∨ translateAccess store ea n u = .trap t) :
    dataAccess store ea n act s = .next t ∧ t.mem = s.mem ∧ t.gpr = s.gpr := by
  have ha : translateAccess store ea n u = .trap t := by
    rcases h with ⟨hpage, hd⟩ | ha
    · exact translateAccess_trap_of_onePage hpage hd
    · exact ha
  refine ⟨dataAccess_of_trap hf ha, ?_⟩
  obtain ⟨m, k, f, ea', rfl⟩ := translateAccess_trap ha
  rw [fetchInsn_ok_frame hf]
  exact ⟨rfl, rfl⟩

end Failed

/-- Settles O49: a load and a store fail alike. -/
theorem failedAccessLeavesMemory : Obligations.FailedAccessLeavesMemory := by
  intro s u t b bytes ea n dest rest hf
  exact ⟨dataAccess_failed hf, dataAccess_failed hf⟩

/-! ### How user mode is left (R240) -/

/-- An exception at the vector offset was taken: SR is saved, and the program counter is at the vector (R226, R227). -/
def EnteredAt (offset : BitVec 12) (s t : State) : Prop :=
  t.esr = s.sr ∧ t.pc = truncEa s.cfg.eaBits (s.cfg.vectorBase ++ offset)

section Leaves
variable {s t u : State} {b : List Byte} {store : Bool} {ea : Ea} {n : Nat}

/-- An exception taken after the fetch saves the SR of before it, and enters at the same vector. -/
theorem EnteredAt.of_fetched {offset : BitVec 12} (h : EnteredAt offset u t) (hf : fetchInsn s = .ok b u) :
    EnteredAt offset s t := by
  rw [fetchInsn_ok_frame hf] at h
  exact h

theorem fetchInsn_trap_enteredAt (h : fetchInsn s = .trap t) :
    ∃ f : Failure, EnteredAt f.insn.offset s t := by
  obtain ⟨-, m, k, f, rfl, -⟩ := iTranslate_trap (fetchInsn_trap h)
  exact ⟨f, rfl, rfl⟩

theorem translateAccess_trap_enteredAt (h : translateAccess store ea n s = .trap t) :
    ∃ f : Failure, EnteredAt f.data.offset s t := by
  obtain ⟨m, k, f, ea', rfl⟩ := translateAccess_trap h
  exact ⟨f, rfl, rfl⟩

/-- In user mode an instruction that is not refused takes the exception that USER_SPR_ACCESS names (R183). -/
theorem exec_user_enteredAt {i : Instr} (hmode : s.sr.mode = .user) (h : exec i s = .next t) :
    ∃ v, s.cfg.userSprAccess = .raise v ∧ EnteredAt v s t := by
  cases hacc : accessedSpr s i with
  | none =>
    rw [exec_of_accessedSpr_none hacc] at h
    cases h
  | some r =>
    rw [exec_user hacc hmode] at h
    cases hu : s.cfg.userSprAccess with
    | refuse =>
      rw [userSprAccess_refuse hu] at h
      cases h
    | raise v =>
      rw [userSprAccess_raise hu] at h
      cases h
      exact ⟨v, rfl, rfl, rfl⟩

/-- A data access that does not touch SR itself leaves user mode by an MMU exception only: of its fetch, or of one of its
parts. -/
theorem dataAccess_leaves_user {act : List Part → State → State} (hact : ∀ parts w, (act parts w).sr = w.sr)
    (hmode : s.sr.mode = .user) (h : dataAccess store ea n act s = .next t) (hleft : t.sr.mode = .supervisor) :
    ∃ e : MmuException, EnteredAt e.offset s t := by
  rcases dataAccess_next h with hf | ⟨b, u, hf, ha | ⟨parts, w, ha, rfl⟩⟩
  · obtain ⟨f, hentered⟩ := fetchInsn_trap_enteredAt hf
    exact ⟨_, hentered⟩
  · obtain ⟨f, hentered⟩ := translateAccess_trap_enteredAt ha
    exact ⟨_, hentered.of_fetched hf⟩
  · have hstays : (advance (act parts w)).sr = s.sr := by
      rw [advance_sr, hact, translateAccess_ok ha, fetchInsn_ok_frame hf]
    rw [hstays, hmode] at hleft
    cases hleft

theorem loadAct_sr (dest : Option (BitVec 5 × Ea)) (parts : List Part) (s : State) : (loadAct dest parts s).sr = s.sr := by
  rw [loadAct_eq]

theorem storeAct_sr (bytes : List Byte) (parts : List Part) (s : State) : (storeAct bytes parts s).sr = s.sr := rfl

/-- With no input, user mode is left by the exception of the fetch or by that of USER_SPR_ACCESS. -/
theorem step_instruction_leaves_user (hin : s.inbox = []) (hmode : s.sr.mode = .user) (h : step s = .next t) :
    (∃ f : Failure, EnteredAt f.insn.offset s t) ∨ ∃ v, s.cfg.userSprAccess = .raise v ∧ EnteredAt v s t := by
  rcases step_next h with ⟨i, rest, hcons, -⟩ | ⟨-, hf⟩ | ⟨-, bytes, u, i, rest, hf, -, hexec⟩
  · cases hin.symm.trans hcons
  · exact .inl (fetchInsn_trap_enteredAt hf)
  · have hu := fetchInsn_ok_frame hf
    obtain ⟨v, hv, hentered⟩ := exec_user_enteredAt (by rw [hu]; exact hmode) hexec
    rw [hu] at hv
    exact .inr ⟨v, hv, hentered.of_fetched hf⟩

/-- A load or a store leaves user mode by an MMU exception only. -/
theorem step_access_leaves_user
    (hin : (∃ ea n dest rest, s.inbox = .load ea n dest :: rest) ∨ (∃ ea bytes rest, s.inbox = .store ea bytes :: rest))
    (hmode : s.sr.mode = .user) (h : step s = .next t) (hleft : t.sr.mode = .supervisor) :
    ∃ e : MmuException, EnteredAt e.offset s t := by
  rcases hin with ⟨ea, n, dest, rest, hin⟩ | ⟨ea, bytes, rest, hin⟩ <;> rw [step_of_inbox_cons hin] at h
  · exact dataAccess_leaves_user (s := { s with inbox := rest }) (loadAct_sr dest) hmode h hleft
  · exact dataAccess_leaves_user (s := { s with inbox := rest }) (storeAct_sr bytes) hmode h hleft

end Leaves

/-- Settles O59, by what the step runs: an instruction, or a load or a store. -/
theorem userModeLeftByExceptionOnly : Obligations.UserModeLeftByExceptionOnly := by
  intro s t hmode hstep hleft
  refine ⟨fun hin => ?_, fun hin => ?_⟩
  · rcases step_instruction_leaves_user hin hmode hstep with ⟨f, hesr, hpc⟩ | ⟨v, hv, hesr, hpc⟩
    · refine ⟨hesr, f.insn.offset, ?_, hpc⟩
      cases f with
      | tlbMiss => exact .inr (.inl rfl)
      | pageFault => exact .inl rfl
    · exact ⟨hesr, v, .inr (.inr hv), hpc⟩
  · obtain ⟨e, hesr, hpc⟩ := step_access_leaves_user hin hmode hstep hleft
    exact ⟨hesr, e, hpc⟩

end Sys2Proof.Machine
end
